-- ==== Sys2Proof/Word.lean ====
section
/-! DEFINITION. The word types of the host port and of the packed byte stream
(spec/10_state.md R14, R16). Every other quantity of the block is an unsigned natural that no
command can overflow (spec/00_scope.md R8), and is a `Nat` held within its width by `Safety.lean`. -/

namespace Sys2Proof

/-- A register of the block: 32 bits (R14). -/
abbrev Word := BitVec 32

/-- An element of `BYTES`: 8 bits (R24). -/
abbrev Byte := BitVec 8

end Sys2Proof
end

