-- ==== Sys2Proof/Syntax.lean ====
section
/-! DEFINITION. The syntax of the block's commands: one constructor for each row of
spec/opcode_table.json (spec/30_encoding.md R62, R63, R73). A command has no operand fields (R61);
a row `ILLEGAL_HI<k>` leaves bits `k-1` to 0 of the word free, and `low` is their number. -/

namespace Sys2Proof

/-- The word written to `REG.CMD`, told apart as R62 and R63 do. -/
inductive Instr where
  /-- `computeFrequencies` (R80) -/
  | freq
  /-- `buildTree` (R82) -/
  | build
  /-- `buildCodeTable` (R90) -/
  | codes
  /-- the Encode stage (R95) -/
  | enc
  /-- `huffmanEncode` (R98) -/
  | henc
  /-- `packBits` (R100) -/
  | pack
  /-- `unpackBits` (R105) -/
  | unpack
  /-- `huffmanDecode` (R108) -/
  | hdec
  /-- `lz77Compress` (R115) -/
  | lzc
  /-- `lz77Decompress` (R125) -/
  | lzd
  /-- opcode 0 and opcodes 0xB to 0xF encode no command (R63) -/
  | illegal0
  | illegalB
  | illegalC
  | illegalD
  | illegalE
  | illegalF
  /-- a word whose highest set bit is the bit named encodes no command (R63, R73) -/
  | illegalHi31 (low : Nat)
  | illegalHi30 (low : Nat)
  | illegalHi29 (low : Nat)
  | illegalHi28 (low : Nat)
  | illegalHi27 (low : Nat)
  | illegalHi26 (low : Nat)
  | illegalHi25 (low : Nat)
  | illegalHi24 (low : Nat)
  | illegalHi23 (low : Nat)
  | illegalHi22 (low : Nat)
  | illegalHi21 (low : Nat)
  | illegalHi20 (low : Nat)
  | illegalHi19 (low : Nat)
  | illegalHi18 (low : Nat)
  | illegalHi17 (low : Nat)
  | illegalHi16 (low : Nat)
  | illegalHi15 (low : Nat)
  | illegalHi14 (low : Nat)
  | illegalHi13 (low : Nat)
  | illegalHi12 (low : Nat)
  | illegalHi11 (low : Nat)
  | illegalHi10 (low : Nat)
  | illegalHi9 (low : Nat)
  | illegalHi8 (low : Nat)
  | illegalHi7 (low : Nat)
  | illegalHi6 (low : Nat)
  | illegalHi5 (low : Nat)
  | illegalHi4 (low : Nat)
deriving DecidableEq, Repr

end Sys2Proof
end

