-- ==== Sys2Proof/WellFormed.lean ====
section
/-! DEFINITION. Which terms of `Instr` stand for a word: the field `low` of a row `ILLEGAL_HI<k>` has
`k` bits (spec/30_encoding.md R73). Rows without a field have nothing to check (R61). -/

namespace Sys2Proof

/-- Every field fits the bits the opcode table gives it. -/
def Instr.wellFormed (i : Instr) : Bool :=
  match i with
  | .freq => true
  | .build => true
  | .codes => true
  | .enc => true
  | .henc => true
  | .pack => true
  | .unpack => true
  | .hdec => true
  | .lzc => true
  | .lzd => true
  | .illegal0 => true
  | .illegalB => true
  | .illegalC => true
  | .illegalD => true
  | .illegalE => true
  | .illegalF => true
  | .illegalHi31 low => decide (low < 2 ^ 31)
  | .illegalHi30 low => decide (low < 2 ^ 30)
  | .illegalHi29 low => decide (low < 2 ^ 29)
  | .illegalHi28 low => decide (low < 2 ^ 28)
  | .illegalHi27 low => decide (low < 2 ^ 27)
  | .illegalHi26 low => decide (low < 2 ^ 26)
  | .illegalHi25 low => decide (low < 2 ^ 25)
  | .illegalHi24 low => decide (low < 2 ^ 24)
  | .illegalHi23 low => decide (low < 2 ^ 23)
  | .illegalHi22 low => decide (low < 2 ^ 22)
  | .illegalHi21 low => decide (low < 2 ^ 21)
  | .illegalHi20 low => decide (low < 2 ^ 20)
  | .illegalHi19 low => decide (low < 2 ^ 19)
  | .illegalHi18 low => decide (low < 2 ^ 18)
  | .illegalHi17 low => decide (low < 2 ^ 17)
  | .illegalHi16 low => decide (low < 2 ^ 16)
  | .illegalHi15 low => decide (low < 2 ^ 15)
  | .illegalHi14 low => decide (low < 2 ^ 14)
  | .illegalHi13 low => decide (low < 2 ^ 13)
  | .illegalHi12 low => decide (low < 2 ^ 12)
  | .illegalHi11 low => decide (low < 2 ^ 11)
  | .illegalHi10 low => decide (low < 2 ^ 10)
  | .illegalHi9 low => decide (low < 2 ^ 9)
  | .illegalHi8 low => decide (low < 2 ^ 8)
  | .illegalHi7 low => decide (low < 2 ^ 7)
  | .illegalHi6 low => decide (low < 2 ^ 6)
  | .illegalHi5 low => decide (low < 2 ^ 5)
  | .illegalHi4 low => decide (low < 2 ^ 4)

end Sys2Proof
end

