-- ==== Sys2Proof/Decode.lean ====
section
/-! DEFINITION. The decoder of a command word, total on every 32-bit word, and the encoder, both
from the rows of spec/opcode_table.json (spec/30_encoding.md R61 to R63, R73). A command word is not
stored in any byte memory of the block: it is the 32-bit value of one register write (R60), so the
word itself is what is decoded and no byte order arises (spec/20_memory.md R41). -/

namespace Sys2Proof

/-- The row of a word with `v[31:4] = 0` and `v[3:0] = n` (R62, R63). -/
def decodeLow (n : Nat) : Instr :=
  match n with
  | 0x0 => .illegal0
  | 0x1 => .freq
  | 0x2 => .build
  | 0x3 => .codes
  | 0x4 => .enc
  | 0x5 => .henc
  | 0x6 => .pack
  | 0x7 => .unpack
  | 0x8 => .hdec
  | 0x9 => .lzc
  | 0xA => .lzd
  | 0xB => .illegalB
  | 0xC => .illegalC
  | 0xD => .illegalD
  | 0xE => .illegalE
  | _ => .illegalF

/-- The row of a word with number `n` whose highest set bit, at 4 or above, is bit `k` (R63, R73). -/
def decodeHigh (k n : Nat) : Instr :=
  match k with
  | 4 => .illegalHi4 (n - 2 ^ 4)
  | 5 => .illegalHi5 (n - 2 ^ 5)
  | 6 => .illegalHi6 (n - 2 ^ 6)
  | 7 => .illegalHi7 (n - 2 ^ 7)
  | 8 => .illegalHi8 (n - 2 ^ 8)
  | 9 => .illegalHi9 (n - 2 ^ 9)
  | 10 => .illegalHi10 (n - 2 ^ 10)
  | 11 => .illegalHi11 (n - 2 ^ 11)
  | 12 => .illegalHi12 (n - 2 ^ 12)
  | 13 => .illegalHi13 (n - 2 ^ 13)
  | 14 => .illegalHi14 (n - 2 ^ 14)
  | 15 => .illegalHi15 (n - 2 ^ 15)
  | 16 => .illegalHi16 (n - 2 ^ 16)
  | 17 => .illegalHi17 (n - 2 ^ 17)
  | 18 => .illegalHi18 (n - 2 ^ 18)
  | 19 => .illegalHi19 (n - 2 ^ 19)
  | 20 => .illegalHi20 (n - 2 ^ 20)
  | 21 => .illegalHi21 (n - 2 ^ 21)
  | 22 => .illegalHi22 (n - 2 ^ 22)
  | 23 => .illegalHi23 (n - 2 ^ 23)
  | 24 => .illegalHi24 (n - 2 ^ 24)
  | 25 => .illegalHi25 (n - 2 ^ 25)
  | 26 => .illegalHi26 (n - 2 ^ 26)
  | 27 => .illegalHi27 (n - 2 ^ 27)
  | 28 => .illegalHi28 (n - 2 ^ 28)
  | 29 => .illegalHi29 (n - 2 ^ 29)
  | 30 => .illegalHi30 (n - 2 ^ 30)
  | _ => .illegalHi31 (n - 2 ^ 31)

/-- Which row of the table the word with number `n` selects (R62, R63, R73). -/
def decodeNat (n : Nat) : Instr := if n < 2 ^ 4 then decodeLow n else decodeHigh (Nat.log2 n) n

/-- The command that `REG.CMD` word `v` encodes (R62), or the row of R63 that says it encodes none. -/
def decode (v : Word) : Instr := decodeNat v.toNat

/-- The number of the word of an instruction: the opcode of R62, or the row's fixed bits with its
free bits below (R73). -/
def encodeNat (i : Instr) : Nat :=
  match i with
  | .illegal0 => 0x0
  | .freq => 0x1
  | .build => 0x2
  | .codes => 0x3
  | .enc => 0x4
  | .henc => 0x5
  | .pack => 0x6
  | .unpack => 0x7
  | .hdec => 0x8
  | .lzc => 0x9
  | .lzd => 0xA
  | .illegalB => 0xB
  | .illegalC => 0xC
  | .illegalD => 0xD
  | .illegalE => 0xE
  | .illegalF => 0xF
  | .illegalHi31 low => 2 ^ 31 + low
  | .illegalHi30 low => 2 ^ 30 + low
  | .illegalHi29 low => 2 ^ 29 + low
  | .illegalHi28 low => 2 ^ 28 + low
  | .illegalHi27 low => 2 ^ 27 + low
  | .illegalHi26 low => 2 ^ 26 + low
  | .illegalHi25 low => 2 ^ 25 + low
  | .illegalHi24 low => 2 ^ 24 + low
  | .illegalHi23 low => 2 ^ 23 + low
  | .illegalHi22 low => 2 ^ 22 + low
  | .illegalHi21 low => 2 ^ 21 + low
  | .illegalHi20 low => 2 ^ 20 + low
  | .illegalHi19 low => 2 ^ 19 + low
  | .illegalHi18 low => 2 ^ 18 + low
  | .illegalHi17 low => 2 ^ 17 + low
  | .illegalHi16 low => 2 ^ 16 + low
  | .illegalHi15 low => 2 ^ 15 + low
  | .illegalHi14 low => 2 ^ 14 + low
  | .illegalHi13 low => 2 ^ 13 + low
  | .illegalHi12 low => 2 ^ 12 + low
  | .illegalHi11 low => 2 ^ 11 + low
  | .illegalHi10 low => 2 ^ 10 + low
  | .illegalHi9 low => 2 ^ 9 + low
  | .illegalHi8 low => 2 ^ 8 + low
  | .illegalHi7 low => 2 ^ 7 + low
  | .illegalHi6 low => 2 ^ 6 + low
  | .illegalHi5 low => 2 ^ 5 + low
  | .illegalHi4 low => 2 ^ 4 + low

/-- The `REG.CMD` word of an instruction. -/
def encode (i : Instr) : Word := BitVec.ofNat 32 (encodeNat i)

/-- Why a row of bits is not a command word at all. -/
inductive DecodeReject where
  /-- more than the one 32-bit word a command has (R61, R70): raised by `decodeBits`; safe, nothing runs -/
  | widerThanOneWord
deriving DecidableEq, Repr

/-- Decoding of `nbits` bits with number `w`. Every command has one 32-bit word (R61, R70), and bits
not given are 0; anything wider is rejected by name. -/
def decodeBits (nbits w : Nat) : Except DecodeReject Instr :=
  if nbits ≤ 32 ∧ w < 2 ^ 32 then .ok (decode (BitVec.ofNat 32 w)) else .error .widerThanOneWord

/-- The instruction the decoder reads from the bits of a row of spec/opcode_table.json. -/
def decodeTableWord (nbits w : Nat) : Option Instr :=
  match decodeBits nbits w with
  | .ok i => some i
  | .error _ => none

end Sys2Proof
end

