-- ==== Sys2Proof/Config.lean ====
section
/-! DEFINITION. The implementation parameters of spec/00_scope.md R5 with the sizes derived from
them, and the free values: what the spec leaves "unspecified" (spec/93_implementation_defined.md
U1 to U5). -/

namespace Sys2Proof

/-- The open parameters of R5. -/
structure Params where
  /-- `SYM_W`, the width of a symbol in bits -/
  symW : Nat
  /-- `N_MAX`, the capacity of `SIN` and `SOUT` in symbols -/
  nMax : Nat
  /-- `B_MAX`, the capacity of `BITS` in bits -/
  bMax : Nat
deriving DecidableEq, Repr

namespace Params

/-- The defaults of R5. -/
def defaults : Params := { symW := 8, nMax := 65535, bMax := 524280 }

/-- `A`, the number of symbols (R5). -/
def alphabet (p : Params) : Nat := 2 ^ p.symW

/-- `T_MAX`, the capacity of `TAGS` (R5). -/
def tMax (p : Params) : Nat := p.nMax

/-- `BY_MAX`, the capacity of `BYTES` (R5). -/
def byMax (p : Params) : Nat := 1 + p.bMax / 8

/-- `NODE_MAX`, the capacity of `NODE` (R5). -/
def nodeMax (p : Params) : Nat := 2 * p.alphabet - 1

/-- `CODE_MAX`, the longest code of a table entry (R5). -/
def codeMax (p : Params) : Nat := p.alphabet - 1

/-- `IDX_W = ceil(log2(N_MAX+1))` (R5): the number of binary digits of `N_MAX`. -/
def idxW (p : Params) : Nat := Nat.log2 p.nMax + 1

/-- `CNT_W` (R5). -/
def cntW (p : Params) : Nat := p.idxW

/-- `WT_W` (R5). -/
def wtW (p : Params) : Nat := p.cntW + p.symW

/-- `NIDX_W` (R5). -/
def nidxW (p : Params) : Nat := p.symW + 1

/-- `CLEN_W` (R5). -/
def clenW (p : Params) : Nat := p.symW

/-- The constraints of R5. The three upper bounds are DEDUCED (log 2): the 32-bit registers of R14
hold lengths up to `N_MAX`, `B_MAX` and `NODE_MAX`. -/
abbrev wf (p : Params) : Prop :=
  1 ≤ p.symW ∧ 1 ≤ p.nMax ∧ 8 ≤ p.bMax ∧ p.bMax % 8 = 0 ∧
    p.symW ≤ 31 ∧ p.nMax < 2 ^ 32 ∧ p.bMax < 2 ^ 32

end Params

/-- FREE VALUE. What element `index` of space `space` holds, as the number the host port would carry,
while nothing specified has been written to it since the buffer was last replaced for the
`gen`-th time (U2, U3, U4). The reader cuts it to the element's width. -/
opaque Config.freeElem (space gen index : Nat) : Nat

/-- FREE VALUE. What the `n`-th unspecified read returns (U1, U5). The reader cuts it to width. -/
opaque Config.freeRead (n : Nat) : Nat

end Sys2Proof
end

