-- ==== Sys2Proof/Machine/State.lean ====
section
/-! DEFINITION. The state of the block: the eleven registers and eight buffers of
spec/10_state.md R10, the hidden command word of a running command, and the model's own fields
(the parameters as constant data, the events still to come, the last value read, the counters of
the free values). -/

namespace Sys2Proof.Machine

/-- The flags and fields of `REG.STATUS` (spec/10_state.md R13, R15). Bits 31:16 read as 0 and are
not stored; `Status.word` lays the fields out. -/
structure Status where
  busy : Bool
  done : Bool
  err : Bool
  empty : Bool
  errCode : BitVec 4
  stage : BitVec 4
  op : BitVec 4
deriving DecidableEq, Repr

/-- An element of `NODE` (R21): `kind` is false for a Leaf, true for an Internal node. -/
structure NodeRec where
  kind : Bool
  sym : Nat
  left : Nat
  right : Nat
  weight : Nat
deriving DecidableEq, Repr

/-- An element of `CT` (R22): bit `k` of `bits` is element `k` of the code, and `len` 0 says that
the symbol has no entry. -/
structure CodeRec where
  len : Nat
  bits : Nat
deriving DecidableEq, Repr

/-- An element of `TAGS` (R25). -/
structure TagRec where
  dist : Nat
  len : Nat
  hasLit : Bool
  lit : Nat
deriving DecidableEq, Repr

/-- One buffer: an element-addressed memory of its own (spec/20_memory.md R40). `cells` lists the
elements that hold a known value other than `fill`, by strictly rising index. An index that is not
listed holds the value in `fill`; where `fill` is none it holds an unspecified value, the free value
of generation `gen` (log 3, DESIGN CHOICE). -/
structure Memory (α : Type) where
  cells : List (Nat × α)
  fill : Option α
  gen : Nat
deriving DecidableEq, Repr

/-- The address spaces 1 to 8 by name, and `absent k` for the space id `9 + k`, which does not exist
(R40). -/
inductive Space where
  | sin | sout | ft | node | ct | bits | bytes | tags
  | absent (k : Nat)
deriving DecidableEq, Repr

/-- What can happen to the block from outside, and the moment a running command completes. An
element's value crosses the port as the number of its record layout (spec/30_encoding.md R66 to R68). -/
inductive Event where
  /-- `RegRead(n)` (R44) -/
  | regRead (n : Nat)
  /-- `RegWrite(n, v)` (R44) -/
  | regWrite (n : Nat) (v : Word)
  /-- `BufRead(B, i)` (R44) -/
  | bufRead (b : Space) (i : Nat)
  /-- `BufWrite(B, i, v)` (R44) -/
  | bufWrite (b : Space) (i v : Nat)
  /-- the `Reset` event (spec/70_reset_and_hazards.md R160) -/
  | reset
  /-- the running command completes now (R52); nothing happens while no command runs -/
  | complete
deriving DecidableEq, Repr

/-- What the last host read returned (R44). -/
inductive ReadValue where
  | nothing
  | reg (v : Word)
  | elem (v : Nat)
deriving DecidableEq, Repr

/-- The error kinds of spec/60_exceptions.md R140. -/
inductive ErrorKind where
  | emptyInput | alphabetMismatch | corruptStream | malformedTag
  | badFrame | badParam | capacity | illegalCommand
deriving DecidableEq, Repr

/-- What a `raise` reports (spec/00_scope.md R7): the error, its stage (R141), its detail (R145). -/
structure CmdError where
  kind : ErrorKind
  stage : BitVec 4
  info : Word
deriving DecidableEq, Repr

/-- The entities a command can have as a destination (spec/20_memory.md R47). -/
inductive Entity where
  | freqTable | tree | codeTable | bitSeq | byteSeq | tagSeq | symbolSeq
deriving DecidableEq, Repr

/-- Why the machine stops. No command stops in a state that satisfies WF_TREE (R21). -/
inductive Fault where
  /-- raised by CODES when following the children from `REG.ROOT` leaves the arena or does not end (HENC
  runs the same body, on the tree it has just built): R21 says no state of the block is like that, so
  the spec gives no effect there (log 9, DESIGN CHOICE); safe -/
  | arenaNotATree
deriving DecidableEq, Repr

/-- Why an instruction has no meaning in the model. -/
inductive Refusal where
  /-- raised by `exec` for an instruction without a meaning; no arm does so; safe -/
  | notModelled (mnemonic : String)
deriving DecidableEq, Repr

/-- The machine. Registers are named as in R14 (`sinLen` is `REG.SIN_LEN`), buffers as in R16. -/
structure State where
  /-- the parameters of R5: configuration, the same in every state of a run (log 1, DESIGN CHOICE) -/
  cfg : Params
  status : Status
  errInfo : Word
  win : Word
  sinLen : Word
  soutLen : Word
  bitLen : Word
  byteLen : Word
  tagLen : Word
  nnodes : Word
  root : Word
  sin : Memory Nat
  sout : Memory Nat
  ft : Memory Nat
  node : Memory NodeRec
  ct : Memory CodeRec
  bits : Memory Bool
  bytes : Memory Byte
  tags : Memory TagRec
  /-- the word the accepted `REG.CMD` write handed over, while the command runs (R53; log 6, DESIGN CHOICE) -/
  cmdLatch : Word
  /-- what happens next, oldest first (log 5, DESIGN CHOICE) -/
  inputs : List Event
  /-- the model's own: the value the last host read returned (log 5, DESIGN CHOICE) -/
  lastRead : ReadValue
  /-- the model's own: how many unspecified reads there were (log 4, DESIGN CHOICE) -/
  readCount : Nat
deriving DecidableEq, Repr

/-- All status fields 0: idle, not done, no error (R37). -/
def Status.cleared : Status :=
  { busy := false, done := false, err := false, empty := false, errCode := 0, stage := 0, op := 0 }

/-- Every element unspecified (R26, R37), as the `gen`-th contents of the buffer. -/
def Memory.unspecified {α : Type} (gen : Nat) : Memory α := { cells := [], fill := none, gen := gen }

/-- Every element `a`. -/
def Memory.constant {α : Type} (a : α) (gen : Nat) : Memory α :=
  { cells := [], fill := some a, gen := gen }

/-- The state after reset (R37), for the default parameters of R5. -/
def State.reset : State :=
  { cfg := Params.defaults, status := Status.cleared, errInfo := 0, win := 0, sinLen := 0,
    soutLen := 0, bitLen := 0, byteLen := 0, tagLen := 0, nnodes := 0, root := 0,
    sin := Memory.unspecified 0, sout := Memory.unspecified 0, ft := Memory.constant 0 0,
    node := Memory.unspecified 0, ct := Memory.unspecified 0, bits := Memory.unspecified 0,
    bytes := Memory.unspecified 0, tags := Memory.unspecified 0,
    cmdLatch := 0, inputs := [], lastRead := .nothing, readCount := 0 }

end Sys2Proof.Machine
end

