-- ==== Sys2Proof/Machine/Flags.lean ====
section
/-! DEFINITION. `REG.STATUS`: its layout, its flags at each of the events that write it, and the
numeric error codes (spec/10_state.md R13, R15; spec/60_exceptions.md R140). -/

namespace Sys2Proof.Machine

/-- `ERRCODE` of each error kind (R140). -/
def ErrorKind.code (k : ErrorKind) : BitVec 4 :=
  match k with
  | .emptyInput => 1
  | .alphabetMismatch => 2
  | .corruptStream => 3
  | .malformedTag => 4
  | .badFrame => 5
  | .badParam => 6
  | .capacity => 7
  | .illegalCommand => 8

/-- The 32-bit value of `REG.STATUS` (R15): bits 31:16 are 0, then `OP`, `STAGE`, `ERRCODE`, `EMPTY`,
`ERR`, `DONE`, `BUSY` down to bit 0. -/
def Status.word (st : Status) : Word :=
  0#16 ++ st.op ++ st.stage ++ st.errCode ++ BitVec.ofBool st.empty ++ BitVec.ofBool st.err ++
    BitVec.ofBool st.done ++ BitVec.ofBool st.busy

/-- While a command runs: `BUSY`, the opcode `v[3:0]`, every other field 0 (R15, R60). -/
def Status.accepted (v : Word) : Status :=
  { Status.cleared with busy := true, op := v.setWidth 4 }

/-- After a command without error (R147). `empty` is the flag of R15. -/
def Status.completed (st : Status) (empty : Bool) : Status :=
  { Status.cleared with done := true, empty := empty, op := st.op }

/-- After a command that raised `e` (R146). -/
def Status.aborted (st : Status) (e : CmdError) : Status :=
  { Status.cleared with done := true, err := true, errCode := e.kind.code, stage := e.stage, op := st.op }

/-- `EMPTY` for a primary source with this length register (R15). -/
def emptyFlag (len : Word) : Bool := len == 0

end Sys2Proof.Machine
end

