-- ==== Sys2Proof/Machine/Ops.lean ====
section
/-! DEFINITION. The operations shared by the commands: reading and writing one element of a buffer,
replacing a whole entity, accepting a command, completing it, and aborting it, which is this block's
form of taking an exception (spec/60_exceptions.md R146). There is no return from an exception: the
counterpart is the next accepted command (R149), `acceptCommand`. -/

namespace Sys2Proof.Machine

/-! ### Buffers -/

/-- The value listed for index `i`. -/
def lookupCell {α : Type} (i : Nat) : List (Nat × α) → Option α
  | [] => none
  | (j, b) :: rest => if i = j then some b else lookupCell i rest

/-- List `a` at index `i`, in its place among rising indices. -/
def insertCell {α : Type} (i : Nat) (a : α) : List (Nat × α) → List (Nat × α)
  | [] => [(i, a)]
  | (j, b) :: rest =>
    if i < j then (i, a) :: (j, b) :: rest
    else if i = j then (i, a) :: rest
    else (j, b) :: insertCell i a rest

/-- List nothing at index `i`. -/
def eraseCell {α : Type} (i : Nat) : List (Nat × α) → List (Nat × α)
  | [] => []
  | (j, b) :: rest => if i = j then eraseCell i rest else (j, b) :: eraseCell i rest

/-- `xs` with indices from `k` on. -/
def indexedFrom {α : Type} (k : Nat) : List α → List (Nat × α)
  | [] => []
  | x :: xs => (k, x) :: indexedFrom (k + 1) xs

/-- The canonical form: indices strictly rising, and no entry equal to what an unlisted index holds. -/
abbrev Memory.wf {α : Type} [DecidableEq α] (m : Memory α) : Prop :=
  (m.cells.map Prod.fst).Pairwise (· < ·) ∧ ∀ c ∈ m.cells, m.fill ≠ some c.2

/-- Element `i`; none where it is unspecified. -/
def Memory.get? {α : Type} (m : Memory α) (i : Nat) : Option α :=
  match lookupCell i m.cells with
  | some a => some a
  | none => m.fill

/-- `B[i] <- a` (spec/00_scope.md R7). -/
def Memory.set {α : Type} [DecidableEq α] (m : Memory α) (i : Nat) (a : α) : Memory α :=
  { m with cells := if m.fill = some a then eraseCell i m.cells else insertCell i a m.cells }

/-- Write the whole sequence `xs` from index 0; the elements above it become unspecified (R26). -/
def Memory.rewrite {α : Type} (m : Memory α) (xs : List α) : Memory α :=
  { cells := indexedFrom 0 xs, fill := none, gen := m.gen + 1 }

/-- Every element becomes unspecified (R26, R146, R160). -/
def Memory.wipe {α : Type} (m : Memory α) : Memory α := Memory.unspecified (m.gen + 1)

/-- Every element becomes `a`. -/
def Memory.clearTo {α : Type} (m : Memory α) (a : α) : Memory α := Memory.constant a (m.gen + 1)

/-! ### Records -/

/-- `Leaf{kind=0, sym, left=0, right=0, weight}` (R21). -/
def NodeRec.leaf (sym weight : Nat) : NodeRec :=
  { kind := false, sym := sym, left := 0, right := 0, weight := weight }

/-- `Internal{kind=1, sym=0, left, right, weight}` (R21). -/
def NodeRec.internal (left right weight : Nat) : NodeRec :=
  { kind := true, sym := 0, left := left, right := right, weight := weight }

/-- The number whose bit `k` is element `k` of the bit sequence (R22). -/
def bitsNumber : List Bool → Nat
  | [] => 0
  | b :: rest => b.toNat + 2 * bitsNumber rest

/-- An absent entry as the block writes it (R22). -/
def CodeRec.absent : CodeRec := { len := 0, bits := 0 }

/-- `set_code` of spec/41_huffman_code_table_gen.md R90: bits at and above the length are 0. -/
def CodeRec.ofCode (c : List Bool) : CodeRec := { len := c.length, bits := bitsNumber c }

/-- The bit sequence `code(s)` of an entry (R22); bits at and above `len` are ignored. -/
def CodeRec.code (r : CodeRec) : List Bool := (List.range r.len).map r.bits.testBit

/-! ### Replacing an entity -/

/-- `FT` becomes `m`. -/
def writeFreqTable (m : Memory Nat) (s : State) : State := { s with ft := m }

/-- The arena `nodes`, its root the last node (R21). -/
def writeTree (nodes : List NodeRec) (s : State) : State :=
  { s with node := s.node.rewrite nodes
           nnodes := BitVec.ofNat 32 nodes.length
           root := BitVec.ofNat 32 (nodes.length - 1) }

/-- All `A` entries of `CT`: the listed codes, every other symbol absent (R90). -/
def writeCodeTable (codes : List (Nat × List Bool)) (s : State) : State :=
  { s with ct := codes.foldl (fun m c => m.set c.1 (CodeRec.ofCode c.2)) (s.ct.clearTo CodeRec.absent) }

/-- `BITS` and `REG.BIT_LEN`. -/
def writeBits (bs : List Bool) (s : State) : State :=
  { s with bits := s.bits.rewrite bs, bitLen := BitVec.ofNat 32 bs.length }

/-- `BYTES` and `REG.BYTE_LEN`. -/
def writeBytes (bs : List Byte) (s : State) : State :=
  { s with bytes := s.bytes.rewrite bs, byteLen := BitVec.ofNat 32 bs.length }

/-- `TAGS` and `REG.TAG_LEN`. -/
def writeTags (ts : List TagRec) (s : State) : State :=
  { s with tags := s.tags.rewrite ts, tagLen := BitVec.ofNat 32 ts.length }

/-- `SOUT` and `REG.SOUT_LEN`. -/
def writeSymbols (xs : List Nat) (s : State) : State :=
  { s with sout := s.sout.rewrite xs, soutLen := BitVec.ofNat 32 xs.length }

/-- Emptying an entity (R146): length 0, no tree, every count 0, every `len` 0; the contents become
unspecified. An entry of `CT` that is not specified has `len` 0 (`Operands.lean`). -/
def emptyEntity (s : State) (e : Entity) : State :=
  match e with
  | .freqTable => { s with ft := s.ft.clearTo 0 }
  | .tree => { s with node := s.node.wipe, nnodes := 0, root := 0 }
  | .codeTable => { s with ct := s.ct.wipe }
  | .bitSeq => { s with bits := s.bits.wipe, bitLen := 0 }
  | .byteSeq => { s with bytes := s.bytes.wipe, byteLen := 0 }
  | .tagSeq => { s with tags := s.tags.wipe, tagLen := 0 }
  | .symbolSeq => { s with sout := s.sout.wipe, soutLen := 0 }

/-- Emptying the destinations of a command (R146). -/
def emptyEntities (dests : List Entity) (s : State) : State := dests.foldl emptyEntity s

/-! ### The two events of a command -/

/-- The accepted write of `REG.CMD` (spec/30_encoding.md R60): `BUSY`, the opcode and the word are
latched, the error fields and `REG.ERRINFO` are cleared, nothing else changes (R52). A word that encodes no
command is accepted and completes in the one write (`startCommand`, R63). -/
def acceptCommand (v : Word) (s : State) : State :=
  { s with status := Status.accepted v, errInfo := 0, cmdLatch := v }

/-- Completion without error (R147). -/
def completeCommand (empty : Bool) (s : State) : State :=
  { s with status := s.status.completed empty, errInfo := 0, cmdLatch := 0 }

/-- TAKING AN EXCEPTION: the abort of a command by `raise e` (R146). `s` is the state at the
command's start: its destinations are emptied, the error is reported, nothing is saved and control
goes nowhere. -/
def raiseError (dests : List Entity) (e : CmdError) (s : State) : State :=
  { emptyEntities dests s with status := s.status.aborted e, errInfo := e.info, cmdLatch := 0 }

/-- What ends a command's body early: a `raise` (R7), or a stop of the model. -/
inductive Stop where
  | raised (e : CmdError)
  | fault (f : Fault)
deriving DecidableEq, Repr

/-- The result of a command's body: the state with its destinations written, or what ended it. -/
abbrev Body (α : Type) := Except Stop α

/-- `raise <Error>(stage, info)` (R7); `info` is zero-extended to 32 bits (R145). -/
def raise {α : Type} (kind : ErrorKind) (stage : BitVec 4) (info : Nat) : Body α :=
  .error (.raised { kind := kind, stage := stage, info := BitVec.ofNat 32 info })

/-- The completion event (R52) of a command with destinations `dests`, begun in `s`. -/
def finishCommand (dests : List Entity) (empty : Bool) (s : State) (body : Body State) :
    Host.Outcome State Fault Refusal :=
  match body with
  | .ok t => .next (completeCommand empty t)
  | .error (.raised e) => .next (raiseError dests e s)
  | .error (.fault f) => .fault f

end Sys2Proof.Machine
end

