-- ==== Sys2Proof/Machine/Operands.lean ====
section
/-! DEFINITION. The operands of the commands, all implicit (spec/30_encoding.md R61, R65): the record
layouts (R66 to R68), one element of each buffer, and the source entities as sequences
(spec/20_memory.md R47). An element that is unspecified reads as the free value its buffer holds. -/

namespace Sys2Proof.Machine

/-! ### Record layouts -/

/-- R66, least significant field first. -/
def packNode (p : Params) (r : NodeRec) : Nat :=
  r.kind.toNat + 2 * (r.sym + 2 ^ p.symW * (r.left + 2 ^ p.nidxW * (r.right + 2 ^ p.nidxW * r.weight)))

/-- R66 read back. -/
def unpackNode (p : Params) (v : Nat) : NodeRec :=
  { kind := v.testBit 0
    sym := v / 2 % 2 ^ p.symW
    left := v / 2 ^ (p.symW + 1) % 2 ^ p.nidxW
    right := v / 2 ^ (p.symW + p.nidxW + 1) % 2 ^ p.nidxW
    weight := v / 2 ^ (p.symW + 2 * p.nidxW + 1) % 2 ^ p.wtW }

/-- R67. -/
def packCode (p : Params) (r : CodeRec) : Nat := r.len + 2 ^ p.clenW * r.bits

/-- R67 read back. -/
def unpackCode (p : Params) (v : Nat) : CodeRec :=
  { len := v % 2 ^ p.clenW, bits := v / 2 ^ p.clenW % 2 ^ p.codeMax }

/-- R68. -/
def packTag (p : Params) (r : TagRec) : Nat :=
  r.dist + 2 ^ p.idxW * (r.len + 2 ^ p.idxW * (r.hasLit.toNat + 2 * r.lit))

/-- R68 read back. -/
def unpackTag (p : Params) (v : Nat) : TagRec :=
  { dist := v % 2 ^ p.idxW
    len := v / 2 ^ p.idxW % 2 ^ p.idxW
    hasLit := v.testBit (2 * p.idxW)
    lit := v / 2 ^ (2 * p.idxW + 1) % 2 ^ p.symW }

/-! ### One element -/

/-- The space id of R40. -/
def Space.id (b : Space) : Nat :=
  match b with
  | .sin => 1
  | .sout => 2
  | .ft => 3
  | .node => 4
  | .ct => 5
  | .bits => 6
  | .bytes => 7
  | .tags => 8
  | .absent k => 9 + k

/-- The free value that an unspecified element of a buffer holds (U2 to U4). -/
def Memory.freeAt {α : Type} (m : Memory α) (b : Space) (i : Nat) : Nat := Config.freeElem b.id m.gen i

/-- `SIN[i]`. -/
def State.sinAt (s : State) (i : Nat) : Nat :=
  (s.sin.get? i).getD (s.sin.freeAt .sin i % 2 ^ s.cfg.symW)

/-- `SOUT[i]`. -/
def State.soutAt (s : State) (i : Nat) : Nat :=
  (s.sout.get? i).getD (s.sout.freeAt .sout i % 2 ^ s.cfg.symW)

/-- `FT[a]`. -/
def State.countAt (s : State) (a : Nat) : Nat :=
  (s.ft.get? a).getD (s.ft.freeAt .ft a % 2 ^ s.cfg.cntW)

/-- `NODE[k]`. -/
def State.nodeAt (s : State) (k : Nat) : NodeRec :=
  (s.node.get? k).getD (unpackNode s.cfg (s.node.freeAt .node k))

/-- `CT[a]`. While nothing was written after reset or an abort, `len` is 0 and only `bits` are
unspecified (R37, R146). -/
def State.codeRecAt (s : State) (a : Nat) : CodeRec :=
  (s.ct.get? a).getD { len := 0, bits := s.ct.freeAt .ct a % 2 ^ s.cfg.codeMax }

/-- `BITS[i]`. -/
def State.bitAt (s : State) (i : Nat) : Bool := (s.bits.get? i).getD ((s.bits.freeAt .bits i).testBit 0)

/-- `BYTES[i]`. -/
def State.byteAt (s : State) (i : Nat) : Byte :=
  (s.bytes.get? i).getD (BitVec.ofNat 8 (s.bytes.freeAt .bytes i))

/-- `TAGS[j]`. -/
def State.tagAt (s : State) (j : Nat) : TagRec :=
  (s.tags.get? j).getD (unpackTag s.cfg (s.tags.freeAt .tags j))

/-! ### Source entities -/

/-- The symbol sequence `SIN[0 .. REG.SIN_LEN-1]` (R17). -/
def State.inputSymbols (s : State) : List Nat := (List.range s.sinLen.toNat).map s.sinAt

/-- The symbol sequence `SOUT[0 .. REG.SOUT_LEN-1]` (R18). -/
def State.outputSymbols (s : State) : List Nat := (List.range s.soutLen.toNat).map s.soutAt

/-- The bit sequence `BITS[0 .. REG.BIT_LEN-1]` (R23). -/
def State.bitSequence (s : State) : List Bool := (List.range s.bitLen.toNat).map s.bitAt

/-- The byte sequence `BYTES[0 .. REG.BYTE_LEN-1]` (R24). -/
def State.byteSequence (s : State) : List Byte := (List.range s.byteLen.toNat).map s.byteAt

/-- The tag sequence `TAGS[0 .. REG.TAG_LEN-1]` (R25). -/
def State.tagSequence (s : State) : List TagRec := (List.range s.tagLen.toNat).map s.tagAt

/-- The symbols with a count, in increasing order (R20, R83). -/
def State.presentSymbols (s : State) : List Nat :=
  (List.range s.cfg.alphabet).filter fun a => decide (0 < s.countAt a)

/-- `code(a)`, empty for an absent symbol (R22). -/
def State.codeOf (s : State) (a : Nat) : List Bool := (s.codeRecAt a).code

end Sys2Proof.Machine
end

