-- ==== Sys2Proof/Machine/CommandDecode.lean ====
section
/-! DEFINITION. Command decode: which words encode a command (spec/30_encoding.md R62), and those that
encode none (R63). Each of these is accepted and completes at once with `IllegalCommandError`; it has
no destinations, so no buffer and no register but `REG.STATUS` and `REG.ERRINFO` changes. -/

namespace Sys2Proof.Machine

/-- The ten commands with their opcodes (R62). -/
abbrev opcodeMap : List (Nat × Instr) :=
  [(0x1, .freq), (0x2, .build), (0x3, .codes), (0x4, .enc), (0x5, .henc), (0x6, .pack),
    (0x7, .unpack), (0x8, .hdec), (0x9, .lzc), (0xA, .lzd)]

/-- The instruction is one of the ten commands; the others are the rows of R63. -/
abbrev isCommand (i : Instr) : Bool := decide (i ∈ opcodeMap.map Prod.snd)

/-- `raise IllegalCommandError(stage 0, info v)`, with no destination to empty (R63). -/
def reportIllegal (v : Word) (s : State) : State :=
  raiseError [] { kind := .illegalCommand, stage := 0, info := v } s

/-- The meaning of the word `v` that encodes no command (R63). -/
def illegalCommand (v : Word) (s : State) : Host.Outcome State Fault Refusal := .next (reportIllegal v s)

/-- The accepted write of `REG.CMD` (R60): a command is started, and its completion is a later event
(spec/20_memory.md R52); a word that encodes none is accepted and "completes at once" (R63), so that no
host access finds the block busy with it (log 10, DEDUCED). -/
def startCommand (v : Word) (s : State) : State :=
  if isCommand (decode v) then acceptCommand v s else reportIllegal v (acceptCommand v s)

/-- R63. -/
def execIllegal0 (s : State) : Host.Outcome State Fault Refusal :=
  illegalCommand (encode .illegal0) s

/-- R63. -/
def execIllegalB (s : State) : Host.Outcome State Fault Refusal :=
  illegalCommand (encode .illegalB) s

/-- R63. -/
def execIllegalC (s : State) : Host.Outcome State Fault Refusal :=
  illegalCommand (encode .illegalC) s

/-- R63. -/
def execIllegalD (s : State) : Host.Outcome State Fault Refusal :=
  illegalCommand (encode .illegalD) s

/-- R63. -/
def execIllegalE (s : State) : Host.Outcome State Fault Refusal :=
  illegalCommand (encode .illegalE) s

/-- R63. -/
def execIllegalF (s : State) : Host.Outcome State Fault Refusal :=
  illegalCommand (encode .illegalF) s

/-- R63. -/
def execIllegalHi31 (low : Nat) (s : State) : Host.Outcome State Fault Refusal :=
  illegalCommand (encode (.illegalHi31 low)) s

/-- R63. -/
def execIllegalHi30 (low : Nat) (s : State) : Host.Outcome State Fault Refusal :=
  illegalCommand (encode (.illegalHi30 low)) s

/-- R63. -/
def execIllegalHi29 (low : Nat) (s : State) : Host.Outcome State Fault Refusal :=
  illegalCommand (encode (.illegalHi29 low)) s

/-- R63. -/
def execIllegalHi28 (low : Nat) (s : State) : Host.Outcome State Fault Refusal :=
  illegalCommand (encode (.illegalHi28 low)) s

/-- R63. -/
def execIllegalHi27 (low : Nat) (s : State) : Host.Outcome State Fault Refusal :=
  illegalCommand (encode (.illegalHi27 low)) s

/-- R63. -/
def execIllegalHi26 (low : Nat) (s : State) : Host.Outcome State Fault Refusal :=
  illegalCommand (encode (.illegalHi26 low)) s

/-- R63. -/
def execIllegalHi25 (low : Nat) (s : State) : Host.Outcome State Fault Refusal :=
  illegalCommand (encode (.illegalHi25 low)) s

/-- R63. -/
def execIllegalHi24 (low : Nat) (s : State) : Host.Outcome State Fault Refusal :=
  illegalCommand (encode (.illegalHi24 low)) s

/-- R63. -/
def execIllegalHi23 (low : Nat) (s : State) : Host.Outcome State Fault Refusal :=
  illegalCommand (encode (.illegalHi23 low)) s

/-- R63. -/
def execIllegalHi22 (low : Nat) (s : State) : Host.Outcome State Fault Refusal :=
  illegalCommand (encode (.illegalHi22 low)) s

/-- R63. -/
def execIllegalHi21 (low : Nat) (s : State) : Host.Outcome State Fault Refusal :=
  illegalCommand (encode (.illegalHi21 low)) s

/-- R63. -/
def execIllegalHi20 (low : Nat) (s : State) : Host.Outcome State Fault Refusal :=
  illegalCommand (encode (.illegalHi20 low)) s

/-- R63. -/
def execIllegalHi19 (low : Nat) (s : State) : Host.Outcome State Fault Refusal :=
  illegalCommand (encode (.illegalHi19 low)) s

/-- R63. -/
def execIllegalHi18 (low : Nat) (s : State) : Host.Outcome State Fault Refusal :=
  illegalCommand (encode (.illegalHi18 low)) s

/-- R63. -/
def execIllegalHi17 (low : Nat) (s : State) : Host.Outcome State Fault Refusal :=
  illegalCommand (encode (.illegalHi17 low)) s

/-- R63. -/
def execIllegalHi16 (low : Nat) (s : State) : Host.Outcome State Fault Refusal :=
  illegalCommand (encode (.illegalHi16 low)) s

/-- R63. -/
def execIllegalHi15 (low : Nat) (s : State) : Host.Outcome State Fault Refusal :=
  illegalCommand (encode (.illegalHi15 low)) s

/-- R63. -/
def execIllegalHi14 (low : Nat) (s : State) : Host.Outcome State Fault Refusal :=
  illegalCommand (encode (.illegalHi14 low)) s

/-- R63. -/
def execIllegalHi13 (low : Nat) (s : State) : Host.Outcome State Fault Refusal :=
  illegalCommand (encode (.illegalHi13 low)) s

/-- R63. -/
def execIllegalHi12 (low : Nat) (s : State) : Host.Outcome State Fault Refusal :=
  illegalCommand (encode (.illegalHi12 low)) s

/-- R63. -/
def execIllegalHi11 (low : Nat) (s : State) : Host.Outcome State Fault Refusal :=
  illegalCommand (encode (.illegalHi11 low)) s

/-- R63. -/
def execIllegalHi10 (low : Nat) (s : State) : Host.Outcome State Fault Refusal :=
  illegalCommand (encode (.illegalHi10 low)) s

/-- R63. -/
def execIllegalHi9 (low : Nat) (s : State) : Host.Outcome State Fault Refusal :=
  illegalCommand (encode (.illegalHi9 low)) s

/-- R63. -/
def execIllegalHi8 (low : Nat) (s : State) : Host.Outcome State Fault Refusal :=
  illegalCommand (encode (.illegalHi8 low)) s

/-- R63. -/
def execIllegalHi7 (low : Nat) (s : State) : Host.Outcome State Fault Refusal :=
  illegalCommand (encode (.illegalHi7 low)) s

/-- R63. -/
def execIllegalHi6 (low : Nat) (s : State) : Host.Outcome State Fault Refusal :=
  illegalCommand (encode (.illegalHi6 low)) s

/-- R63. -/
def execIllegalHi5 (low : Nat) (s : State) : Host.Outcome State Fault Refusal :=
  illegalCommand (encode (.illegalHi5 low)) s

/-- R63. -/
def execIllegalHi4 (low : Nat) (s : State) : Host.Outcome State Fault Refusal :=
  illegalCommand (encode (.illegalHi4 low)) s

end Sys2Proof.Machine
end

