-- ==== Sys2Proof/Machine/HuffmanBitstreamDecoder.lean ====
section
/-! DEFINITION. Unit huffman_bitstream_decoder: UNPACK and HDEC
(spec/43_huffman_bitstream_decoder.md). -/

namespace Sys2Proof.Machine

/-! ### UNPACK (R105) -/

/-- The first `m` payload bits, most significant bit of each byte first (R41); `byte 0` is the header. -/
def unpackBits (byte : Nat → Byte) (m : Nat) : List Bool :=
  (List.range m).map fun i => (byte (1 + i / 8)).getLsbD (7 - i % 8)

/-- The body of UNPACK: its checks in the order of R105. -/
def unpackBody (s : State) : Body State :=
  if s.cfg.byMax < s.byteLen.toNat then raise .badParam 7 7
  else if s.byteLen.toNat = 0 then raise .badFrame 7 0
  else if 7 < (s.byteAt 0).toNat then raise .badFrame 7 1
  else if 8 * (s.byteLen.toNat - 1) < (s.byteAt 0).toNat then raise .badFrame 7 2
  else .ok (writeBits (unpackBits s.byteAt (8 * (s.byteLen.toNat - 1) - (s.byteAt 0).toNat)) s)

/-- UNPACK (R105); `EMPTY` is never set (R15). -/
def execUnpack (s : State) : Host.Outcome State Fault Refusal :=
  finishCommand [.bitSeq] false s (unpackBody s)

/-! ### HDEC (R108) -/

/-- The smallest symbol below `count` whose entry is exactly `acc` (R108, R111). -/
def matchingSymbol (ct : Nat → CodeRec) (count : Nat) (acc : List Bool) : Option Nat :=
  (List.range count).find? fun a => decide ((ct a).len = acc.length) && decide ((ct a).code = acc)

/-- Some entry has `acc` as a proper prefix (R109). -/
def canBeCompleted (ct : Nat → CodeRec) (count : Nat) (acc : List Bool) : Bool :=
  (List.range count).any fun a =>
    decide (acc.length < (ct a).len) && decide ((ct a).code.take acc.length = acc)

/-- The scan of HDEC: `i` is the index of the next bit, `start` that of the first bit of the
accumulator `acc`, `out` the symbols emitted so far. -/
def hdecScan (ct : Nat → CodeRec) (count cap : Nat) :
    Nat → Nat → List Bool → List Nat → List Bool → Body (List Nat)
  | _, start, acc, out, [] =>
    if acc = [] then .ok out
    else if canBeCompleted ct count acc then raise .corruptStream 5 start
    else raise .alphabetMismatch 5 start
  | i, start, acc, out, b :: rest =>
    match matchingSymbol ct count (acc ++ [b]) with
    | none => hdecScan ct count cap (i + 1) (if acc = [] then i else start) (acc ++ [b]) out rest
    | some a =>
      if out.length = cap then raise .capacity 5 (if acc = [] then i else start)
      else hdecScan ct count cap (i + 1) (if acc = [] then i else start) [] (out ++ [a]) rest

/-- The body of HDEC. -/
def hdecBody (s : State) : Body State :=
  if s.cfg.bMax < s.bitLen.toNat then raise .badParam 5 6
  else
    match hdecScan s.codeRecAt s.cfg.alphabet s.cfg.nMax 0 0 [] [] s.bitSequence with
    | .ok out => .ok (writeSymbols out s)
    | .error e => .error e

/-- HDEC (R108). -/
def execHdec (s : State) : Host.Outcome State Fault Refusal :=
  finishCommand [.symbolSeq] (emptyFlag s.bitLen) s (hdecBody s)

end Sys2Proof.Machine
end

