-- ==== Sys2Proof/Machine/HuffmanCodeTableGen.lean ====
section
/-! DEFINITION. Unit huffman_code_table_gen: CODES (spec/41_huffman_code_table_gen.md). -/

namespace Sys2Proof.Machine

/-- `walk(k, path)` of R90: every leaf below node `k` with the edge labels from the root to it.
`fuel` bounds the depth; none says that the walk left the arena of `count` nodes or did not end. -/
def walkTree (node : Nat → NodeRec) (count : Nat) : Nat → Nat → List Bool → Option (List (Nat × List Bool))
  | 0, _, _ => none
  | fuel + 1, k, path =>
    if count ≤ k then none
    else if (node k).kind then
      match walkTree node count fuel (node k).left (path ++ [false]),
          walkTree node count fuel (node k).right (path ++ [true]) with
      | some l, some r => some (l ++ r)
      | _, _ => none
    else some [((node k).sym, path)]

/-- The codes of the tree with root `root`: "0" where the root is a leaf (R91), else the paths. -/
def treeCodes (node : Nat → NodeRec) (count root : Nat) : Option (List (Nat × List Bool)) :=
  if count ≤ root then none
  else if (node root).kind then walkTree node count count root []
  else some [((node root).sym, [false])]

/-- The body of CODES (R90, R92). -/
def codesBody (s : State) : Body State :=
  if s.nnodes = 0 then raise .emptyInput 3 0
  else
    match treeCodes s.nodeAt s.nnodes.toNat s.root.toNat with
    | some codes => .ok (writeCodeTable codes s)
    | none => .error (.fault .arenaNotATree)

/-- CODES (R90). -/
def execCodes (s : State) : Host.Outcome State Fault Refusal :=
  finishCommand [.codeTable] false s (codesBody s)

end Sys2Proof.Machine
end

