-- ==== Sys2Proof/Machine/HuffmanTreeBuilder.lean ====
section
/-! DEFINITION. Unit huffman_tree_builder: FREQ and BUILD (spec/40_huffman_tree_builder.md). -/

namespace Sys2Proof.Machine

/-! ### FREQ (R80) -/

/-- The counting pass: from every count 0, one increment for each symbol in turn. -/
def countInto (m : Memory Nat) (symbols : List Nat) : Memory Nat :=
  symbols.foldl (fun ft a => ft.set a ((ft.get? a).getD 0 + 1)) m

/-- The body of FREQ. -/
def freqBody (s : State) : Body State :=
  if s.cfg.nMax < s.sinLen.toNat then raise .badParam 1 4
  else .ok (writeFreqTable (countInto (s.ft.clearTo 0) s.inputSymbols) s)

/-- FREQ (R80). -/
def execFreq (s : State) : Host.Outcome State Fault Refusal :=
  finishCommand [.freqTable] (emptyFlag s.sinLen) s (freqBody s)

/-! ### BUILD (R82 to R87) -/

/-- The order of the two removals: by weight, then by creation index (R84). A tree of the collection
is the pair of its root's weight and creation index. -/
abbrev comesFirst (a b : Nat × Nat) : Prop := a.1 < b.1 ∨ (a.1 = b.1 ∧ a.2 ≤ b.2)

/-- Remove the first tree of the collection in the order of R84. -/
def popFirst : List (Nat × Nat) → Option ((Nat × Nat) × List (Nat × Nat))
  | [] => none
  | x :: xs =>
    match popFirst xs with
    | none => some (x, [])
    | some (y, ys) =>
      if comesFirst x y then some (x, y :: ys) else some (y, x :: ys)

/-- The merge loop (R82, R84): while two trees remain, the first removed becomes `left`, the second
`right`, and the new node goes to the end of the arena and into the collection. -/
def mergeLoop : Nat → List NodeRec → List (Nat × Nat) → List NodeRec
  | 0, arena, _ => arena
  | fuel + 1, arena, live =>
    match popFirst live with
    | none => arena
    | some (a, rest) =>
      match popFirst rest with
      | none => arena
      | some (b, rest') =>
        mergeLoop fuel (arena ++ [NodeRec.internal a.2 b.2 (a.1 + b.1)])
          ((a.1 + b.1, arena.length) :: rest')

/-- One Leaf for each present symbol, in increasing order (R83). -/
def leafNodes (s : State) : List NodeRec :=
  s.presentSymbols.map fun a => NodeRec.leaf a (s.countAt a)

/-- The collection of one-leaf trees at the start (R82). -/
def initialTrees (leaves : List NodeRec) : List (Nat × Nat) :=
  (indexedFrom 0 leaves).map fun c => (c.2.weight, c.1)

/-- The arena that BUILD makes of the leaves: `leaves.length - 1` merges (R84). -/
def buildArena (leaves : List NodeRec) : List NodeRec :=
  mergeLoop (leaves.length - 1) leaves (initialTrees leaves)

/-- The body of BUILD. -/
def buildBody (s : State) : Body State :=
  match leafNodes s with
  | [] => raise .emptyInput 2 0
  | l :: ls => .ok (writeTree (buildArena (l :: ls)) s)

/-- BUILD (R82). -/
def execBuild (s : State) : Host.Outcome State Fault Refusal :=
  finishCommand [.tree] false s (buildBody s)

end Sys2Proof.Machine
end

