-- ==== Sys2Proof/Machine/HuffmanBitstreamEncoder.lean ====
section
/-! DEFINITION. Unit huffman_bitstream_encoder: ENC, HENC and PACK
(spec/42_huffman_bitstream_encoder.md). -/

namespace Sys2Proof.Machine

/-! ### ENC (R95) -/

/-- The scan of ENC: `j` is the index of the next symbol, `m` the number of bits written so far,
`ct` the table, `cap` the capacity of `BITS`. At one symbol the mismatch comes before the capacity
(R148). -/
def encScan (ct : Nat → CodeRec) (cap : Nat) : Nat → Nat → List Nat → Body (List Bool)
  | _, _, [] => .ok []
  | j, m, a :: rest =>
    if (ct a).len = 0 then raise .alphabetMismatch 4 j
    else if cap < m + (ct a).len then raise .capacity 4 j
    else
      match encScan ct cap (j + 1) (m + (ct a).len) rest with
      | .ok bs => .ok ((ct a).code ++ bs)
      | .error e => .error e

/-- The body of ENC. -/
def encBody (s : State) : Body State :=
  if s.cfg.nMax < s.sinLen.toNat then raise .badParam 4 4
  else
    match encScan s.codeRecAt s.cfg.bMax 0 0 s.inputSymbols with
    | .ok bs => .ok (writeBits bs s)
    | .error e => .error e

/-- ENC (R95). -/
def execEnc (s : State) : Host.Outcome State Fault Refusal :=
  finishCommand [.bitSeq] (emptyFlag s.sinLen) s (encBody s)

/-! ### HENC (R98) -/

/-- The branch of HENC on an empty table: no tree, the empty CodeTable, the empty bit sequence. -/
def nothingToEncode (s : State) : State :=
  emptyEntity (writeCodeTable [] (emptyEntity s .tree)) .bitSeq

/-- The body of HENC: the bodies of FREQ, BUILD, CODES and ENC in turn. -/
def hencBody (s : State) : Body State :=
  match freqBody s with
  | .error e => .error e
  | .ok s1 =>
    if s1.presentSymbols = [] then .ok (nothingToEncode s1)
    else
      match buildBody s1 with
      | .error e => .error e
      | .ok s2 =>
        match codesBody s2 with
        | .error e => .error e
        | .ok s3 => encBody s3

/-- HENC (R98). -/
def execHenc (s : State) : Host.Outcome State Fault Refusal :=
  finishCommand [.freqTable, .tree, .codeTable, .bitSeq] (emptyFlag s.sinLen) s (hencBody s)

/-! ### PACK (R100) -/

/-- The byte whose most significant bit is `f 0` and whose least significant bit is `f 7` (R41). -/
def byteOf (f : Nat → Bool) : Byte :=
  BitVec.ofBool (f 0) ++ BitVec.ofBool (f 1) ++ BitVec.ofBool (f 2) ++ BitVec.ofBool (f 3) ++
    BitVec.ofBool (f 4) ++ BitVec.ofBool (f 5) ++ BitVec.ofBool (f 6) ++ BitVec.ofBool (f 7)

/-- The padding count of `m` bits (R100). -/
def paddingCount (m : Nat) : Nat := (8 - m % 8) % 8

/-- Header and payload of the bit sequence `bit 0 .. bit (m-1)`; filler bits are 0 (R100). -/
def packBits (bit : Nat → Bool) (m : Nat) : List Byte :=
  BitVec.ofNat 8 (paddingCount m) ::
    (List.range ((m + paddingCount m) / 8)).map fun j =>
      byteOf fun t => decide (8 * j + t < m) && bit (8 * j + t)

/-- The body of PACK. -/
def packBody (s : State) : Body State :=
  if s.cfg.bMax < s.bitLen.toNat then raise .badParam 6 6
  else .ok (writeBytes (packBits s.bitAt s.bitLen.toNat) s)

/-- PACK (R100). -/
def execPack (s : State) : Host.Outcome State Fault Refusal :=
  finishCommand [.byteSeq] (emptyFlag s.bitLen) s (packBody s)

end Sys2Proof.Machine
end

