-- ==== Sys2Proof/Machine/Lz77Matcher.lean ====
section
/-! DEFINITION. Unit lz77_matcher: LZC (spec/44_lz77_matcher.md). -/

namespace Sys2Proof.Machine

/-- The inner loop of R115: extend a match of `L` symbols of candidate `c` at position `i`, the
candidate substring read modulo its length `i - c` (R117). `fuel` is the loop's variant. -/
def extendMatch (S : List Nat) (i c : Nat) : Nat → Nat → Nat
  | 0, L => L
  | fuel + 1, L =>
    if i + L < S.length ∧ S[i + L]? = S[c + L % (i - c)]? then extendMatch S i c fuel (L + 1) else L

/-- `L(c)`, the match length of candidate `c` at position `i` (R117). -/
def matchLength (S : List Nat) (i c : Nat) : Nat := extendMatch S i c (S.length - i) 0

/-- Keep the better of the best (length, distance) so far and a candidate (R118). -/
def betterMatch (best cand : Nat × Nat) : Nat × Nat :=
  if best.1 < cand.1 ∨ (cand.1 = best.1 ∧ 0 < cand.1 ∧ cand.2 < best.2) then cand else best

/-- `bestL` and `bestD` at position `i` for window `W`: every candidate start of the search region
`max(0, i-W) .. i-1`, far to near (R116, R118). -/
def bestMatch (S : List Nat) (W i : Nat) : Nat × Nat :=
  (List.range' (i - W) (i - (i - W))).foldl (fun best c => betterMatch best (matchLength S i c, i - c)) (0, 0)

/-- The tag of a match at position `i`: no literal where the match reaches the end (R119). -/
def tagOfMatch (S : List Nat) (i : Nat) (best : Nat × Nat) : TagRec :=
  match S[i + best.1]? with
  | some a => { dist := best.2, len := best.1, hasLit := true, lit := a }
  | none => { dist := best.2, len := best.1, hasLit := false, lit := 0 }

/-- The outer loop of R115 from position `i`. -/
def lzcLoop (S : List Nat) (W : Nat) : Nat → Nat → List TagRec
  | 0, _ => []
  | fuel + 1, i =>
    if i < S.length then
      tagOfMatch S i (bestMatch S W i) :: lzcLoop S W fuel (i + (bestMatch S W i).1 + 1)
    else []

/-- The tag sequence of the symbols `S` for window `W`; each tag consumes at least one symbol. -/
def lzcTags (S : List Nat) (W : Nat) : List TagRec := lzcLoop S W S.length 0

/-- The body of LZC. -/
def lzcBody (s : State) : Body State :=
  if s.cfg.nMax < s.sinLen.toNat then raise .badParam 8 4
  else if s.win = 0 then raise .badParam 8 3
  else .ok (writeTags (lzcTags s.inputSymbols s.win.toNat) s)

/-- LZC (R115). -/
def execLzc (s : State) : Host.Outcome State Fault Refusal :=
  finishCommand [.tagSeq] (emptyFlag s.sinLen) s (lzcBody s)

end Sys2Proof.Machine
end

