-- ==== Sys2Proof/Machine/Lz77Replayer.lean ====
section
/-! DEFINITION. Unit lz77_replayer: LZD (spec/45_lz77_replayer.md). -/

namespace Sys2Proof.Machine

/-- Append, `l` times over, the symbol `d` positions behind the moving end of the output (R127). -/
def copyBehind (d : Nat) : Nat → List Nat → List Nat
  | 0, out => out
  | l + 1, out => copyBehind d l (out ++ (out[out.length - d]?).toList)

/-- The literal of a tag, if present (R126). -/
def TagRec.literal (t : TagRec) : List Nat := if t.hasLit then [t.lit] else []

/-- The scan of LZD: `j` is the index of the next tag, `out` the output so far, `cap` the capacity of
`SOUT`. At one tag the malformed cases come before the capacity (R148). -/
def lzdScan (cap : Nat) : Nat → List Nat → List TagRec → Body (List Nat)
  | _, out, [] => .ok out
  | j, out, t :: rest =>
    if out.length < t.dist then raise .malformedTag 9 j
    else if t.dist = 0 ∧ 0 < t.len then raise .malformedTag 9 j
    else if cap < out.length + t.len + t.literal.length then raise .capacity 9 j
    else lzdScan cap (j + 1) (copyBehind t.dist t.len out ++ t.literal) rest

/-- The body of LZD. -/
def lzdBody (s : State) : Body State :=
  if s.cfg.tMax < s.tagLen.toNat then raise .badParam 9 8
  else
    match lzdScan s.cfg.nMax 0 [] s.tagSequence with
    | .ok out => .ok (writeSymbols out s)
    | .error e => .error e

/-- LZD (R125). -/
def execLzd (s : State) : Host.Outcome State Fault Refusal :=
  finishCommand [.symbolSeq] (emptyFlag s.tagLen) s (lzdBody s)

end Sys2Proof.Machine
end

