-- ==== Sys2Proof/Machine/Dispatch.lean ====
section
/-! DEFINITION. The dispatch of a command word to its meaning (spec/30_encoding.md R62, R63). -/

namespace Sys2Proof.Machine

def exec (i : Instr) (s : State) : Host.Outcome State Fault Refusal :=
  match i with
  | .freq => Sys2Proof.Machine.execFreq s
  | .build => Sys2Proof.Machine.execBuild s
  | .codes => Sys2Proof.Machine.execCodes s
  | .enc => Sys2Proof.Machine.execEnc s
  | .henc => Sys2Proof.Machine.execHenc s
  | .pack => Sys2Proof.Machine.execPack s
  | .unpack => Sys2Proof.Machine.execUnpack s
  | .hdec => Sys2Proof.Machine.execHdec s
  | .lzc => Sys2Proof.Machine.execLzc s
  | .lzd => Sys2Proof.Machine.execLzd s
  | .illegal0 => Sys2Proof.Machine.execIllegal0 s
  | .illegalB => Sys2Proof.Machine.execIllegalB s
  | .illegalC => Sys2Proof.Machine.execIllegalC s
  | .illegalD => Sys2Proof.Machine.execIllegalD s
  | .illegalE => Sys2Proof.Machine.execIllegalE s
  | .illegalF => Sys2Proof.Machine.execIllegalF s
  | .illegalHi31 low => Sys2Proof.Machine.execIllegalHi31 low s
  | .illegalHi30 low => Sys2Proof.Machine.execIllegalHi30 low s
  | .illegalHi29 low => Sys2Proof.Machine.execIllegalHi29 low s
  | .illegalHi28 low => Sys2Proof.Machine.execIllegalHi28 low s
  | .illegalHi27 low => Sys2Proof.Machine.execIllegalHi27 low s
  | .illegalHi26 low => Sys2Proof.Machine.execIllegalHi26 low s
  | .illegalHi25 low => Sys2Proof.Machine.execIllegalHi25 low s
  | .illegalHi24 low => Sys2Proof.Machine.execIllegalHi24 low s
  | .illegalHi23 low => Sys2Proof.Machine.execIllegalHi23 low s
  | .illegalHi22 low => Sys2Proof.Machine.execIllegalHi22 low s
  | .illegalHi21 low => Sys2Proof.Machine.execIllegalHi21 low s
  | .illegalHi20 low => Sys2Proof.Machine.execIllegalHi20 low s
  | .illegalHi19 low => Sys2Proof.Machine.execIllegalHi19 low s
  | .illegalHi18 low => Sys2Proof.Machine.execIllegalHi18 low s
  | .illegalHi17 low => Sys2Proof.Machine.execIllegalHi17 low s
  | .illegalHi16 low => Sys2Proof.Machine.execIllegalHi16 low s
  | .illegalHi15 low => Sys2Proof.Machine.execIllegalHi15 low s
  | .illegalHi14 low => Sys2Proof.Machine.execIllegalHi14 low s
  | .illegalHi13 low => Sys2Proof.Machine.execIllegalHi13 low s
  | .illegalHi12 low => Sys2Proof.Machine.execIllegalHi12 low s
  | .illegalHi11 low => Sys2Proof.Machine.execIllegalHi11 low s
  | .illegalHi10 low => Sys2Proof.Machine.execIllegalHi10 low s
  | .illegalHi9 low => Sys2Proof.Machine.execIllegalHi9 low s
  | .illegalHi8 low => Sys2Proof.Machine.execIllegalHi8 low s
  | .illegalHi7 low => Sys2Proof.Machine.execIllegalHi7 low s
  | .illegalHi6 low => Sys2Proof.Machine.execIllegalHi6 low s
  | .illegalHi5 low => Sys2Proof.Machine.execIllegalHi5 low s
  | .illegalHi4 low => Sys2Proof.Machine.execIllegalHi4 low s

end Sys2Proof.Machine
end

