-- ==== Sys2Proof/Machine/HostPort.lean ====
section
/-! DEFINITION. The host port: the four host operations of spec/20_memory.md R44 with the access
rights of R49, the accesses that name nothing (R45) and the busy rule (R46); and the reset event
(spec/70_reset_and_hazards.md R160). -/

namespace Sys2Proof.Machine

/-! ### Registers -/

/-- The value of register number `n`, where it is specified (spec/10_state.md R14). `REG.CMD` reads 0
at any time (R45, U1, G6; log 8, DEDUCED). While the block is busy only it, `REG.STATUS` and `REG.ERRINFO` are
specified (R46). -/
def readRegister? (n : Nat) (s : State) : Option Word :=
  match n with
  | 0 => some 0
  | 1 => some s.status.word
  | 2 => some s.errInfo
  | _ =>
    if s.status.busy then none
    else
      match n with
      | 3 => some s.win
      | 4 => some s.sinLen
      | 5 => some s.soutLen
      | 6 => some s.bitLen
      | 7 => some s.byteLen
      | 8 => some s.tagLen
      | 9 => some s.nnodes
      | 10 => some s.root
      | _ => none

/-- `RegRead(n)` (R44): an unspecified value is free (U1, U5). -/
def hostRegRead (n : Nat) (s : State) : State :=
  match readRegister? n s with
  | some v => { s with lastRead := .reg v }
  | none => { s with lastRead := .reg (BitVec.ofNat 32 (Config.freeRead s.readCount))
                     readCount := s.readCount + 1 }

/-- `RegWrite(n, v)` while idle (R44, R49): a write of `REG.CMD` starts a command (R60, R63), a write
of a read-only register or of a number above 10 is ignored (R45). -/
def writeRegister (n : Nat) (v : Word) (s : State) : State :=
  match n with
  | 0 => startCommand v s
  | 3 => { s with win := v }
  | 4 => { s with sinLen := v }
  | 6 => { s with bitLen := v }
  | 7 => { s with byteLen := v }
  | 8 => { s with tagLen := v }
  | _ => s

/-- `RegWrite(n, v)`: ignored while busy (R46). -/
def hostRegWrite (n : Nat) (v : Word) (s : State) : State :=
  if s.status.busy then s else writeRegister n v s

/-! ### Buffers -/

/-- The capacity of a space in elements (R40). -/
def Space.capacity (p : Params) (b : Space) : Nat :=
  match b with
  | .sin => p.nMax
  | .sout => p.nMax
  | .ft => p.alphabet
  | .node => p.nodeMax
  | .ct => p.alphabet
  | .bits => p.bMax
  | .bytes => p.byMax
  | .tags => p.tMax
  | .absent _ => 0

/-- The width of an element of a space in bits (R40). A space that does not exist has no width; its
reads return a free value of the 32 bits of a register (log 4, DESIGN CHOICE). -/
def Space.width (p : Params) (b : Space) : Nat :=
  match b with
  | .sin => p.symW
  | .sout => p.symW
  | .ft => p.cntW
  | .node => 1 + p.symW + 2 * p.nidxW + p.wtW
  | .ct => p.clenW + p.codeMax
  | .bits => 1
  | .bytes => 8
  | .tags => 2 * p.idxW + 1 + p.symW
  | .absent _ => 32

/-- The value of element `i` of a buffer, as the number of its record layout (R66 to R68). -/
def elementValue (b : Space) (i : Nat) (s : State) : Nat :=
  match b with
  | .sin => s.sinAt i
  | .sout => s.soutAt i
  | .ft => s.countAt i
  | .node => packNode s.cfg (s.nodeAt i)
  | .ct => packCode s.cfg (s.codeRecAt i)
  | .bits => (s.bitAt i).toNat
  | .bytes => (s.byteAt i).toNat
  | .tags => packTag s.cfg (s.tagAt i)
  | .absent _ => 0

/-- `BufRead(B, i)` (R44): while busy (R46) and at an index that does not exist (R45) the value is
free. -/
def hostBufRead (b : Space) (i : Nat) (s : State) : State :=
  if s.status.busy = false ∧ i < b.capacity s.cfg then { s with lastRead := .elem (elementValue b i s) }
  else { s with lastRead := .elem (Config.freeRead s.readCount % 2 ^ b.width s.cfg)
                readCount := s.readCount + 1 }

/-- `B[i] <- v` for an element that exists (R49): `v` is taken to have the element's width (R45),
`SOUT` and `NODE` are read-only. An element written at or above the entity's length, and the bits of an
entry of `CT` at or above its `len`, keep the value until the host or a command with that destination
writes the buffer: of what U2 allows, a command uses nothing else as scratch (log 11, DESIGN CHOICE). -/
def writeElement (b : Space) (i v : Nat) (s : State) : State :=
  match b with
  | .sin => { s with sin := s.sin.set i (v % 2 ^ s.cfg.symW) }
  | .sout => s
  | .ft => { s with ft := s.ft.set i (v % 2 ^ s.cfg.cntW) }
  | .node => s
  | .ct => { s with ct := s.ct.set i (unpackCode s.cfg v) }
  | .bits => { s with bits := s.bits.set i (v.testBit 0) }
  | .bytes => { s with bytes := s.bytes.set i (BitVec.ofNat 8 v) }
  | .tags => { s with tags := s.tags.set i (unpackTag s.cfg v) }
  | .absent _ => s

/-- `BufWrite(B, i, v)` (R44): ignored while busy (R46) and at an index that does not exist (R45). -/
def hostBufWrite (b : Space) (i v : Nat) (s : State) : State :=
  if s.status.busy = false ∧ i < b.capacity s.cfg then writeElement b i v s else s

/-! ### Reset -/

/-- The `Reset` event (R160): the state of R37, in any state, a running command abandoned. The
parameters, the events to come and the counters of the free values are no state of the block. -/
def resetBlock (s : State) : State :=
  { State.reset with
    cfg := s.cfg
    sin := s.sin.wipe
    sout := s.sout.wipe
    ft := s.ft.clearTo 0
    node := s.node.wipe
    ct := s.ct.wipe
    bits := s.bits.wipe
    bytes := s.bytes.wipe
    tags := s.tags.wipe
    inputs := s.inputs
    lastRead := s.lastRead
    readCount := s.readCount }

/-- What one event does that is not the completion of a running command. -/
def hostEvent (e : Event) (s : State) : State :=
  match e with
  | .regRead n => hostRegRead n s
  | .regWrite n v => hostRegWrite n v s
  | .bufRead b i => hostBufRead b i s
  | .bufWrite b i v => hostBufWrite b i v s
  | .reset => resetBlock s
  | .complete => s

end Sys2Proof.Machine
end

