-- ==== Sys2Proof/Machine/Sequence.lean ====
section
/-! DEFINITION. What happens next (spec/20_memory.md R52, spec/70_reset_and_hazards.md R171): the
oldest event still to come; while a command runs, the event `complete`, or the end of the list, is
the completion of that command. -/

namespace Sys2Proof.Machine

/-- The command the block is running (R53). -/
def currentInstr (s : State) : Instr := decode s.cmdLatch

/-- The completion event of the running command (R52); nothing happens where none runs. -/
def runCommand (s : State) : Host.Outcome State Fault Refusal :=
  if s.status.busy then exec (currentInstr s) s else .next s

/-- One event. -/
def advance (s : State) : Host.Outcome State Fault Refusal :=
  match s.inputs with
  | [] => runCommand s
  | .complete :: rest => runCommand { s with inputs := rest }
  | e :: rest => .next (hostEvent e { s with inputs := rest })

/-- The block with the command word `v` accepted, its completion the next event (log 7, DESIGN CHOICE). -/
def loadCommand (v : Word) (s : State) : State :=
  { acceptCommand v s with inputs := .complete :: s.inputs }

end Sys2Proof.Machine
end

