-- ==== Sys2Proof/Machine/Step.lean ====
section
/-! DEFINITION. One step of the machine, and the placing of a command word where the next step takes
it from. -/

namespace Sys2Proof.Machine

/-- One event at the host port, or the completion of the running command
(spec/20_memory.md R52). -/
def step (s : State) : Host.Outcome State Fault Refusal := advance s

/-- `s` with the command word `w` accepted (spec/30_encoding.md R60), so that the next step is its
completion. A command has one 32-bit word (R61). -/
def State.withFetchWord (s : State) (nbits w : Nat) : State := loadCommand (BitVec.ofNat 32 (w % 2 ^ nbits)) s

end Sys2Proof.Machine
end

