-- ==== Sys2Proof/Machine/HostScript.lean ====
section
/-! DEFINITION. The host-script language of spec/30_encoding.md R71 and R72: what each statement and
pseudo-statement is at the host port, as the list of events the machine reads. `EXPECT` is a check of
the reader and no operation of the block (R72). -/

namespace Sys2Proof.Machine

/-- The registers by the names of spec/10_state.md R14. -/
inductive RegName where
  | CMD | STATUS | ERRINFO | WIN | SIN_LEN | SOUT_LEN | BIT_LEN | BYTE_LEN | TAG_LEN | NNODES | ROOT
deriving DecidableEq, Repr

/-- The register number of R14. -/
def RegName.number (r : RegName) : Nat :=
  match r with
  | .CMD => 0
  | .STATUS => 1
  | .ERRINFO => 2
  | .WIN => 3
  | .SIN_LEN => 4
  | .SOUT_LEN => 5
  | .BIT_LEN => 6
  | .BYTE_LEN => 7
  | .TAG_LEN => 8
  | .NNODES => 9
  | .ROOT => 10

/-- The statements of R71 and the pseudo-statements of R72. A load names only what it stores. -/
inductive ScriptStmt where
  /-- `SET <reg>, <value>` -/
  | set (r : RegName) (v : Word)
  /-- `GET <reg>` -/
  | get (r : RegName)
  /-- `PUT <buf>[<i>], <value>` -/
  | put (b : Space) (i v : Nat)
  /-- `GETB <buf>[<i>]` -/
  | getb (b : Space) (i : Nat)
  /-- `CMDW <value>`; `CMD <mnemonic>` is `cmdw` of the mnemonic's word (`cmd`) -/
  | cmdw (v : Word)
  /-- `WAIT`: `polls` reads of `REG.STATUS` find the block busy, then one finds it idle -/
  | wait (polls : Nat)
  | loadSin (symbols : List Nat)
  | loadBits (bs : List Bool)
  | loadBytes (bs : List Byte)
  | loadTags (ts : List TagRec)
  /-- `LOAD FT`: the listed counts, 0 for every other symbol -/
  | loadFt (counts : List (Nat × Nat))
  /-- `LOAD CT`: the listed codes, absent for every other symbol -/
  | loadCt (codes : List (Nat × List Bool))
deriving DecidableEq, Repr

/-- One `PUT` for each element from index 0, then `SET <length register>, <length>` (R72). -/
def loadSequence (b : Space) (len : RegName) (values : List Nat) : List Event :=
  (indexedFrom 0 values).map (fun c => Event.bufWrite b c.1 c.2) ++
    [.regWrite len.number (BitVec.ofNat 32 values.length)]

/-- One `PUT` for each of the `A` entries of a table (R72, spec/70_reset_and_hazards.md R168). -/
def loadTable (p : Params) (b : Space) (entries : List (Nat × Nat)) : List Event :=
  (List.range p.alphabet).map fun a => .bufWrite b a ((lookupCell a entries).getD 0)

/-- What a statement is at the host port (R71, R72). -/
def ScriptStmt.events (p : Params) (st : ScriptStmt) : List Event :=
  match st with
  | .set r v => [.regWrite r.number v]
  | .get r => [.regRead r.number]
  | .put b i v => [.bufWrite b i v]
  | .getb b i => [.bufRead b i]
  | .cmdw v => [.regWrite 0 v]
  | .wait polls => List.replicate polls (.regRead 1) ++ [.complete, .regRead 1]
  | .loadSin symbols => loadSequence .sin .SIN_LEN symbols
  | .loadBits bs => loadSequence .bits .BIT_LEN (bs.map Bool.toNat)
  | .loadBytes bs => loadSequence .bytes .BYTE_LEN (bs.map BitVec.toNat)
  | .loadTags ts => loadSequence .tags .TAG_LEN (ts.map (packTag p))
  | .loadFt counts => loadTable p .ft counts
  | .loadCt codes => loadTable p .ct (codes.map fun c => (c.1, packCode p (CodeRec.ofCode c.2)))

/-- `CMD <mnemonic>` (R71): the word whose low bits are the opcode (R62). -/
def ScriptStmt.cmd (opcode : Nat) : ScriptStmt := .cmdw (BitVec.ofNat 32 opcode)

/-- `RUN <mnemonic>` (R72): `CMD <mnemonic>` then `WAIT`. -/
def ScriptStmt.run (opcode polls : Nat) : List ScriptStmt := [.cmd opcode, .wait polls]

/-- The events of a script. -/
def scriptEvents (p : Params) (script : List ScriptStmt) : List Event :=
  script.flatMap (ScriptStmt.events p)

end Sys2Proof.Machine
end

