-- ==== Sys2Proof/Safety.lean ====
section
/-! DEFINITION. What a state of the block is like in every run: the canonical form of the buffers,
the widths of their elements, the status of spec/10_state.md R15, the lengths the block itself
writes, and WF_TREE (R21). `State.Inv` is the invariant the statements are about. -/

namespace Sys2Proof.Machine

/-- Every listed element lies below the capacity and has `ok`. -/
abbrev Memory.within {α : Type} (m : Memory α) (cap : Nat) (ok : α → Prop) : Prop :=
  ∀ c ∈ m.cells, c.1 < cap ∧ ok c.2

/-- The element `i` holds a specified value. -/
abbrev Memory.specified {α : Type} (m : Memory α) (i : Nat) : Prop := (m.get? i).isSome = true

/-- The widths of R21 (spec/00_scope.md R5). -/
abbrev NodeRec.fits (p : Params) (r : NodeRec) : Prop :=
  r.sym < 2 ^ p.symW ∧ r.left < 2 ^ p.nidxW ∧ r.right < 2 ^ p.nidxW ∧ r.weight < 2 ^ p.wtW

/-- The widths of R22. -/
abbrev CodeRec.fits (p : Params) (r : CodeRec) : Prop := r.len < 2 ^ p.clenW ∧ r.bits < 2 ^ p.codeMax

/-- The widths of R25. -/
abbrev TagRec.fits (p : Params) (r : TagRec) : Prop :=
  r.dist < 2 ^ p.idxW ∧ r.len < 2 ^ p.idxW ∧ r.lit < 2 ^ p.symW

/-- Every buffer is in canonical form, and what its unlisted elements hold is what R20, R22, R26 and
R37 allow: 0 in `FT`, unspecified in the sequence buffers, unspecified bits or an absent entry in
`CT`. -/
abbrev State.memoryOk (s : State) : Prop :=
  s.sin.wf ∧ s.sout.wf ∧ s.ft.wf ∧ s.node.wf ∧ s.ct.wf ∧ s.bits.wf ∧ s.bytes.wf ∧ s.tags.wf ∧
    s.sin.fill = none ∧ s.sout.fill = none ∧ s.ft.fill = some 0 ∧ s.node.fill = none ∧
    (s.ct.fill = none ∨ s.ct.fill = some CodeRec.absent) ∧
    s.bits.fill = none ∧ s.bytes.fill = none ∧ s.tags.fill = none

/-- Every listed element lies in its buffer and has the element's width (spec/20_memory.md R40). -/
abbrev State.contentsOk (s : State) : Prop :=
  s.sin.within s.cfg.nMax (· < 2 ^ s.cfg.symW) ∧
    s.sout.within s.cfg.nMax (· < 2 ^ s.cfg.symW) ∧
    s.ft.within s.cfg.alphabet (· < 2 ^ s.cfg.cntW) ∧
    s.node.within s.cfg.nodeMax (NodeRec.fits s.cfg) ∧
    s.ct.within s.cfg.alphabet (CodeRec.fits s.cfg) ∧
    s.bits.within s.cfg.bMax (fun _ => True) ∧
    s.bytes.within s.cfg.byMax (fun _ => True) ∧
    s.tags.within s.cfg.tMax (TagRec.fits s.cfg)

/-- `REG.STATUS` and `REG.ERRINFO` as R15 and spec/60_exceptions.md R140, R141, R145 allow: while a
command runs, after reset before the first command, or after a command. -/
abbrev State.statusOk (s : State) : Prop :=
  (s.status.busy = true → s.status = Status.accepted s.cmdLatch ∧ s.errInfo = 0) ∧
    (s.status.busy = false → s.cmdLatch = 0) ∧
    (s.status.busy = false → s.status.done = false → s.status = Status.cleared ∧ s.errInfo = 0) ∧
    (s.status.err = false → s.status.errCode = 0 ∧ s.status.stage = 0 ∧ s.errInfo = 0) ∧
    (s.status.err = true → s.status.done = true ∧ s.status.empty = false ∧
      1 ≤ s.status.errCode.toNat ∧ s.status.errCode.toNat ≤ 8 ∧ s.status.stage.toNat ≤ 9)

/-- What the block produced lies within its buffer and is specified (R18, R21). -/
abbrev State.lengthsOk (s : State) : Prop :=
  s.soutLen.toNat ≤ s.cfg.nMax ∧ (∀ i < s.soutLen.toNat, s.sout.specified i) ∧
    s.nnodes.toNat ≤ s.cfg.nodeMax ∧ (∀ k < s.nnodes.toNat, s.node.specified k)

/-- The internal nodes, at indices `N` and above of `count`, that have `i` as a child (R21 item 4). -/
abbrev parentsOf (node : Nat → NodeRec) (N count i : Nat) : List Nat :=
  (List.range' N (count - N)).filter fun k => decide ((node k).left = i ∨ (node k).right = i)

/-- The roots of the collection of trees when node `k` is made (spec/40_huffman_tree_builder.md R84):
the nodes below `k` that no internal node below `k` has as a child. -/
abbrev liveBefore (node : Nat → NodeRec) (N k : Nat) : List Nat :=
  (List.range k).filter fun i => decide (parentsOf node N k i = [])

/-- Internal node `k` merges the two first trees of the collection, in the order of R84: `left` was
removed first, `right` second. -/
abbrev MergesFirstTwo (node : Nat → NodeRec) (N k : Nat) : Prop :=
  (node k).left ∈ liveBefore node N k ∧ (node k).right ∈ liveBefore node N k ∧
    (node k).left ≠ (node k).right ∧
    ∀ i ∈ liveBefore node N k,
      comesFirst ((node (node k).left).weight, (node k).left) ((node i).weight, i) ∧
        (i ≠ (node k).left →
          comesFirst ((node (node k).right).weight, (node k).right) ((node i).weight, i))

/-- WF_TREE (R21) for an arena of `count` nodes with root `root`, with `N` leaves and an alphabet of
`A` symbols: the six items of the rule in order, with the fields R21's table fixes to 0. -/
abbrev WfTree (A : Nat) (node : Nat → NodeRec) (count root : Nat) : Prop :=
  let N := (count + 1) / 2
  (count = 2 * N - 1 ∧ 1 ≤ N ∧ N ≤ A) ∧
    ((∀ j < N, node j = NodeRec.leaf (node j).sym (node j).weight ∧ (node j).sym < A) ∧
      ∀ j < N, 0 < j → (node (j - 1)).sym < (node j).sym) ∧
    (∀ k < count, N ≤ k →
      node k = NodeRec.internal (node k).left (node k).right (node k).weight ∧
        (node k).left < k ∧ (node k).right < k ∧ (node k).left ≠ (node k).right) ∧
    (∀ i < count, i ≠ root → (parentsOf node N count i).length = 1) ∧
    root = count - 1 ∧
    ((∀ j < N, 1 ≤ (node j).weight) ∧
      ∀ k < count, N ≤ k →
        (node k).weight = (node (node k).left).weight + (node (node k).right).weight)

/-- Following the edges labelled `path` from node `k` leads to node `j`: label 0 is the left child,
label 1 the right child (spec/41_huffman_code_table_gen.md R90). -/
def PathTo (node : Nat → NodeRec) (k : Nat) (path : List Bool) (j : Nat) : Prop :=
  match path with
  | [] => k = j
  | b :: rest => (node k).kind = true ∧ PathTo node (if b then (node k).right else (node k).left) rest j

/-- `c` is the code of leaf `j` in a tree of `count` nodes with root `root`: the labels of its path
(R90), and "0" where the root is the only node (R91). -/
def IsCodeOf (node : Nat → NodeRec) (count root j : Nat) (c : List Bool) : Prop :=
  if count = 1 then c = [false] else PathTo node root c j

/-- There is no tree and `REG.ROOT` is 0, or WF_TREE holds (R21, R146). -/
abbrev State.treeOk (s : State) : Prop :=
  (s.nnodes = 0 ∧ s.root = 0) ∨
    (s.nnodes ≠ 0 ∧ WfTree s.cfg.alphabet s.nodeAt s.nnodes.toNat s.root.toNat)

/-- The invariant of the block. -/
abbrev State.Inv (s : State) : Prop :=
  s.cfg.wf ∧ s.memoryOk ∧ s.contentsOk ∧ s.statusOk ∧ s.lengthsOk ∧ s.treeOk

/-- `WF_CT` (R22): no entry is a prefix of another, and no two entries are equal. -/
abbrev WfCodeTable (A : Nat) (code : Nat → List Bool) : Prop :=
  ∀ a < A, ∀ b < A, a ≠ b → code a ≠ [] → code b ≠ [] → ¬ (code a).isPrefixOf (code b) = true

/-! ### The terms of the statements -/

/-- The destinations of a command (spec/20_memory.md R47); an illegal word has none (R63). -/
def destinations (i : Instr) : List Entity :=
  match i with
  | .freq => [.freqTable]
  | .build => [.tree]
  | .codes => [.codeTable]
  | .enc => [.bitSeq]
  | .henc => [.freqTable, .tree, .codeTable, .bitSeq]
  | .pack => [.byteSeq]
  | .unpack => [.bitSeq]
  | .hdec => [.symbolSeq]
  | .lzc => [.tagSeq]
  | .lzd => [.symbolSeq]
  | _ => []

/-- The primary source is empty (the second table of R15). -/
def primarySourceEmpty (i : Instr) (s : State) : Bool :=
  match i with
  | .freq => s.sinLen == 0
  | .enc => s.sinLen == 0
  | .henc => s.sinLen == 0
  | .lzc => s.sinLen == 0
  | .pack => s.bitLen == 0
  | .hdec => s.bitLen == 0
  | .lzd => s.tagLen == 0
  | _ => false

/-- The (`ERRCODE`, `STAGE`) pairs a command can report (spec/60_exceptions.md R142). -/
def errorsOf (i : Instr) : List (Nat × Nat) :=
  match i with
  | .freq => [(6, 1)]
  | .build => [(1, 2)]
  | .codes => [(1, 3)]
  | .enc => [(6, 4), (2, 4), (7, 4)]
  | .henc => [(6, 1), (7, 4)]
  | .pack => [(6, 6)]
  | .unpack => [(6, 7), (5, 7)]
  | .hdec => [(6, 5), (7, 5), (3, 5), (2, 5)]
  | .lzc => [(6, 8)]
  | .lzd => [(6, 9), (4, 9), (7, 9)]
  | _ => [(8, 0)]

/-- The entity is emptied (R146). -/
def Entity.emptied (e : Entity) (t : State) : Prop :=
  match e with
  | .freqTable => ∀ a, t.countAt a = 0
  | .tree => t.nnodes = 0 ∧ t.root = 0
  | .codeTable => ∀ a, (t.codeRecAt a).len = 0
  | .bitSeq => t.bitLen = 0
  | .byteSeq => t.byteLen = 0
  | .tagSeq => t.tagLen = 0
  | .symbolSeq => t.soutLen = 0

/-- The entity's registers are unchanged, and every element of its buffer reads as before. -/
def Entity.kept (e : Entity) (s t : State) : Prop :=
  match e with
  | .freqTable => t.ft = s.ft ∧ ∀ i, t.countAt i = s.countAt i
  | .tree => t.nnodes = s.nnodes ∧ t.root = s.root ∧ t.node = s.node ∧ ∀ i, t.nodeAt i = s.nodeAt i
  | .codeTable => t.ct = s.ct ∧ ∀ i, t.codeRecAt i = s.codeRecAt i
  | .bitSeq => t.bitLen = s.bitLen ∧ t.bits = s.bits ∧ ∀ i, t.bitAt i = s.bitAt i
  | .byteSeq => t.byteLen = s.byteLen ∧ t.bytes = s.bytes ∧ ∀ i, t.byteAt i = s.byteAt i
  | .tagSeq => t.tagLen = s.tagLen ∧ t.tags = s.tags ∧ ∀ i, t.tagAt i = s.tagAt i
  | .symbolSeq => t.soutLen = s.soutLen ∧ t.sout = s.sout ∧ ∀ i, t.soutAt i = s.soutAt i

/-- What no command writes: the parameters, `REG.WIN`, `SIN` with its length, and what belongs to the
host port (R47, R11, R17). -/
def SourcesKept (s t : State) : Prop :=
  t.cfg = s.cfg ∧ t.win = s.win ∧ t.sinLen = s.sinLen ∧ t.sin = s.sin ∧ (∀ i, t.sinAt i = s.sinAt i) ∧
    t.inputs = s.inputs ∧ t.lastRead = s.lastRead ∧ t.readCount = s.readCount

/-- Completion without error (R147), field by field: `OP` unchanged, `EMPTY` as given. -/
abbrev Completed (s t : State) (empty : Bool) : Prop :=
  t.status = { busy := false, done := true, err := false, empty := empty,
               errCode := 0, stage := 0, op := s.status.op } ∧ t.errInfo = 0

/-- Completion by `raise` (R146), field by field: `OP` unchanged. -/
abbrev Aborted (s t : State) (code stage : BitVec 4) (info : Word) : Prop :=
  t.status = { busy := false, done := true, err := true, empty := false,
               errCode := code, stage := stage, op := s.status.op } ∧ t.errInfo = info

/-- Bits `lo + width - 1` to `lo` of a record (spec/30_encoding.md R66 to R68). -/
abbrev fieldOf (v lo width : Nat) : Nat := v / 2 ^ lo % 2 ^ width

/-- `v` is the record of the node `r`, field by field (R66). -/
abbrev NodeLayout (p : Params) (v : Nat) (r : NodeRec) : Prop :=
  v < 2 ^ Space.node.width p ∧ v.testBit 0 = r.kind ∧ fieldOf v 1 p.symW = r.sym ∧
    fieldOf v (p.symW + 1) p.nidxW = r.left ∧ fieldOf v (p.symW + p.nidxW + 1) p.nidxW = r.right ∧
    fieldOf v (p.symW + 2 * p.nidxW + 1) p.wtW = r.weight

/-- `v` is the record of the entry `r`, field by field; bit `k` of `bits` is record bit `CLEN_W + k`
(R67). -/
abbrev CodeLayout (p : Params) (v : Nat) (r : CodeRec) : Prop :=
  v < 2 ^ Space.ct.width p ∧ fieldOf v 0 p.clenW = r.len ∧
    ∀ k < p.codeMax, v.testBit (p.clenW + k) = r.bits.testBit k

/-- `v` is the record of the tag `r`, field by field (R68). -/
abbrev TagLayout (p : Params) (v : Nat) (r : TagRec) : Prop :=
  v < 2 ^ Space.tags.width p ∧ fieldOf v 0 p.idxW = r.dist ∧ fieldOf v p.idxW p.idxW = r.len ∧
    v.testBit (2 * p.idxW) = r.hasLit ∧ fieldOf v (2 * p.idxW + 1) p.symW = r.lit

/-- The state that the counts, the tree and the table of `SIN` make, as HENC has it before it encodes
(spec/42_huffman_bitstream_encoder.md R98). -/
def State.tableOfInput (s : State) : State :=
  let s1 := writeFreqTable (countInto (s.ft.clearTo 0) s.inputSymbols) s
  let s2 := writeTree (buildArena (leafNodes s1)) s1
  match codesBody s2 with
  | .ok s3 => s3
  | .error _ => s2

/-- The same outcome with `f` applied to a next state. -/
def mapNext (f : State → State) : Host.Outcome State Fault Refusal → Host.Outcome State Fault Refusal
  | .next t => .next (f t)
  | .fault r => .fault r
  | .refused r => .refused r

/-- `a` is what the decoder emits at its code: no entry is a proper prefix of it, and no smaller
symbol has the same code (spec/43_huffman_bitstream_decoder.md R108, R111). -/
abbrev FirstMatch (A : Nat) (code : Nat → List Bool) (a : Nat) : Prop :=
  a < A ∧ code a ≠ [] ∧ ∀ b < A, code b ≠ [] → code b <+: code a → code b = code a ∧ a ≤ b

/-- A match of length `L` at distance `D` from position `i`, the candidate read modulo its length
(spec/44_lz77_matcher.md R117). -/
abbrev RunsFor (S : List Nat) (i D L : Nat) : Prop :=
  i + L ≤ S.length ∧ ∀ k < L, S[i + k]? = S[i - D + k % D]?

/-- Length `L` and distance `D` are what R118 chooses at position `i` with window `W`: the longest
match of a candidate at distance 1 to `min(i, W)`, the nearest of the longest; (0, 0) if none. -/
def BestTag (S : List Nat) (W i L D : Nat) : Prop :=
  (0 < L → 1 ≤ D ∧ D ≤ min i W ∧ RunsFor S i D L) ∧ (L = 0 → D = 0) ∧
    ∀ D', 1 ≤ D' → D' ≤ min i W → ∀ L', RunsFor S i D' L' → L' ≤ L ∧ (L' = L → 0 < L → D ≤ D')

/-- The tags that R115 to R119 give from position `i` on. -/
def GreedyFrom (S : List Nat) (W : Nat) : Nat → List TagRec → Prop
  | i, [] => S.length ≤ i
  | i, t :: rest =>
    i < S.length ∧ BestTag S W i t.len t.dist ∧
      (i + t.len < S.length → t.hasLit = true ∧ S[i + t.len]? = some t.lit) ∧
      (S.length ≤ i + t.len → t.hasLit = false ∧ t.lit = 0) ∧
      GreedyFrom S W (i + t.len + 1) rest

/-- The number of symbols that tags stand for: each its length and its literal (R121). -/
def produced (ts : List TagRec) : Nat := (ts.map fun t => t.len + t.hasLit.toNat).sum

/-- The tag, after `out` symbols of output, is malformed (spec/45_lz77_replayer.md R128). -/
abbrev TagRec.malformed (t : TagRec) (out : Nat) : Prop := out < t.dist ∨ (t.dist = 0 ∧ 0 < t.len)

/-- No tag is malformed where it stands, and the output never passes `cap` symbols. -/
abbrev TagsOk (cap : Nat) (ts : List TagRec) : Prop :=
  ∀ j < ts.length, ∀ t, ts[j]? = some t →
    ¬ t.malformed (produced (ts.take j)) ∧ produced (ts.take j) + t.len + t.hasLit.toNat ≤ cap

/-- `result` is what the tags make of the output `out`: for each tag in order the copy in the closed
form of R127, then the literal if present (R126). -/
def Replayed : List Nat → List TagRec → List Nat → Prop
  | out, [], result => result = out
  | out, t :: rest, result =>
    ∃ mid : List Nat, mid.length = out.length + t.len ∧ (∀ k < out.length, mid[k]? = out[k]?) ∧
      (∀ c < t.len, mid[out.length + c]? = out[out.length - t.dist + c % t.dist]?) ∧
      Replayed (mid ++ if t.hasLit then [t.lit] else []) rest result

end Sys2Proof.Machine
end

