-- ==== Sys2Proof/Certificates/Slice0/Obligations.lean ====
section
/-! DEFINITION. The statements about the block, one definition each, in the order of
OBLIGATIONS.json. The terms they use stand in `Safety.lean`. -/

open Sys2Proof Sys2Proof.Machine

/-! ### Encoding (spec/30_encoding.md) -/

/-- R61 to R63, R73: every well-formed instruction is read back from its word. -/
def Obligations.DecodeEncodeRoundTrip : Prop :=
  ∀ i : Instr, i.wellFormed = true → decode (encode i) = i

/-- R73: the rows of the table cover every 32-bit word exactly once. -/
def Obligations.EveryWordIsOneRow : Prop :=
  ∀ v : Word, (decode v).wellFormed = true ∧ encode (decode v) = v

/-- R62: a word selects the command of opcode `v[3:0]` iff `v[31:4]` is 0 and the opcode is one of
`0x1` to `0xA`. -/
def Obligations.OpcodeSelectsCommand : Prop :=
  ∀ v : Word, ∀ c ∈ opcodeMap,
    decode v = c.2 ↔ v.extractLsb' 4 28 = 0#28 ∧ (v.extractLsb' 0 4).toNat = c.1

/-- Words written out from R61, R62 and R73, some of them illegal. -/
def Obligations.SampleWordsDecode : Prop :=
  decode 0x00000001#32 = .freq ∧ decode 0x00000002#32 = .build ∧ decode 0x00000003#32 = .codes ∧
    decode 0x00000004#32 = .enc ∧ decode 0x00000005#32 = .henc ∧ decode 0x00000006#32 = .pack ∧
    decode 0x00000007#32 = .unpack ∧ decode 0x00000008#32 = .hdec ∧ decode 0x00000009#32 = .lzc ∧
    decode 0x0000000A#32 = .lzd ∧ decode 0x00000000#32 = .illegal0 ∧ decode 0x0000000F#32 = .illegalF ∧
    decode 0x00000011#32 = .illegalHi4 1 ∧ decode 0x80000009#32 = .illegalHi31 9

/-! ### The step, the host port and reset (spec/20_memory.md, spec/30_encoding.md R60) -/

/-- R52, R53, R171: while a command runs, the event `complete`, or the end of the events, is `exec` of
the command its word decodes to; a word placed by `withFetchWord` is run by the next step. -/
def Obligations.StepRunsDecodedCommand : Prop :=
  (∀ (s : State) (rest : List Event), s.status.busy = true → s.inputs = .complete :: rest →
      step s = exec (decode s.cmdLatch) { s with inputs := rest }) ∧
    (∀ s : State, s.status.busy = true → s.inputs = [] → step s = exec (decode s.cmdLatch) s) ∧
    ∀ (s : State) (w : Nat),
      step (s.withFetchWord 32 w) = exec (decode (BitVec.ofNat 32 w)) (acceptCommand (BitVec.ofNat 32 w) s)

/-- R60, R63: a write of `REG.CMD` while idle sets `BUSY` and `OP = v[3:0]`, clears the other status
fields and `REG.ERRINFO`, and the next completion runs the command `v` encodes; if `v` encodes none, the
write itself is the instruction `v` decodes to, run in the accepted state, and the block is idle again.
While busy the write is ignored; `REG.CMD` stores nothing, it reads 0. The model's own choices in it: that
the read is 0 while the command runs (log 8), that the end of the events completes it (log 5), that "at
once" is the same step (log 10). Nothing is said of what the model's own latch holds (log 6). -/
def Obligations.AcceptedWriteStartsCommand : Prop :=
  ∀ (s : State) (v : Word) (rest : List Event), s.inputs = .regWrite 0 v :: rest →
    (s.status.busy = true → step s = .next { s with inputs := rest }) ∧
    (s.status.busy = false →
      ∃ t, (∃ latch, t = { s with inputs := rest
                                  status := { busy := true, done := false, err := false, empty := false,
                                              errCode := 0, stage := 0, op := v.extractLsb' 0 4 }
                                  errInfo := 0
                                  cmdLatch := latch }) ∧
        (isCommand (decode v) = true →
          step s = .next t ∧ step { t with inputs := [] } = exec (decode v) { t with inputs := [] } ∧
            step { t with inputs := [.regRead 0] } = .next { t with inputs := [], lastRead := .reg 0 }) ∧
        (isCommand (decode v) = false →
          step s = exec (decode v) t ∧
            ∃ u, step s = .next u ∧ Aborted t u 8 0 v ∧
              step { u with inputs := [.regRead 0] } = .next { u with inputs := [], lastRead := .reg 0 }))

/-- R46: while busy every write is ignored, STATUS reads `BUSY` and the opcode and ERRINFO reads 0
(R15), and every other read returns some value and changes nothing (`readCount` is the model's own
counter of the free values, log 4). -/
def Obligations.BusyHostAccess : Prop :=
  ∀ (s : State) (rest : List Event), s.status.busy = true → s.statusOk →
    (∀ n v, s.inputs = .regWrite n v :: rest → step s = .next { s with inputs := rest }) ∧
    (∀ b i v, s.inputs = .bufWrite b i v :: rest → step s = .next { s with inputs := rest }) ∧
    (s.inputs = .regRead 1 :: rest →
      step s = .next { s with inputs := rest
                              lastRead := .reg (0#16 ++ s.cmdLatch.extractLsb' 0 4 ++ 1#12) }) ∧
    (s.inputs = .regRead 2 :: rest → step s = .next { s with inputs := rest, lastRead := .reg 0 }) ∧
    (∀ n, n ≠ 1 → n ≠ 2 → s.inputs = .regRead n :: rest →
      ∃ v k, step s = .next { s with inputs := rest, lastRead := .reg v, readCount := k }) ∧
    ∀ b i, s.inputs = .bufRead b i :: rest →
      ∃ v k, step s = .next { s with inputs := rest, lastRead := .elem v, readCount := k }

/-- R45: writes to what does not exist or is read-only are ignored, the matching reads return some
value and change nothing (`readCount` is the model's own, log 4), `REG.CMD` reads 0, and a written value
is cut to the element's width. That `REG.CMD` reads 0 while busy too is the model's choice (log 8). -/
def Obligations.AccessesThatNameNothing : Prop :=
  ∀ (s : State) (rest : List Event),
    (∀ n v, 10 < n ∨ n ∈ [1, 2, 5, 9, 10] → s.inputs = .regWrite n v :: rest →
      step s = .next { s with inputs := rest }) ∧
    (∀ b i v, b.capacity s.cfg ≤ i ∨ b = .sout ∨ b = .node → s.inputs = .bufWrite b i v :: rest →
      step s = .next { s with inputs := rest }) ∧
    (∀ k i v, s.inputs = .bufWrite (.absent k) i v :: rest → step s = .next { s with inputs := rest }) ∧
    (∀ n, 10 < n → s.inputs = .regRead n :: rest →
      ∃ v k, step s = .next { s with inputs := rest, lastRead := .reg v, readCount := k }) ∧
    (∀ b i, b.capacity s.cfg ≤ i → s.inputs = .bufRead b i :: rest →
      ∃ v k, step s = .next { s with inputs := rest, lastRead := .elem v, readCount := k }) ∧
    (∀ k i, s.inputs = .bufRead (.absent k) i :: rest →
      ∃ v k, step s = .next { s with inputs := rest, lastRead := .elem v, readCount := k }) ∧
    (s.inputs = .regRead 0 :: rest → step s = .next { s with inputs := rest, lastRead := .reg 0 }) ∧
    ∀ b i v, step { s with inputs := .bufWrite b i v :: rest } =
      step { s with inputs := .bufWrite b i (v % 2 ^ b.width s.cfg) :: rest }

/-- R14, R44, R49: register reads and writes while idle, register by register. -/
def Obligations.IdleRegisterAccess : Prop :=
  ∀ (s : State) (rest : List Event), s.status.busy = false →
    (∀ v, step { s with inputs := .regWrite 3 v :: rest } = .next { s with inputs := rest, win := v }) ∧
    (∀ v, step { s with inputs := .regWrite 4 v :: rest } = .next { s with inputs := rest, sinLen := v }) ∧
    (∀ v, step { s with inputs := .regWrite 6 v :: rest } = .next { s with inputs := rest, bitLen := v }) ∧
    (∀ v, step { s with inputs := .regWrite 7 v :: rest } = .next { s with inputs := rest, byteLen := v }) ∧
    (∀ v, step { s with inputs := .regWrite 8 v :: rest } = .next { s with inputs := rest, tagLen := v }) ∧
    ∀ c ∈ [(1, s.status.word), (2, s.errInfo), (3, s.win), (4, s.sinLen), (5, s.soutLen), (6, s.bitLen),
        (7, s.byteLen), (8, s.tagLen), (9, s.nnodes), (10, s.root)],
      step { s with inputs := .regRead c.1 :: rest } =
        .next { s with inputs := rest, lastRead := .reg c.2 }

/-- R42, R43, R44, R49, R66 to R68: while idle a read of any element that exists, of any buffer, returns
the element and changes nothing else; an element written reads back, and every other element of every
buffer reads as before. What a read returns is the symbol, the count, the bit or the byte, or a record
with its fields at the places of R66 to R68. -/
def Obligations.WrittenElementReadsBack : Prop :=
  (∀ (s : State) (b : Space) (i : Nat) (rest : List Event), s.status.busy = false → i < b.capacity s.cfg →
      s.inputs = .bufRead b i :: rest →
      step s = .next { s with inputs := rest, lastRead := .elem (elementValue b i s) }) ∧
    (∀ (s : State) (b : Space) (i v : Nat) (rest : List Event), s.status.busy = false →
      b ∈ [Space.sin, .ft, .ct, .bits, .bytes, .tags] → i < b.capacity s.cfg → v < 2 ^ b.width s.cfg →
      s.inputs = .bufWrite b i v :: .bufRead b i :: rest →
      ∃ t, step s = .next t ∧ elementValue b i t = v ∧
        (∀ c j, c ≠ b ∨ j ≠ i → elementValue c j t = elementValue c j s) ∧
        t.status = s.status ∧ t.errInfo = s.errInfo ∧ t.win = s.win ∧ t.sinLen = s.sinLen ∧
        t.soutLen = s.soutLen ∧ t.bitLen = s.bitLen ∧ t.byteLen = s.byteLen ∧ t.tagLen = s.tagLen ∧
        t.nnodes = s.nnodes ∧ t.root = s.root ∧ t.cfg = s.cfg ∧
        step t = .next { t with inputs := rest, lastRead := .elem v }) ∧
    (∀ (s : State) (i : Nat), elementValue .sin i s = s.sinAt i ∧ elementValue .sout i s = s.soutAt i ∧
      elementValue .ft i s = s.countAt i ∧ elementValue .bits i s = (s.bitAt i).toNat ∧
      elementValue .bytes i s = (s.byteAt i).toNat) ∧
    ∀ s : State, s.Inv → ∀ i,
      NodeLayout s.cfg (elementValue .node i s) (s.nodeAt i) ∧
        CodeLayout s.cfg (elementValue .ct i s) (s.codeRecAt i) ∧
        TagLayout s.cfg (elementValue .tags i s) (s.tagAt i)

/-- R49: no host operation ever writes `SOUT`, `NODE`, `REG.SOUT_LEN`, `REG.NNODES` or `REG.ROOT`, and
none but an accepted write of `REG.CMD` changes `REG.STATUS` or `REG.ERRINFO`. -/
def Obligations.HostCannotWriteProtected : Prop :=
  ∀ (s t : State) (e : Event) (rest : List Event), s.inputs = e :: rest → e ≠ .reset → e ≠ .complete →
    step s = .next t →
    t.sout = s.sout ∧ t.node = s.node ∧ t.soutLen = s.soutLen ∧ t.nnodes = s.nnodes ∧ t.root = s.root ∧
      (∀ i, t.soutAt i = s.soutAt i) ∧ (∀ k, t.nodeAt k = s.nodeAt k) ∧
      ((∀ v, e ≠ .regWrite 0 v) → t.status = s.status ∧ t.errInfo = s.errInfo)

/-- R37: the state after reset. Buffer contents the rule leaves unspecified are unspecified here. No
command is running: the event `complete` finds nothing to complete. -/
def Obligations.ResetState : Prop :=
  State.reset.status.word = 0x00000000#32 ∧ State.reset.errInfo = 0 ∧ State.reset.win = 0 ∧
    State.reset.sinLen = 0 ∧ State.reset.soutLen = 0 ∧ State.reset.bitLen = 0 ∧
    State.reset.byteLen = 0 ∧ State.reset.tagLen = 0 ∧ State.reset.nnodes = 0 ∧ State.reset.root = 0 ∧
    (∀ a, State.reset.countAt a = 0) ∧ (∀ a, (State.reset.codeRecAt a).len = 0) ∧
    (∀ i, State.reset.ct.get? i = none ∧ State.reset.sin.get? i = none ∧ State.reset.sout.get? i = none ∧
      State.reset.node.get? i = none ∧ State.reset.bits.get? i = none ∧ State.reset.bytes.get? i = none ∧
      State.reset.tags.get? i = none) ∧
    step { State.reset with inputs := [.complete] } = .next State.reset

/-- R160: the `Reset` event, in any state, idle or busy: all registers 0, `FT` all 0, every `CT.len` 0,
idle, every other buffer content unspecified; a running command does not complete, and nothing of it
survives: the state after the event is the same whatever command was running. -/
def Obligations.ResetEvent : Prop :=
  ∀ (s : State) (rest : List Event), s.inputs = .reset :: rest →
    ∃ t, step s = .next t ∧ t.inputs = rest ∧ t.cfg = s.cfg ∧
      t.status.word = 0x00000000#32 ∧ t.errInfo = 0 ∧ t.win = 0 ∧ t.sinLen = 0 ∧ t.soutLen = 0 ∧
      t.bitLen = 0 ∧ t.byteLen = 0 ∧ t.tagLen = 0 ∧ t.nnodes = 0 ∧ t.root = 0 ∧
      (∀ a, t.countAt a = 0) ∧ (∀ a, (t.codeRecAt a).len = 0) ∧
      (∀ i, t.ct.get? i = none ∧ t.sin.get? i = none ∧ t.sout.get? i = none ∧ t.node.get? i = none ∧
        t.bits.get? i = none ∧ t.bytes.get? i = none ∧ t.tags.get? i = none) ∧
      ∀ w, step { s with cmdLatch := w } = .next t

/-- R15: the places of the fields of `REG.STATUS`. -/
def Obligations.StatusWordLayout : Prop :=
  ∀ st : Status, st.word.getLsbD 0 = st.busy ∧ st.word.getLsbD 1 = st.done ∧
    st.word.getLsbD 2 = st.err ∧ st.word.getLsbD 3 = st.empty ∧
    st.word.extractLsb' 4 4 = st.errCode ∧ st.word.extractLsb' 8 4 = st.stage ∧
    st.word.extractLsb' 12 4 = st.op ∧ st.word.extractLsb' 16 16 = 0#16

/-- R71, R72: `RUN <mnemonic>` on an idle block accepts the command, polls, and completes it. -/
def Obligations.RunStatementRunsCommand : Prop :=
  ∀ (s : State) (opcode polls : Nat) (rest : List Event), s.status.busy = false →
    s.inputs = scriptEvents s.cfg (ScriptStmt.run opcode polls) ++ rest →
    ∃ u, (∃ r, u = { acceptCommand (BitVec.ofNat 32 opcode) s with
                     inputs := .regRead 1 :: rest, lastRead := r }) ∧
      Host.Core.run Sys2Proof.core (polls + 2) s = exec (decode (BitVec.ofNat 32 opcode)) u

/-- R72: `LOAD SIN` places the symbols and their number. -/
def Obligations.LoadSinPlacesSymbols : Prop :=
  ∀ (s : State) (symbols : List Nat), s.cfg.wf → s.status.busy = false → symbols.length ≤ s.cfg.nMax →
    (∀ a ∈ symbols, a < 2 ^ s.cfg.symW) →
    s.inputs = scriptEvents s.cfg [.loadSin symbols] →
    ∃ t, Host.Core.run Sys2Proof.core (symbols.length + 1) s = .next t ∧ t.inputs = [] ∧
      t.inputSymbols = symbols

/-! ### The invariant -/

/-- The reset state satisfies the invariant. -/
def Obligations.ResetSatisfiesInvariant : Prop := State.reset.Inv

/-- R10, R15, R21, R40: every step keeps the invariant: canonical buffers, elements within their
widths, a legal status, and WF_TREE. -/
def Obligations.StepKeepsInvariant : Prop :=
  ∀ s t : State, s.Inv → step s = .next t → t.Inv

/-- R171: the block cannot hang: under the invariant every step answers a next state. -/
def Obligations.StepNeverStops : Prop :=
  ∀ s : State, s.Inv → ∃ t, step s = .next t

/-! ### What holds of all commands -/

/-- R13: no command reads a flag: the outcome does not depend on any field of `REG.STATUS` but `OP`,
which completion keeps. -/
def Obligations.CommandsReadNoFlag : Prop :=
  ∀ (i : Instr) (s : State) (st : Status), st.op = s.status.op →
    exec i { s with status := st } = exec i s

/-- R26, R47: elements at or above an entity's length do not affect any command. A command that does not
have the buffer as a destination answers the same outcome, the buffer itself left alone; a command that
does replaces the whole buffer, so that nothing of it mattered (its generation counter `gen` is the
model's own, log 3; that what lies beyond the length stays as it is, log 11). No command reads `SOUT`, so
there no element matters. -/
def Obligations.ElementsBeyondLengthAreIgnored : Prop :=
  (∀ (s : State) (m : Memory Nat), (∀ j < s.sinLen.toNat, ({ s with sin := m }).sinAt j = s.sinAt j) →
      ∀ i, exec i { s with sin := m } = mapNext (fun t => { t with sin := m }) (exec i s)) ∧
    (∀ (s : State) (m : Memory Nat) (i : Instr),
      (Entity.symbolSeq ∉ destinations i →
        exec i { s with sout := m } = mapNext (fun t => { t with sout := m }) (exec i s)) ∧
      (Entity.symbolSeq ∈ destinations i → m.gen = s.sout.gen → exec i { s with sout := m } = exec i s)) ∧
    (∀ (s : State) (m : Memory Bool) (i : Instr),
      ((∀ j < s.bitLen.toNat, ({ s with bits := m }).bitAt j = s.bitAt j) → Entity.bitSeq ∉ destinations i →
        exec i { s with bits := m } = mapNext (fun t => { t with bits := m }) (exec i s)) ∧
      (Entity.bitSeq ∈ destinations i → m.gen = s.bits.gen → exec i { s with bits := m } = exec i s)) ∧
    (∀ (s : State) (m : Memory Byte) (i : Instr),
      ((∀ j < s.byteLen.toNat, ({ s with bytes := m }).byteAt j = s.byteAt j) →
        Entity.byteSeq ∉ destinations i →
        exec i { s with bytes := m } = mapNext (fun t => { t with bytes := m }) (exec i s)) ∧
      (Entity.byteSeq ∈ destinations i → m.gen = s.bytes.gen → exec i { s with bytes := m } = exec i s)) ∧
    (∀ (s : State) (m : Memory TagRec) (i : Instr),
      ((∀ j < s.tagLen.toNat, ({ s with tags := m }).tagAt j = s.tagAt j) → Entity.tagSeq ∉ destinations i →
        exec i { s with tags := m } = mapNext (fun t => { t with tags := m }) (exec i s)) ∧
      (Entity.tagSeq ∈ destinations i → m.gen = s.tags.gen → exec i { s with tags := m } = exec i s)) ∧
    ∀ (s : State) (m : Memory NodeRec) (i : Instr),
      ((∀ k < s.nnodes.toNat, ({ s with node := m }).nodeAt k = s.nodeAt k) → Entity.tree ∉ destinations i →
        exec i { s with node := m } = mapNext (fun t => { t with node := m }) (exec i s)) ∧
      (Entity.tree ∈ destinations i → m.gen = s.node.gen → exec i { s with node := m } = exec i s)

/-- R47, frame of FREQ, BUILD and CODES: only the command's destination, `REG.STATUS` and
`REG.ERRINFO` change. That elements beyond an entity's length keep their values too, which U2 does not
promise, is the model's choice (log 11), here and in the two frames below. -/
def Obligations.TableCommandsFrame : Prop :=
  ∀ i ∈ [Instr.freq, .build, .codes], ∀ s t : State, exec i s = .next t →
    SourcesKept s t ∧ ∀ e : Entity, e ∉ destinations i → e.kept s t

/-- R47, frame of ENC, HENC, PACK, UNPACK and HDEC. -/
def Obligations.StreamCommandsFrame : Prop :=
  ∀ i ∈ [Instr.enc, .henc, .pack, .unpack, .hdec], ∀ s t : State, exec i s = .next t →
    SourcesKept s t ∧ ∀ e : Entity, e ∉ destinations i → e.kept s t

/-- R47, frame of LZC and LZD. -/
def Obligations.Lz77CommandsFrame : Prop :=
  ∀ i ∈ [Instr.lzc, .lzd], ∀ s t : State, exec i s = .next t →
    SourcesKept s t ∧ ∀ e : Entity, e ∉ destinations i → e.kept s t

/-- R147, R146, R145, R52: every command ends with `DONE` set and `BUSY` clear, `OP` unchanged, and without
error every error field 0. The cleared command latch is the model's own (log 6). -/
def Obligations.EveryCommandEndsDone : Prop :=
  ∀ (i : Instr) (s t : State), exec i s = .next t →
    t.status.busy = false ∧ t.status.done = true ∧ t.status.op = s.status.op ∧ t.cmdLatch = 0 ∧
      (t.status.err = false → t.status.errCode = 0 ∧ t.status.stage = 0 ∧ t.errInfo = 0) ∧
      (t.status.err = true → t.status.empty = false)

/-- R15, second table: when `EMPTY` is set. -/
def Obligations.EmptyFlagSaysSourceEmpty : Prop :=
  ∀ (i : Instr) (s t : State), exec i s = .next t → t.status.err = false →
    t.status.empty = primarySourceEmpty i s

/-- R146: a command that ends in an error has emptied its destinations. -/
def Obligations.AbortEmptiesDestinations : Prop :=
  ∀ (i : Instr) (s t : State), exec i s = .next t → t.status.err = true →
    ∀ e ∈ destinations i, e.emptied t

/-- R142: the (error, stage) pairs each command can report; a pair not listed cannot occur. The state
satisfies the invariant, so that a tree is a tree (R21). -/
def Obligations.OnlyListedErrorsOccur : Prop :=
  ∀ (i : Instr) (s t : State), s.Inv → exec i s = .next t → t.status.err = true →
    (t.status.errCode.toNat, t.status.stage.toNat) ∈ errorsOf i

/-- R143: the parameter checks, each before anything else, the length before the window; BUILD and
CODES never raise `BadParamError`. -/
def Obligations.ParameterChecks : Prop :=
  ∀ s : State,
    (s.cfg.nMax < s.sinLen.toNat →
      (∃ t, exec .freq s = .next t ∧ Aborted s t 6 1 4) ∧ (∃ t, exec .enc s = .next t ∧ Aborted s t 6 4 4) ∧
      (∃ t, exec .henc s = .next t ∧ Aborted s t 6 1 4) ∧ ∃ t, exec .lzc s = .next t ∧ Aborted s t 6 8 4) ∧
    (s.cfg.bMax < s.bitLen.toNat →
      (∃ t, exec .pack s = .next t ∧ Aborted s t 6 6 6) ∧ ∃ t, exec .hdec s = .next t ∧ Aborted s t 6 5 6) ∧
    (s.cfg.byMax < s.byteLen.toNat → ∃ t, exec .unpack s = .next t ∧ Aborted s t 6 7 7) ∧
    (s.cfg.tMax < s.tagLen.toNat → ∃ t, exec .lzd s = .next t ∧ Aborted s t 6 9 8) ∧
    (s.sinLen.toNat ≤ s.cfg.nMax → s.win = 0 → ∃ t, exec .lzc s = .next t ∧ Aborted s t 6 8 3) ∧
    ∀ i ∈ [Instr.build, .codes], ∀ t, exec i s = .next t → t.status.errCode ≠ 6

/-! ### Illegal words (R63) -/

/-- R63: an illegal instruction completes with `IllegalCommandError(stage 0, info v)` and changes
nothing else. The cleared command latch is the model's own (log 6). -/
def Obligations.IllegalInstructionReports : Prop :=
  ∀ (i : Instr) (s : State), isCommand i = false →
    exec i s = .next { s with status := { busy := false, done := true, err := true, empty := false,
                                          errCode := 8, stage := 0, op := s.status.op }
                              errInfo := encode i
                              cmdLatch := 0 }

/-- R63: a word with `v[31:4]` not 0, or with opcode 0 or 0xB to 0xF, written while idle: accepted and
completed at once, in the step of the write: `ERR`, `ERRCODE` 8, `STAGE` 0, `OP = v[3:0]`,
`REG.ERRINFO = v`, `DONE`, not busy, no buffer and no other register changed. That "at once" is the same
step is the model's choice (log 10, DEDUCED). Nothing is said of the model's own latch (log 6). -/
def Obligations.IllegalWordWrittenWhileIdle : Prop :=
  ∀ (s : State) (v : Word) (rest : List Event), s.status.busy = false → s.inputs = .regWrite 0 v :: rest →
    (v.extractLsb' 4 28 ≠ 0#28 ∨ (v.extractLsb' 0 4).toNat ∈ [0, 0xB, 0xC, 0xD, 0xE, 0xF]) →
    ∃ latch, step s =
      .next { s with inputs := rest
                     status := { busy := false, done := true, err := true, empty := false, errCode := 8,
                                 stage := 0, op := v.extractLsb' 0 4 }
                     errInfo := v
                     cmdLatch := latch }

/-! ### FREQ, BUILD and CODES -/

/-- R80: FREQ counts the symbols of `SIN`; the counts of the alphabet sum to their number. -/
def Obligations.FreqCountsSymbols : Prop :=
  ∀ s : State, s.sinLen.toNat ≤ s.cfg.nMax →
    ∃ t, exec .freq s = .next t ∧ Completed s t (s.sinLen == 0) ∧
      (∀ a, t.countAt a = s.inputSymbols.count a) ∧
      ((∀ a ∈ s.inputSymbols, a < s.cfg.alphabet) →
        ((List.range s.cfg.alphabet).map t.countAt).sum = s.sinLen.toNat)

/-- R83, R86: BUILD makes a WF_TREE whose leaves are the present symbols in increasing order with
their counts, and whose root carries the sum of all counts. -/
def Obligations.BuildMakesTree : Prop :=
  ∀ s : State, s.cfg.wf → s.presentSymbols ≠ [] →
    ∃ t, exec .build s = .next t ∧ Completed s t false ∧
      t.nnodes.toNat = 2 * s.presentSymbols.length - 1 ∧ t.root.toNat = t.nnodes.toNat - 1 ∧
      (∀ j (h : j < s.presentSymbols.length),
        t.nodeAt j = { kind := false, sym := s.presentSymbols[j], left := 0, right := 0,
                       weight := s.countAt s.presentSymbols[j] }) ∧
      WfTree s.cfg.alphabet t.nodeAt t.nnodes.toNat t.root.toNat ∧
      (t.nodeAt t.root.toNat).weight = ((List.range s.cfg.alphabet).map s.countAt).sum

/-- R84: every internal node of the tree BUILD makes merges the two lightest trees, the earliest among
equal weights, first removed to the left. -/
def Obligations.BuildMergesLightestFirst : Prop :=
  ∀ s t : State, s.cfg.wf → s.presentSymbols ≠ [] → exec .build s = .next t →
    ∀ k < t.nnodes.toNat, s.presentSymbols.length ≤ k →
      t.nodeAt k = { kind := true, sym := 0, left := (t.nodeAt k).left, right := (t.nodeAt k).right,
                     weight := (t.nodeAt (t.nodeAt k).left).weight + (t.nodeAt (t.nodeAt k).right).weight } ∧
      MergesFirstTwo t.nodeAt s.presentSymbols.length k

/-- R85: one present symbol makes a one-leaf tree, no present symbol is `EmptyInputError(stage 2,
info 0)` with no tree left and `FT` unchanged. -/
def Obligations.BuildOfOneOrNoSymbol : Prop :=
  (∀ (s : State) (a : Nat), s.presentSymbols = [a] →
      ∃ t, exec .build s = .next t ∧ Completed s t false ∧ t.nnodes = 1 ∧ t.root = 0 ∧
        t.nodeAt 0 = { kind := false, sym := a, left := 0, right := 0, weight := s.countAt a }) ∧
    ∀ s : State, (∀ a < s.cfg.alphabet, s.countAt a = 0) →
      ∃ t, exec .build s = .next t ∧ Aborted s t 1 2 0 ∧ t.nnodes = 0 ∧ t.root = 0 ∧ t.ft = s.ft ∧
        ∀ a, t.countAt a = s.countAt a

/-- R90: CODES gives every leaf's symbol the labels of its path, every other symbol an absent entry,
and writes 0 above each code. -/
def Obligations.CodesFollowPaths : Prop :=
  ∀ s : State, s.cfg.wf → s.treeOk → s.nnodes ≠ 0 →
    ∃ t, exec .codes s = .next t ∧ Completed s t false ∧
      (∀ j < (s.nnodes.toNat + 1) / 2,
        IsCodeOf s.nodeAt s.nnodes.toNat s.root.toNat j (t.codeOf (s.nodeAt j).sym)) ∧
      (∀ a, (∀ j < (s.nnodes.toNat + 1) / 2, (s.nodeAt j).sym ≠ a) → t.codeRecAt a = { len := 0, bits := 0 }) ∧
      ∀ a k, (t.codeRecAt a).len ≤ k → (t.codeRecAt a).bits.testBit k = false

/-- R91: the one symbol of a single-leaf tree gets the code "0", every other symbol is absent; in every
other tree each code is the path to its leaf. -/
def Obligations.SingleLeafCodeIsZero : Prop :=
  ∀ s : State, s.cfg.wf → s.treeOk →
    (s.nnodes = 1 →
      ∃ t, exec .codes s = .next t ∧ Completed s t false ∧
        (t.codeRecAt (s.nodeAt 0).sym).len = 1 ∧ (t.codeRecAt (s.nodeAt 0).sym).bits.testBit 0 = false ∧
        t.codeOf (s.nodeAt 0).sym = [false] ∧
        ∀ a, a ≠ (s.nodeAt 0).sym → (t.codeRecAt a).len = 0) ∧
    (s.nnodes ≠ 0 → s.nnodes ≠ 1 →
      ∃ t, exec .codes s = .next t ∧ Completed s t false ∧
        ∀ j < (s.nnodes.toNat + 1) / 2,
          PathTo s.nodeAt s.root.toNat (t.codeOf (s.nodeAt j).sym) j)

/-- R92: CODES without a tree is `EmptyInputError(stage 3, info 0)`, and the table is emptied. -/
def Obligations.CodesWithoutTree : Prop :=
  ∀ s : State, s.nnodes = 0 →
    ∃ t, exec .codes s = .next t ∧ Aborted s t 1 3 0 ∧ ∀ a, (t.codeRecAt a).len = 0

/-- R93 items 1 to 3: the codes of a table CODES makes are those of the leaves, no code is a prefix of
another, and each has 1 to `N-1` bits, or 1 bit for one leaf. -/
def Obligations.CodeTableIsPrefixFree : Prop :=
  ∀ s t : State, s.cfg.wf → s.treeOk → s.nnodes ≠ 0 → exec .codes s = .next t →
    WfCodeTable s.cfg.alphabet t.codeOf ∧
      (∀ a, 0 < (t.codeRecAt a).len ↔ ∃ j < (s.nnodes.toNat + 1) / 2, (s.nodeAt j).sym = a) ∧
      ∀ a, 0 < (t.codeRecAt a).len →
        (t.codeRecAt a).len ≤ max 1 ((s.nnodes.toNat + 1) / 2 - 1)

/-! ### ENC and HENC -/

/-- R95: ENC concatenates the codes of the symbols in order, with any table. -/
def Obligations.EncConcatenatesCodes : Prop :=
  ∀ s : State, s.cfg.wf → s.sinLen.toNat ≤ s.cfg.nMax → (∀ a ∈ s.inputSymbols, (s.codeRecAt a).len ≠ 0) →
    (s.inputSymbols.flatMap s.codeOf).length ≤ s.cfg.bMax →
    ∃ t, exec .enc s = .next t ∧ Completed s t (s.sinLen == 0) ∧
      t.bitSequence = s.inputSymbols.flatMap s.codeOf ∧
      t.bitLen.toNat = (s.inputSymbols.map fun a => (s.codeRecAt a).len).sum

/-- R95, R142, R148: at the first symbol at which something is wrong ENC reports a missing entry, else
a code that does not fit, with the symbol's index, and leaves no bits. -/
def Obligations.EncReportsFirstBadSymbol : Prop :=
  ∀ (s : State) (before after : List Nat) (b : Nat), s.sinLen.toNat ≤ s.cfg.nMax →
    s.inputSymbols = before ++ b :: after → (∀ a ∈ before, (s.codeRecAt a).len ≠ 0) →
    (before.flatMap s.codeOf).length ≤ s.cfg.bMax →
    ((s.codeRecAt b).len = 0 →
      ∃ t, exec .enc s = .next t ∧ Aborted s t 2 4 (BitVec.ofNat 32 before.length) ∧ t.bitLen = 0) ∧
    ((s.codeRecAt b).len ≠ 0 → s.cfg.bMax < (before.flatMap s.codeOf).length + (s.codeRecAt b).len →
      ∃ t, exec .enc s = .next t ∧ Aborted s t 7 4 (BitVec.ofNat 32 before.length) ∧ t.bitLen = 0)

/-- R98: HENC on a non-empty input leaves the counts, the tree, its prefix-free table and the encoded
bits; it completes whenever the input encoded with the table of its own counts fits `BITS`. -/
def Obligations.HencEncodesInput : Prop :=
  ∀ s : State, s.Inv → s.sinLen ≠ 0 → s.sinLen.toNat ≤ s.cfg.nMax →
    (s.inputSymbols.flatMap s.tableOfInput.codeOf).length ≤ s.cfg.bMax →
    ∃ t, exec .henc s = .next t ∧ Completed s t false ∧
      (∀ a, t.countAt a = s.inputSymbols.count a) ∧
      WfTree s.cfg.alphabet t.nodeAt t.nnodes.toNat t.root.toNat ∧
      (∀ j < (t.nnodes.toNat + 1) / 2,
        IsCodeOf t.nodeAt t.nnodes.toNat t.root.toNat j (t.codeOf (t.nodeAt j).sym)) ∧
      WfCodeTable s.cfg.alphabet t.codeOf ∧
      (∀ a, (t.codeRecAt a).len ≠ 0 ↔ a ∈ s.inputSymbols) ∧
      (∀ a, t.codeOf a = s.tableOfInput.codeOf a) ∧
      t.bitSequence = s.inputSymbols.flatMap t.codeOf

/-- R98, R142: on a non-empty input of legal length the state HENC leaves is exactly the state that FREQ,
BUILD, CODES, ENC in turn leave, where these encode it without error; where ENC ends in an error, it is
a code that does not fit, and HENC ends with the same `CapacityError(stage 4, info j)`. -/
def Obligations.HencIsTheChain : Prop :=
  ∀ s s1 s2 s3 s4 : State, s.Inv → s.sinLen ≠ 0 → exec .freq s = .next s1 → exec .build s1 = .next s2 →
    exec .codes s2 = .next s3 → exec .enc s3 = .next s4 →
    (s4.status.err = false → exec .henc s = .next s4) ∧
    (s1.status.err = false → s4.status.err = true →
      ∃ t, exec .henc s = .next t ∧ Aborted s t 7 4 s4.errInfo ∧ s4.status.errCode = 7 ∧ s4.status.stage = 4 ∧
        ∃ j < s.sinLen.toNat, s4.errInfo = BitVec.ofNat 32 j ∧
          ((s.inputSymbols.take j).flatMap s3.codeOf).length ≤ s.cfg.bMax ∧
          s.cfg.bMax < ((s.inputSymbols.take (j + 1)).flatMap s3.codeOf).length)

/-- R98, R151: HENC on empty input is no error: no tree, the empty table, the empty bit sequence,
`EMPTY` set. -/
def Obligations.HencOfEmptyInput : Prop :=
  ∀ s : State, s.sinLen = 0 →
    ∃ t, exec .henc s = .next t ∧ Completed s t true ∧ (∀ a, t.countAt a = 0) ∧ t.nnodes = 0 ∧ t.root = 0 ∧
      (∀ a, t.codeRecAt a = { len := 0, bits := 0 }) ∧ t.bitLen = 0

/-! ### PACK and UNPACK -/

/-- R100, R41: header and payload of PACK, bit by bit, most significant first, filler bits 0. -/
def Obligations.PackFramesBits : Prop :=
  ∀ s : State, s.cfg.wf → s.bitLen.toNat ≤ s.cfg.bMax →
    ∃ t, exec .pack s = .next t ∧ Completed s t (s.bitLen == 0) ∧
      (t.byteAt 0).toNat = (8 - s.bitLen.toNat % 8) % 8 ∧
      t.byteLen.toNat = 1 + (s.bitLen.toNat + 7) / 8 ∧
      ∀ i < 8 * (t.byteLen.toNat - 1),
        (t.byteAt (1 + i / 8)).getLsbD (7 - i % 8) = (decide (i < s.bitLen.toNat) && s.bitAt i)

/-- R101: what PACK guarantees; UNPACK of the result gives the bit sequence back. -/
def Obligations.PackGuarantees : Prop :=
  ∀ s : State, s.cfg.wf → s.bitLen.toNat ≤ s.cfg.bMax →
    ∃ t, exec .pack s = .next t ∧
      t.byteLen.toNat = 1 + (s.bitLen.toNat + 7) / 8 ∧
      (s.bitLen.toNat + (t.byteAt 0).toNat) % 8 = 0 ∧ (t.byteAt 0).toNat ≤ 7 ∧
      8 * (t.byteLen.toNat - 1) - (t.byteAt 0).toNat = s.bitLen.toNat ∧
      ∃ u, exec .unpack t = .next u ∧ Completed t u false ∧ u.bitSequence = s.bitSequence

/-- R106: PACK then UNPACK leaves the bit sequence; UNPACK then PACK gives back the bytes iff the removed
bits were all 0. -/
def Obligations.PackUnpackRoundTrip : Prop :=
  (∀ s : State, s.cfg.wf → s.bitLen.toNat ≤ s.cfg.bMax →
      ∃ t u, exec .pack s = .next t ∧ exec .unpack t = .next u ∧ u.bitSequence = s.bitSequence) ∧
    ∀ s t : State, s.cfg.wf → exec .unpack s = .next t → t.status.err = false →
      ∃ u, exec .pack t = .next u ∧
        (u.byteSequence = s.byteSequence ↔
          ∀ i, t.bitLen.toNat ≤ i → i < 8 * (s.byteLen.toNat - 1) →
            (s.byteAt (1 + i / 8)).getLsbD (7 - i % 8) = false)

/-- R105: UNPACK expands the payload and removes exactly `header` trailing bits. -/
def Obligations.UnpackExpandsPayload : Prop :=
  ∀ s : State, s.cfg.wf → s.byteLen.toNat ≤ s.cfg.byMax → s.byteLen ≠ 0 → (s.byteAt 0).toNat ≤ 7 →
    (s.byteAt 0).toNat ≤ 8 * (s.byteLen.toNat - 1) →
    ∃ t, exec .unpack s = .next t ∧ Completed s t false ∧
      t.bitLen.toNat = 8 * (s.byteLen.toNat - 1) - (s.byteAt 0).toNat ∧
      ∀ i < t.bitLen.toNat, t.bitAt i = (s.byteAt (1 + i / 8)).getLsbD (7 - i % 8)

/-- R105, R148: the malformed frames, in the order of the checks, and no bits left. -/
def Obligations.UnpackRejectsBadFrames : Prop :=
  ∀ s : State, s.byteLen.toNat ≤ s.cfg.byMax →
    (s.byteLen = 0 → ∃ t, exec .unpack s = .next t ∧ Aborted s t 5 7 0 ∧ t.bitLen = 0) ∧
    (s.byteLen ≠ 0 → 7 < (s.byteAt 0).toNat →
      ∃ t, exec .unpack s = .next t ∧ Aborted s t 5 7 1 ∧ t.bitLen = 0) ∧
    (s.byteLen ≠ 0 → (s.byteAt 0).toNat ≤ 7 → 8 * (s.byteLen.toNat - 1) < (s.byteAt 0).toNat →
      ∃ t, exec .unpack s = .next t ∧ Aborted s t 5 7 2 ∧ t.bitLen = 0)

/-! ### HDEC -/

/-- R108, R111: a concatenation of codes decodes to its symbols, with any table, for symbols that are the
first match of their codes (every symbol of a conforming table). -/
def Obligations.HdecDecodesCodes : Prop :=
  ∀ (s : State) (S : List Nat), s.cfg.wf → s.bitLen.toNat ≤ s.cfg.bMax → S.length ≤ s.cfg.nMax →
    (∀ a ∈ S, FirstMatch s.cfg.alphabet s.codeOf a) → s.bitSequence = S.flatMap s.codeOf →
    ∃ t, exec .hdec s = .next t ∧ Completed s t (s.bitLen == 0) ∧ t.outputSymbols = S

/-- R109: bits exhausted inside a candidate: `CorruptStreamError` if the candidate is a proper prefix of
an entry, `AlphabetMismatchError` if it is a prefix of none, with the index of its first bit. -/
def Obligations.HdecUnfinishedCandidate : Prop :=
  ∀ (s : State) (S : List Nat) (acc : List Bool), s.bitLen.toNat ≤ s.cfg.bMax → S.length ≤ s.cfg.nMax →
    (∀ a ∈ S, FirstMatch s.cfg.alphabet s.codeOf a) → s.bitSequence = S.flatMap s.codeOf ++ acc → acc ≠ [] →
    (∀ a < s.cfg.alphabet, s.codeOf a ≠ [] → ¬ s.codeOf a <+: acc) →
    ((∃ a < s.cfg.alphabet, acc <+: s.codeOf a) →
      ∃ t, exec .hdec s = .next t ∧
        Aborted s t 3 5 (BitVec.ofNat 32 (S.flatMap s.codeOf).length) ∧ t.soutLen = 0) ∧
    ((∀ a < s.cfg.alphabet, ¬ acc <+: s.codeOf a) →
      ∃ t, exec .hdec s = .next t ∧
        Aborted s t 2 5 (BitVec.ofNat 32 (S.flatMap s.codeOf).length) ∧ t.soutLen = 0)

/-- R108, R142: a symbol to be emitted when `SOUT` is full is `CapacityError` with the index of the first
bit of its code. -/
def Obligations.HdecCapacity : Prop :=
  ∀ (s : State) (S : List Nat) (a : Nat) (tail : List Bool), s.bitLen.toNat ≤ s.cfg.bMax →
    S.length = s.cfg.nMax → (∀ b ∈ a :: S, FirstMatch s.cfg.alphabet s.codeOf b) →
    s.bitSequence = S.flatMap s.codeOf ++ s.codeOf a ++ tail →
    ∃ t, exec .hdec s = .next t ∧
      Aborted s t 7 5 (BitVec.ofNat 32 (S.flatMap s.codeOf).length) ∧ t.soutLen = 0

/-- R112: HENC without error, then HDEC, restores the input; with PACK and UNPACK in between the same
holds. -/
def Obligations.HuffmanRoundTrip : Prop :=
  ∀ s t : State, s.Inv → exec .henc s = .next t → t.status.err = false →
    (∃ u, exec .hdec t = .next u ∧ u.status.err = false ∧ u.outputSymbols = s.inputSymbols) ∧
    ∃ p q u, exec .pack t = .next p ∧ exec .unpack p = .next q ∧ exec .hdec q = .next u ∧
      u.status.err = false ∧ u.outputSymbols = s.inputSymbols

/-! ### LZC and LZD -/

/-- R115 to R119: LZC emits the tags of the greedy rule. -/
def Obligations.LzcEmitsGreedyTags : Prop :=
  ∀ s : State, s.cfg.wf → s.sinLen.toNat ≤ s.cfg.nMax → s.win ≠ 0 →
    ∃ t, exec .lzc s = .next t ∧ Completed s t (s.sinLen == 0) ∧
      GreedyFrom s.inputSymbols s.win.toNat 0 t.tagSequence

/-- R117, R120: the match length of a candidate is the longest run in the modulo form, and equally the
longest common prefix of the two suffixes. -/
def Obligations.MatchLengthIsCommonRun : Prop :=
  ∀ (S : List Nat) (i c L : Nat), c < i → i + L ≤ S.length →
    i + matchLength S i c ≤ S.length ∧
    (L ≤ matchLength S i c ↔ ∀ k < L, S[i + k]? = S[c + k % (i - c)]?) ∧
    (L ≤ matchLength S i c ↔ ∀ k < L, S[i + k]? = S[c + k]?)

/-- R121 items 1 to 5: what holds of the tags LZC writes. -/
def Obligations.LzcTagGuarantees : Prop :=
  ∀ s t : State, s.cfg.wf → s.sinLen.toNat ≤ s.cfg.nMax → s.win ≠ 0 → exec .lzc s = .next t →
    produced t.tagSequence = s.sinLen.toNat ∧
      (∀ j, j + 1 < t.tagSequence.length → (t.tagAt j).hasLit = true) ∧
      (∀ j < t.tagSequence.length,
        ((t.tagAt j).dist = 0 ↔ (t.tagAt j).len = 0) ∧ ((t.tagAt j).len = 0 → (t.tagAt j).hasLit = true) ∧
        (t.tagAt j).dist ≤ s.win.toNat ∧ (t.tagAt j).dist ≤ produced (t.tagSequence.take j)) ∧
      (s.sinLen ≠ 0 → t.tagAt 0 = { dist := 0, len := 0, hasLit := true, lit := s.sinAt 0 })

/-- R125 to R127: LZD replays tags that are well formed where they stand and fit. -/
def Obligations.LzdReplaysTags : Prop :=
  ∀ s : State, s.cfg.wf → s.tagLen.toNat ≤ s.cfg.tMax → TagsOk s.cfg.nMax s.tagSequence →
    ∃ t, exec .lzd s = .next t ∧ Completed s t (s.tagLen == 0) ∧
      t.soutLen.toNat = produced s.tagSequence ∧ Replayed [] s.tagSequence t.outputSymbols

/-- R128: the first malformed tag, whatever its length, is `MalformedTagError` with its index, and the
output is discarded. -/
def Obligations.LzdRejectsMalformedTags : Prop :=
  ∀ (s : State) (before after : List TagRec) (t : TagRec), s.tagLen.toNat ≤ s.cfg.tMax →
    s.tagSequence = before ++ t :: after → TagsOk s.cfg.nMax before → t.malformed (produced before) →
    ∃ u, exec .lzd s = .next u ∧ Aborted s u 4 9 (BitVec.ofNat 32 before.length) ∧ u.soutLen = 0

/-- R125, R142, R148: the first tag whose output does not fit, if it is not malformed, is `CapacityError`
with its index. -/
def Obligations.LzdCapacity : Prop :=
  ∀ (s : State) (before after : List TagRec) (t : TagRec), s.tagLen.toNat ≤ s.cfg.tMax →
    s.tagSequence = before ++ t :: after → TagsOk s.cfg.nMax before → ¬ t.malformed (produced before) →
    s.cfg.nMax < produced before + t.len + t.hasLit.toNat →
    ∃ u, exec .lzd s = .next u ∧ Aborted s u 7 9 (BitVec.ofNat 32 before.length) ∧ u.soutLen = 0

/-- R121 item 7: LZD of the tags LZC writes restores the input, for every window of at least 1. -/
def Obligations.Lz77RoundTrip : Prop :=
  ∀ s : State, s.cfg.wf → s.sinLen.toNat ≤ s.cfg.nMax → s.win ≠ 0 →
    ∃ t u, exec .lzc s = .next t ∧ exec .lzd t = .next u ∧ u.status.err = false ∧
      u.outputSymbols = s.inputSymbols
end

