-- ==== Sys2Proof/Laws/Memory.lean ====
section
/-! SUPPORT. The laws of a buffer: read after write, the canonical form kept by every operation, and
equal contents are equal data. -/

namespace Sys2Proof.Machine

variable {α : Type}

/-! ### Cells -/

theorem lookupCell_insertCell (i k : Nat) (a : α) (l : List (Nat × α)) :
    lookupCell k (insertCell i a l) = if k = i then some a else lookupCell k l := by
  induction l with
  | nil => simp [insertCell, lookupCell]
  | cons c rest ih =>
    obtain ⟨j, b⟩ := c
    simp only [insertCell]
    split_ifs <;> simp_all [lookupCell]

theorem lookupCell_eraseCell (i k : Nat) (l : List (Nat × α)) :
    lookupCell k (eraseCell i l) = if k = i then none else lookupCell k l := by
  induction l with
  | nil => simp [eraseCell, lookupCell]
  | cons c rest ih =>
    obtain ⟨j, b⟩ := c
    simp only [eraseCell, lookupCell]
    split_ifs <;> simp_all [lookupCell]

theorem lookupCell_indexedFrom (xs : List α) (k i : Nat) :
    lookupCell i (indexedFrom k xs) = if k ≤ i then xs[i - k]? else none := by
  induction xs generalizing k with
  | nil => simp [indexedFrom, lookupCell]
  | cons x xs ih =>
    simp only [indexedFrom, lookupCell, ih]
    by_cases h : i = k
    · simp [h]
    · by_cases h' : k ≤ i
      · obtain ⟨d, rfl⟩ : ∃ d, i = k + 1 + d := ⟨i - (k + 1), by omega⟩
        have e : k + 1 + d - k = d + 1 := by omega
        simp [h, h', e]
      · have : ¬ k + 1 ≤ i := by omega
        simp [h, h', this]

theorem mem_insertCell {i : Nat} {a : α} {l : List (Nat × α)} {c : Nat × α}
    (h : c ∈ insertCell i a l) : c = (i, a) ∨ c ∈ l := by
  induction l with
  | nil => simpa [insertCell] using h
  | cons d rest ih =>
    obtain ⟨j, b⟩ := d
    simp only [insertCell] at h
    split_ifs at h <;> simp only [List.mem_cons] at h ⊢ <;> tauto

theorem mem_eraseCell {i : Nat} {l : List (Nat × α)} {c : Nat × α} (h : c ∈ eraseCell i l) : c ∈ l := by
  induction l with
  | nil => simp [eraseCell] at h
  | cons d rest ih =>
    obtain ⟨j, b⟩ := d
    simp only [eraseCell] at h
    split_ifs at h <;> simp only [List.mem_cons] at h ⊢ <;> tauto

theorem mem_indexedFrom {k : Nat} {xs : List α} {c : Nat × α} (h : c ∈ indexedFrom k xs) :
    k ≤ c.1 ∧ c.1 < k + xs.length ∧ c.2 ∈ xs := by
  induction xs generalizing k with
  | nil => simp [indexedFrom] at h
  | cons x xs ih =>
    simp only [indexedFrom, List.mem_cons] at h
    rcases h with rfl | h
    · simp
    · have := ih h
      simp only [List.length_cons, List.mem_cons]
      exact ⟨by omega, by omega, .inr this.2.2⟩

theorem lookupCell_mem {i : Nat} {a : α} {l : List (Nat × α)} (h : lookupCell i l = some a) :
    (i, a) ∈ l := by
  induction l with
  | nil => simp [lookupCell] at h
  | cons c rest ih =>
    obtain ⟨j, b⟩ := c
    simp only [lookupCell] at h
    split_ifs at h with hij
    · simp_all
    · exact List.mem_cons_of_mem _ (ih h)

theorem insertCell_rising {i : Nat} {a : α} {l : List (Nat × α)}
    (h : (l.map Prod.fst).Pairwise (· < ·)) : ((insertCell i a l).map Prod.fst).Pairwise (· < ·) := by
  induction l with
  | nil => simp [insertCell]
  | cons c rest ih =>
    obtain ⟨j, b⟩ := c
    simp only [List.map_cons, List.pairwise_cons] at h
    simp only [insertCell]
    split_ifs with h1 h2
    · simp only [List.map_cons, List.pairwise_cons, List.mem_cons]
      refine ⟨?_, h⟩
      rintro x (rfl | hx)
      · exact h1
      · exact h1.trans (h.1 x hx)
    · subst h2
      simpa using h
    · simp only [List.map_cons, List.pairwise_cons]
      refine ⟨fun x hx => ?_, ih h.2⟩
      obtain ⟨c, hc, rfl⟩ := List.mem_map.1 hx
      rcases mem_insertCell hc with rfl | hc
      · simp only
        omega
      · exact h.1 _ (List.mem_map_of_mem hc)

theorem eraseCell_sublist (i : Nat) (l : List (Nat × α)) : (eraseCell i l).Sublist l := by
  induction l with
  | nil => simp [eraseCell]
  | cons c rest ih =>
    obtain ⟨j, b⟩ := c
    simp only [eraseCell]
    split_ifs
    · exact ih.cons _
    · exact ih.cons_cons _

theorem indexedFrom_rising (k : Nat) (xs : List α) :
    ((indexedFrom k xs).map Prod.fst).Pairwise (· < ·) := by
  induction xs generalizing k with
  | nil => simp [indexedFrom]
  | cons x xs ih =>
    simp only [indexedFrom, List.map_cons, List.pairwise_cons]
    refine ⟨fun y hy => ?_, ih (k + 1)⟩
    obtain ⟨c, hc, rfl⟩ := List.mem_map.1 hy
    have := (mem_indexedFrom hc).1
    omega

/-! ### Reading -/

@[simp] theorem get?_set [DecidableEq α] (m : Memory α) (i k : Nat) (a : α) :
    (m.set i a).get? k = if k = i then some a else m.get? k := by
  by_cases hf : m.fill = some a
  · simp only [Memory.get?, Memory.set, hf, if_true, lookupCell_eraseCell]
    split_ifs <;> simp
  · simp only [Memory.get?, Memory.set, hf, if_false, lookupCell_insertCell]
    split_ifs <;> simp

@[simp] theorem get?_rewrite (m : Memory α) (xs : List α) (i : Nat) : (m.rewrite xs).get? i = xs[i]? := by
  simp only [Memory.get?, Memory.rewrite, lookupCell_indexedFrom, Nat.zero_le, if_true, Nat.sub_zero]
  cases xs[i]? <;> rfl

@[simp] theorem get?_wipe (m : Memory α) (i : Nat) : m.wipe.get? i = none := rfl

@[simp] theorem get?_clearTo (m : Memory α) (a : α) (i : Nat) : (m.clearTo a).get? i = some a := rfl

@[simp] theorem get?_unspecified (g i : Nat) : (Memory.unspecified g : Memory α).get? i = none := rfl

@[simp] theorem get?_constant (a : α) (g i : Nat) : (Memory.constant a g).get? i = some a := rfl

@[simp] theorem fill_set [DecidableEq α] (m : Memory α) (i : Nat) (a : α) : (m.set i a).fill = m.fill := rfl

@[simp] theorem gen_set [DecidableEq α] (m : Memory α) (i : Nat) (a : α) : (m.set i a).gen = m.gen := rfl

@[simp] theorem fill_rewrite (m : Memory α) (xs : List α) : (m.rewrite xs).fill = none := rfl

@[simp] theorem fill_wipe (m : Memory α) : m.wipe.fill = none := rfl

@[simp] theorem fill_clearTo (m : Memory α) (a : α) : (m.clearTo a).fill = some a := rfl

@[simp] theorem gen_rewrite (m : Memory α) (xs : List α) : (m.rewrite xs).gen = m.gen + 1 := rfl

@[simp] theorem gen_wipe (m : Memory α) : m.wipe.gen = m.gen + 1 := rfl

@[simp] theorem gen_clearTo (m : Memory α) (a : α) : (m.clearTo a).gen = m.gen + 1 := rfl

/-! ### The canonical form -/

variable [DecidableEq α]

theorem unspecified_wf (g : Nat) : (Memory.unspecified g : Memory α).wf := by
  simp [Memory.wf, Memory.unspecified]

theorem constant_wf (a : α) (g : Nat) : (Memory.constant a g).wf := by
  simp [Memory.wf, Memory.constant]

theorem wipe_wf (m : Memory α) : m.wipe.wf := unspecified_wf _

theorem clearTo_wf (m : Memory α) (a : α) : (m.clearTo a).wf := constant_wf a _

theorem rewrite_wf (m : Memory α) (xs : List α) : (m.rewrite xs).wf :=
  ⟨indexedFrom_rising 0 xs, by simp [Memory.rewrite]⟩

theorem set_wf {m : Memory α} (h : m.wf) (i : Nat) (a : α) : (m.set i a).wf := by
  by_cases hf : m.fill = some a
  · simp only [Memory.wf, Memory.set, hf, if_true]
    refine ⟨h.1.sublist ((eraseCell_sublist i _).map _), fun c hc => ?_⟩
    simpa [hf] using h.2 c (mem_eraseCell hc)
  · simp only [Memory.wf, Memory.set, hf, if_false]
    refine ⟨insertCell_rising h.1, fun c hc => ?_⟩
    rcases mem_insertCell hc with rfl | hc
    · exact hf
    · exact h.2 c hc

/-! ### Contents -/

theorem within_set {m : Memory α} {cap i : Nat} {ok : α → Prop} {a : α} (h : m.within cap ok)
    (hi : i < cap) (ha : ok a) : (m.set i a).within cap ok := by
  intro c hc
  simp only [Memory.set] at hc
  split_ifs at hc
  · exact h c (mem_eraseCell hc)
  · rcases mem_insertCell hc with rfl | hc
    · exact ⟨hi, ha⟩
    · exact h c hc

omit [DecidableEq α] in
theorem within_rewrite {m : Memory α} {cap : Nat} {ok : α → Prop} {xs : List α}
    (hlen : xs.length ≤ cap) (hok : ∀ x ∈ xs, ok x) : (m.rewrite xs).within cap ok := by
  intro c hc
  have := mem_indexedFrom (show c ∈ indexedFrom 0 xs from hc)
  exact ⟨by omega, hok _ this.2.2⟩

omit [DecidableEq α] in
theorem within_wipe (m : Memory α) (cap : Nat) (ok : α → Prop) : m.wipe.within cap ok := by
  simp [Memory.within, Memory.wipe, Memory.unspecified]

omit [DecidableEq α] in
theorem within_clearTo (m : Memory α) (a : α) (cap : Nat) (ok : α → Prop) :
    (m.clearTo a).within cap ok := by
  simp [Memory.within, Memory.clearTo, Memory.constant]

omit [DecidableEq α] in
/-- A specified element of a buffer within its widths has the width, or is what the rest holds. -/
theorem within_get? {m : Memory α} {cap i : Nat} {ok : α → Prop} {a : α} (h : m.within cap ok)
    (ha : m.get? i = some a) : ok a ∨ m.fill = some a := by
  simp only [Memory.get?] at ha
  split at ha
  · next b hb =>
    obtain rfl := Option.some.inj ha
    exact .inl (h _ (lookupCell_mem hb)).2
  · exact .inr ha

end Sys2Proof.Machine
end

