-- ==== Sys2Proof/Laws/State.lean ====
section
/-! SUPPORT. What each named update of State does to each field, true by unfolding, so that no proof
unfolds a record update. -/

namespace Sys2Proof.Machine

variable (s : State)

/-! ### acceptCommand -/

@[simp] theorem acceptCommand_cfg (v : Word) : (acceptCommand v s).cfg = s.cfg := rfl
@[simp] theorem acceptCommand_status (v : Word) : (acceptCommand v s).status = Status.accepted v := rfl
@[simp] theorem acceptCommand_errInfo (v : Word) : (acceptCommand v s).errInfo = 0 := rfl
@[simp] theorem acceptCommand_win (v : Word) : (acceptCommand v s).win = s.win := rfl
@[simp] theorem acceptCommand_sinLen (v : Word) : (acceptCommand v s).sinLen = s.sinLen := rfl
@[simp] theorem acceptCommand_soutLen (v : Word) : (acceptCommand v s).soutLen = s.soutLen := rfl
@[simp] theorem acceptCommand_bitLen (v : Word) : (acceptCommand v s).bitLen = s.bitLen := rfl
@[simp] theorem acceptCommand_byteLen (v : Word) : (acceptCommand v s).byteLen = s.byteLen := rfl
@[simp] theorem acceptCommand_tagLen (v : Word) : (acceptCommand v s).tagLen = s.tagLen := rfl
@[simp] theorem acceptCommand_nnodes (v : Word) : (acceptCommand v s).nnodes = s.nnodes := rfl
@[simp] theorem acceptCommand_root (v : Word) : (acceptCommand v s).root = s.root := rfl
@[simp] theorem acceptCommand_sin (v : Word) : (acceptCommand v s).sin = s.sin := rfl
@[simp] theorem acceptCommand_sout (v : Word) : (acceptCommand v s).sout = s.sout := rfl
@[simp] theorem acceptCommand_ft (v : Word) : (acceptCommand v s).ft = s.ft := rfl
@[simp] theorem acceptCommand_node (v : Word) : (acceptCommand v s).node = s.node := rfl
@[simp] theorem acceptCommand_ct (v : Word) : (acceptCommand v s).ct = s.ct := rfl
@[simp] theorem acceptCommand_bits (v : Word) : (acceptCommand v s).bits = s.bits := rfl
@[simp] theorem acceptCommand_bytes (v : Word) : (acceptCommand v s).bytes = s.bytes := rfl
@[simp] theorem acceptCommand_tags (v : Word) : (acceptCommand v s).tags = s.tags := rfl
@[simp] theorem acceptCommand_cmdLatch (v : Word) : (acceptCommand v s).cmdLatch = v := rfl
@[simp] theorem acceptCommand_inputs (v : Word) : (acceptCommand v s).inputs = s.inputs := rfl
@[simp] theorem acceptCommand_lastRead (v : Word) : (acceptCommand v s).lastRead = s.lastRead := rfl
@[simp] theorem acceptCommand_readCount (v : Word) : (acceptCommand v s).readCount = s.readCount := rfl

/-! ### reportIllegal -/

@[simp] theorem reportIllegal_status (v : Word) : (reportIllegal v s).status =
    s.status.aborted { kind := .illegalCommand, stage := 0, info := v } := rfl
@[simp] theorem reportIllegal_errInfo (v : Word) : (reportIllegal v s).errInfo = v := rfl
@[simp] theorem reportIllegal_cmdLatch (v : Word) : (reportIllegal v s).cmdLatch = 0 := rfl
@[simp] theorem reportIllegal_cfg (v : Word) : (reportIllegal v s).cfg = s.cfg := rfl
@[simp] theorem reportIllegal_win (v : Word) : (reportIllegal v s).win = s.win := rfl
@[simp] theorem reportIllegal_sinLen (v : Word) : (reportIllegal v s).sinLen = s.sinLen := rfl
@[simp] theorem reportIllegal_soutLen (v : Word) : (reportIllegal v s).soutLen = s.soutLen := rfl
@[simp] theorem reportIllegal_bitLen (v : Word) : (reportIllegal v s).bitLen = s.bitLen := rfl
@[simp] theorem reportIllegal_byteLen (v : Word) : (reportIllegal v s).byteLen = s.byteLen := rfl
@[simp] theorem reportIllegal_tagLen (v : Word) : (reportIllegal v s).tagLen = s.tagLen := rfl
@[simp] theorem reportIllegal_nnodes (v : Word) : (reportIllegal v s).nnodes = s.nnodes := rfl
@[simp] theorem reportIllegal_root (v : Word) : (reportIllegal v s).root = s.root := rfl
@[simp] theorem reportIllegal_sin (v : Word) : (reportIllegal v s).sin = s.sin := rfl
@[simp] theorem reportIllegal_sout (v : Word) : (reportIllegal v s).sout = s.sout := rfl
@[simp] theorem reportIllegal_ft (v : Word) : (reportIllegal v s).ft = s.ft := rfl
@[simp] theorem reportIllegal_node (v : Word) : (reportIllegal v s).node = s.node := rfl
@[simp] theorem reportIllegal_ct (v : Word) : (reportIllegal v s).ct = s.ct := rfl
@[simp] theorem reportIllegal_bits (v : Word) : (reportIllegal v s).bits = s.bits := rfl
@[simp] theorem reportIllegal_bytes (v : Word) : (reportIllegal v s).bytes = s.bytes := rfl
@[simp] theorem reportIllegal_tags (v : Word) : (reportIllegal v s).tags = s.tags := rfl
@[simp] theorem reportIllegal_inputs (v : Word) : (reportIllegal v s).inputs = s.inputs := rfl
@[simp] theorem reportIllegal_lastRead (v : Word) : (reportIllegal v s).lastRead = s.lastRead := rfl
@[simp] theorem reportIllegal_readCount (v : Word) : (reportIllegal v s).readCount = s.readCount := rfl

/-! ### completeCommand -/

@[simp] theorem completeCommand_cfg (e : Bool) : (completeCommand e s).cfg = s.cfg := rfl
@[simp] theorem completeCommand_status (e : Bool) : (completeCommand e s).status = s.status.completed e := rfl
@[simp] theorem completeCommand_errInfo (e : Bool) : (completeCommand e s).errInfo = 0 := rfl
@[simp] theorem completeCommand_win (e : Bool) : (completeCommand e s).win = s.win := rfl
@[simp] theorem completeCommand_sinLen (e : Bool) : (completeCommand e s).sinLen = s.sinLen := rfl
@[simp] theorem completeCommand_soutLen (e : Bool) : (completeCommand e s).soutLen = s.soutLen := rfl
@[simp] theorem completeCommand_bitLen (e : Bool) : (completeCommand e s).bitLen = s.bitLen := rfl
@[simp] theorem completeCommand_byteLen (e : Bool) : (completeCommand e s).byteLen = s.byteLen := rfl
@[simp] theorem completeCommand_tagLen (e : Bool) : (completeCommand e s).tagLen = s.tagLen := rfl
@[simp] theorem completeCommand_nnodes (e : Bool) : (completeCommand e s).nnodes = s.nnodes := rfl
@[simp] theorem completeCommand_root (e : Bool) : (completeCommand e s).root = s.root := rfl
@[simp] theorem completeCommand_sin (e : Bool) : (completeCommand e s).sin = s.sin := rfl
@[simp] theorem completeCommand_sout (e : Bool) : (completeCommand e s).sout = s.sout := rfl
@[simp] theorem completeCommand_ft (e : Bool) : (completeCommand e s).ft = s.ft := rfl
@[simp] theorem completeCommand_node (e : Bool) : (completeCommand e s).node = s.node := rfl
@[simp] theorem completeCommand_ct (e : Bool) : (completeCommand e s).ct = s.ct := rfl
@[simp] theorem completeCommand_bits (e : Bool) : (completeCommand e s).bits = s.bits := rfl
@[simp] theorem completeCommand_bytes (e : Bool) : (completeCommand e s).bytes = s.bytes := rfl
@[simp] theorem completeCommand_tags (e : Bool) : (completeCommand e s).tags = s.tags := rfl
@[simp] theorem completeCommand_cmdLatch (e : Bool) : (completeCommand e s).cmdLatch = 0 := rfl
@[simp] theorem completeCommand_inputs (e : Bool) : (completeCommand e s).inputs = s.inputs := rfl
@[simp] theorem completeCommand_lastRead (e : Bool) : (completeCommand e s).lastRead = s.lastRead := rfl
@[simp] theorem completeCommand_readCount (e : Bool) : (completeCommand e s).readCount = s.readCount := rfl

/-! ### writeFreqTable -/

@[simp] theorem writeFreqTable_cfg (m : Memory Nat) : (writeFreqTable m s).cfg = s.cfg := rfl
@[simp] theorem writeFreqTable_status (m : Memory Nat) : (writeFreqTable m s).status = s.status := rfl
@[simp] theorem writeFreqTable_errInfo (m : Memory Nat) : (writeFreqTable m s).errInfo = s.errInfo := rfl
@[simp] theorem writeFreqTable_win (m : Memory Nat) : (writeFreqTable m s).win = s.win := rfl
@[simp] theorem writeFreqTable_sinLen (m : Memory Nat) : (writeFreqTable m s).sinLen = s.sinLen := rfl
@[simp] theorem writeFreqTable_soutLen (m : Memory Nat) : (writeFreqTable m s).soutLen = s.soutLen := rfl
@[simp] theorem writeFreqTable_bitLen (m : Memory Nat) : (writeFreqTable m s).bitLen = s.bitLen := rfl
@[simp] theorem writeFreqTable_byteLen (m : Memory Nat) : (writeFreqTable m s).byteLen = s.byteLen := rfl
@[simp] theorem writeFreqTable_tagLen (m : Memory Nat) : (writeFreqTable m s).tagLen = s.tagLen := rfl
@[simp] theorem writeFreqTable_nnodes (m : Memory Nat) : (writeFreqTable m s).nnodes = s.nnodes := rfl
@[simp] theorem writeFreqTable_root (m : Memory Nat) : (writeFreqTable m s).root = s.root := rfl
@[simp] theorem writeFreqTable_sin (m : Memory Nat) : (writeFreqTable m s).sin = s.sin := rfl
@[simp] theorem writeFreqTable_sout (m : Memory Nat) : (writeFreqTable m s).sout = s.sout := rfl
@[simp] theorem writeFreqTable_ft (m : Memory Nat) : (writeFreqTable m s).ft = m := rfl
@[simp] theorem writeFreqTable_node (m : Memory Nat) : (writeFreqTable m s).node = s.node := rfl
@[simp] theorem writeFreqTable_ct (m : Memory Nat) : (writeFreqTable m s).ct = s.ct := rfl
@[simp] theorem writeFreqTable_bits (m : Memory Nat) : (writeFreqTable m s).bits = s.bits := rfl
@[simp] theorem writeFreqTable_bytes (m : Memory Nat) : (writeFreqTable m s).bytes = s.bytes := rfl
@[simp] theorem writeFreqTable_tags (m : Memory Nat) : (writeFreqTable m s).tags = s.tags := rfl
@[simp] theorem writeFreqTable_cmdLatch (m : Memory Nat) : (writeFreqTable m s).cmdLatch = s.cmdLatch := rfl
@[simp] theorem writeFreqTable_inputs (m : Memory Nat) : (writeFreqTable m s).inputs = s.inputs := rfl
@[simp] theorem writeFreqTable_lastRead (m : Memory Nat) : (writeFreqTable m s).lastRead = s.lastRead := rfl
@[simp] theorem writeFreqTable_readCount (m : Memory Nat) : (writeFreqTable m s).readCount = s.readCount :=
    rfl

/-! ### writeTree -/

@[simp] theorem writeTree_cfg (xs : List NodeRec) : (writeTree xs s).cfg = s.cfg := rfl
@[simp] theorem writeTree_status (xs : List NodeRec) : (writeTree xs s).status = s.status := rfl
@[simp] theorem writeTree_errInfo (xs : List NodeRec) : (writeTree xs s).errInfo = s.errInfo := rfl
@[simp] theorem writeTree_win (xs : List NodeRec) : (writeTree xs s).win = s.win := rfl
@[simp] theorem writeTree_sinLen (xs : List NodeRec) : (writeTree xs s).sinLen = s.sinLen := rfl
@[simp] theorem writeTree_soutLen (xs : List NodeRec) : (writeTree xs s).soutLen = s.soutLen := rfl
@[simp] theorem writeTree_bitLen (xs : List NodeRec) : (writeTree xs s).bitLen = s.bitLen := rfl
@[simp] theorem writeTree_byteLen (xs : List NodeRec) : (writeTree xs s).byteLen = s.byteLen := rfl
@[simp] theorem writeTree_tagLen (xs : List NodeRec) : (writeTree xs s).tagLen = s.tagLen := rfl
@[simp] theorem writeTree_nnodes (xs : List NodeRec) : (writeTree xs s).nnodes = BitVec.ofNat 32 xs.length :=
    rfl
@[simp] theorem writeTree_root (xs : List NodeRec) : (writeTree xs s).root = BitVec.ofNat 32 (xs.length - 1) :=
    rfl
@[simp] theorem writeTree_sin (xs : List NodeRec) : (writeTree xs s).sin = s.sin := rfl
@[simp] theorem writeTree_sout (xs : List NodeRec) : (writeTree xs s).sout = s.sout := rfl
@[simp] theorem writeTree_ft (xs : List NodeRec) : (writeTree xs s).ft = s.ft := rfl
@[simp] theorem writeTree_node (xs : List NodeRec) : (writeTree xs s).node = s.node.rewrite xs := rfl
@[simp] theorem writeTree_ct (xs : List NodeRec) : (writeTree xs s).ct = s.ct := rfl
@[simp] theorem writeTree_bits (xs : List NodeRec) : (writeTree xs s).bits = s.bits := rfl
@[simp] theorem writeTree_bytes (xs : List NodeRec) : (writeTree xs s).bytes = s.bytes := rfl
@[simp] theorem writeTree_tags (xs : List NodeRec) : (writeTree xs s).tags = s.tags := rfl
@[simp] theorem writeTree_cmdLatch (xs : List NodeRec) : (writeTree xs s).cmdLatch = s.cmdLatch := rfl
@[simp] theorem writeTree_inputs (xs : List NodeRec) : (writeTree xs s).inputs = s.inputs := rfl
@[simp] theorem writeTree_lastRead (xs : List NodeRec) : (writeTree xs s).lastRead = s.lastRead := rfl
@[simp] theorem writeTree_readCount (xs : List NodeRec) : (writeTree xs s).readCount = s.readCount := rfl

/-! ### writeCodeTable -/

@[simp] theorem writeCodeTable_cfg (xs : List (Nat × List Bool)) : (writeCodeTable xs s).cfg = s.cfg := rfl
@[simp] theorem writeCodeTable_status (xs : List (Nat × List Bool)) : (writeCodeTable xs s).status = s.status :=
    rfl
@[simp] theorem writeCodeTable_errInfo (xs : List (Nat × List Bool)) : (writeCodeTable xs s).errInfo = s.errInfo :=
    rfl
@[simp] theorem writeCodeTable_win (xs : List (Nat × List Bool)) : (writeCodeTable xs s).win = s.win := rfl
@[simp] theorem writeCodeTable_sinLen (xs : List (Nat × List Bool)) : (writeCodeTable xs s).sinLen = s.sinLen :=
    rfl
@[simp] theorem writeCodeTable_soutLen (xs : List (Nat × List Bool)) : (writeCodeTable xs s).soutLen = s.soutLen :=
    rfl
@[simp] theorem writeCodeTable_bitLen (xs : List (Nat × List Bool)) : (writeCodeTable xs s).bitLen = s.bitLen :=
    rfl
@[simp] theorem writeCodeTable_byteLen (xs : List (Nat × List Bool)) : (writeCodeTable xs s).byteLen = s.byteLen :=
    rfl
@[simp] theorem writeCodeTable_tagLen (xs : List (Nat × List Bool)) : (writeCodeTable xs s).tagLen = s.tagLen :=
    rfl
@[simp] theorem writeCodeTable_nnodes (xs : List (Nat × List Bool)) : (writeCodeTable xs s).nnodes = s.nnodes :=
    rfl
@[simp] theorem writeCodeTable_root (xs : List (Nat × List Bool)) : (writeCodeTable xs s).root = s.root := rfl
@[simp] theorem writeCodeTable_sin (xs : List (Nat × List Bool)) : (writeCodeTable xs s).sin = s.sin := rfl
@[simp] theorem writeCodeTable_sout (xs : List (Nat × List Bool)) : (writeCodeTable xs s).sout = s.sout := rfl
@[simp] theorem writeCodeTable_ft (xs : List (Nat × List Bool)) : (writeCodeTable xs s).ft = s.ft := rfl
@[simp] theorem writeCodeTable_node (xs : List (Nat × List Bool)) : (writeCodeTable xs s).node = s.node := rfl
@[simp] theorem writeCodeTable_ct (xs : List (Nat × List Bool)) : (writeCodeTable xs s).ct = xs.foldl (fun m c => m.set c.1 (CodeRec.ofCode c.2)) (s.ct.clearTo CodeRec.absent) :=
    rfl
@[simp] theorem writeCodeTable_bits (xs : List (Nat × List Bool)) : (writeCodeTable xs s).bits = s.bits := rfl
@[simp] theorem writeCodeTable_bytes (xs : List (Nat × List Bool)) : (writeCodeTable xs s).bytes = s.bytes :=
    rfl
@[simp] theorem writeCodeTable_tags (xs : List (Nat × List Bool)) : (writeCodeTable xs s).tags = s.tags := rfl
@[simp] theorem writeCodeTable_cmdLatch (xs : List (Nat × List Bool)) : (writeCodeTable xs s).cmdLatch = s.cmdLatch :=
    rfl
@[simp] theorem writeCodeTable_inputs (xs : List (Nat × List Bool)) : (writeCodeTable xs s).inputs = s.inputs :=
    rfl
@[simp] theorem writeCodeTable_lastRead (xs : List (Nat × List Bool)) : (writeCodeTable xs s).lastRead = s.lastRead :=
    rfl
@[simp] theorem writeCodeTable_readCount (xs : List (Nat × List Bool)) : (writeCodeTable xs s).readCount = s.readCount :=
    rfl

/-! ### writeBits -/

@[simp] theorem writeBits_cfg (xs : List Bool) : (writeBits xs s).cfg = s.cfg := rfl
@[simp] theorem writeBits_status (xs : List Bool) : (writeBits xs s).status = s.status := rfl
@[simp] theorem writeBits_errInfo (xs : List Bool) : (writeBits xs s).errInfo = s.errInfo := rfl
@[simp] theorem writeBits_win (xs : List Bool) : (writeBits xs s).win = s.win := rfl
@[simp] theorem writeBits_sinLen (xs : List Bool) : (writeBits xs s).sinLen = s.sinLen := rfl
@[simp] theorem writeBits_soutLen (xs : List Bool) : (writeBits xs s).soutLen = s.soutLen := rfl
@[simp] theorem writeBits_bitLen (xs : List Bool) : (writeBits xs s).bitLen = BitVec.ofNat 32 xs.length := rfl
@[simp] theorem writeBits_byteLen (xs : List Bool) : (writeBits xs s).byteLen = s.byteLen := rfl
@[simp] theorem writeBits_tagLen (xs : List Bool) : (writeBits xs s).tagLen = s.tagLen := rfl
@[simp] theorem writeBits_nnodes (xs : List Bool) : (writeBits xs s).nnodes = s.nnodes := rfl
@[simp] theorem writeBits_root (xs : List Bool) : (writeBits xs s).root = s.root := rfl
@[simp] theorem writeBits_sin (xs : List Bool) : (writeBits xs s).sin = s.sin := rfl
@[simp] theorem writeBits_sout (xs : List Bool) : (writeBits xs s).sout = s.sout := rfl
@[simp] theorem writeBits_ft (xs : List Bool) : (writeBits xs s).ft = s.ft := rfl
@[simp] theorem writeBits_node (xs : List Bool) : (writeBits xs s).node = s.node := rfl
@[simp] theorem writeBits_ct (xs : List Bool) : (writeBits xs s).ct = s.ct := rfl
@[simp] theorem writeBits_bits (xs : List Bool) : (writeBits xs s).bits = s.bits.rewrite xs := rfl
@[simp] theorem writeBits_bytes (xs : List Bool) : (writeBits xs s).bytes = s.bytes := rfl
@[simp] theorem writeBits_tags (xs : List Bool) : (writeBits xs s).tags = s.tags := rfl
@[simp] theorem writeBits_cmdLatch (xs : List Bool) : (writeBits xs s).cmdLatch = s.cmdLatch := rfl
@[simp] theorem writeBits_inputs (xs : List Bool) : (writeBits xs s).inputs = s.inputs := rfl
@[simp] theorem writeBits_lastRead (xs : List Bool) : (writeBits xs s).lastRead = s.lastRead := rfl
@[simp] theorem writeBits_readCount (xs : List Bool) : (writeBits xs s).readCount = s.readCount := rfl

/-! ### writeBytes -/

@[simp] theorem writeBytes_cfg (xs : List Byte) : (writeBytes xs s).cfg = s.cfg := rfl
@[simp] theorem writeBytes_status (xs : List Byte) : (writeBytes xs s).status = s.status := rfl
@[simp] theorem writeBytes_errInfo (xs : List Byte) : (writeBytes xs s).errInfo = s.errInfo := rfl
@[simp] theorem writeBytes_win (xs : List Byte) : (writeBytes xs s).win = s.win := rfl
@[simp] theorem writeBytes_sinLen (xs : List Byte) : (writeBytes xs s).sinLen = s.sinLen := rfl
@[simp] theorem writeBytes_soutLen (xs : List Byte) : (writeBytes xs s).soutLen = s.soutLen := rfl
@[simp] theorem writeBytes_bitLen (xs : List Byte) : (writeBytes xs s).bitLen = s.bitLen := rfl
@[simp] theorem writeBytes_byteLen (xs : List Byte) : (writeBytes xs s).byteLen = BitVec.ofNat 32 xs.length :=
    rfl
@[simp] theorem writeBytes_tagLen (xs : List Byte) : (writeBytes xs s).tagLen = s.tagLen := rfl
@[simp] theorem writeBytes_nnodes (xs : List Byte) : (writeBytes xs s).nnodes = s.nnodes := rfl
@[simp] theorem writeBytes_root (xs : List Byte) : (writeBytes xs s).root = s.root := rfl
@[simp] theorem writeBytes_sin (xs : List Byte) : (writeBytes xs s).sin = s.sin := rfl
@[simp] theorem writeBytes_sout (xs : List Byte) : (writeBytes xs s).sout = s.sout := rfl
@[simp] theorem writeBytes_ft (xs : List Byte) : (writeBytes xs s).ft = s.ft := rfl
@[simp] theorem writeBytes_node (xs : List Byte) : (writeBytes xs s).node = s.node := rfl
@[simp] theorem writeBytes_ct (xs : List Byte) : (writeBytes xs s).ct = s.ct := rfl
@[simp] theorem writeBytes_bits (xs : List Byte) : (writeBytes xs s).bits = s.bits := rfl
@[simp] theorem writeBytes_bytes (xs : List Byte) : (writeBytes xs s).bytes = s.bytes.rewrite xs := rfl
@[simp] theorem writeBytes_tags (xs : List Byte) : (writeBytes xs s).tags = s.tags := rfl
@[simp] theorem writeBytes_cmdLatch (xs : List Byte) : (writeBytes xs s).cmdLatch = s.cmdLatch := rfl
@[simp] theorem writeBytes_inputs (xs : List Byte) : (writeBytes xs s).inputs = s.inputs := rfl
@[simp] theorem writeBytes_lastRead (xs : List Byte) : (writeBytes xs s).lastRead = s.lastRead := rfl
@[simp] theorem writeBytes_readCount (xs : List Byte) : (writeBytes xs s).readCount = s.readCount := rfl

/-! ### writeTags -/

@[simp] theorem writeTags_cfg (xs : List TagRec) : (writeTags xs s).cfg = s.cfg := rfl
@[simp] theorem writeTags_status (xs : List TagRec) : (writeTags xs s).status = s.status := rfl
@[simp] theorem writeTags_errInfo (xs : List TagRec) : (writeTags xs s).errInfo = s.errInfo := rfl
@[simp] theorem writeTags_win (xs : List TagRec) : (writeTags xs s).win = s.win := rfl
@[simp] theorem writeTags_sinLen (xs : List TagRec) : (writeTags xs s).sinLen = s.sinLen := rfl
@[simp] theorem writeTags_soutLen (xs : List TagRec) : (writeTags xs s).soutLen = s.soutLen := rfl
@[simp] theorem writeTags_bitLen (xs : List TagRec) : (writeTags xs s).bitLen = s.bitLen := rfl
@[simp] theorem writeTags_byteLen (xs : List TagRec) : (writeTags xs s).byteLen = s.byteLen := rfl
@[simp] theorem writeTags_tagLen (xs : List TagRec) : (writeTags xs s).tagLen = BitVec.ofNat 32 xs.length :=
    rfl
@[simp] theorem writeTags_nnodes (xs : List TagRec) : (writeTags xs s).nnodes = s.nnodes := rfl
@[simp] theorem writeTags_root (xs : List TagRec) : (writeTags xs s).root = s.root := rfl
@[simp] theorem writeTags_sin (xs : List TagRec) : (writeTags xs s).sin = s.sin := rfl
@[simp] theorem writeTags_sout (xs : List TagRec) : (writeTags xs s).sout = s.sout := rfl
@[simp] theorem writeTags_ft (xs : List TagRec) : (writeTags xs s).ft = s.ft := rfl
@[simp] theorem writeTags_node (xs : List TagRec) : (writeTags xs s).node = s.node := rfl
@[simp] theorem writeTags_ct (xs : List TagRec) : (writeTags xs s).ct = s.ct := rfl
@[simp] theorem writeTags_bits (xs : List TagRec) : (writeTags xs s).bits = s.bits := rfl
@[simp] theorem writeTags_bytes (xs : List TagRec) : (writeTags xs s).bytes = s.bytes := rfl
@[simp] theorem writeTags_tags (xs : List TagRec) : (writeTags xs s).tags = s.tags.rewrite xs := rfl
@[simp] theorem writeTags_cmdLatch (xs : List TagRec) : (writeTags xs s).cmdLatch = s.cmdLatch := rfl
@[simp] theorem writeTags_inputs (xs : List TagRec) : (writeTags xs s).inputs = s.inputs := rfl
@[simp] theorem writeTags_lastRead (xs : List TagRec) : (writeTags xs s).lastRead = s.lastRead := rfl
@[simp] theorem writeTags_readCount (xs : List TagRec) : (writeTags xs s).readCount = s.readCount := rfl

/-! ### writeSymbols -/

@[simp] theorem writeSymbols_cfg (xs : List Nat) : (writeSymbols xs s).cfg = s.cfg := rfl
@[simp] theorem writeSymbols_status (xs : List Nat) : (writeSymbols xs s).status = s.status := rfl
@[simp] theorem writeSymbols_errInfo (xs : List Nat) : (writeSymbols xs s).errInfo = s.errInfo := rfl
@[simp] theorem writeSymbols_win (xs : List Nat) : (writeSymbols xs s).win = s.win := rfl
@[simp] theorem writeSymbols_sinLen (xs : List Nat) : (writeSymbols xs s).sinLen = s.sinLen := rfl
@[simp] theorem writeSymbols_soutLen (xs : List Nat) : (writeSymbols xs s).soutLen = BitVec.ofNat 32 xs.length :=
    rfl
@[simp] theorem writeSymbols_bitLen (xs : List Nat) : (writeSymbols xs s).bitLen = s.bitLen := rfl
@[simp] theorem writeSymbols_byteLen (xs : List Nat) : (writeSymbols xs s).byteLen = s.byteLen := rfl
@[simp] theorem writeSymbols_tagLen (xs : List Nat) : (writeSymbols xs s).tagLen = s.tagLen := rfl
@[simp] theorem writeSymbols_nnodes (xs : List Nat) : (writeSymbols xs s).nnodes = s.nnodes := rfl
@[simp] theorem writeSymbols_root (xs : List Nat) : (writeSymbols xs s).root = s.root := rfl
@[simp] theorem writeSymbols_sin (xs : List Nat) : (writeSymbols xs s).sin = s.sin := rfl
@[simp] theorem writeSymbols_sout (xs : List Nat) : (writeSymbols xs s).sout = s.sout.rewrite xs := rfl
@[simp] theorem writeSymbols_ft (xs : List Nat) : (writeSymbols xs s).ft = s.ft := rfl
@[simp] theorem writeSymbols_node (xs : List Nat) : (writeSymbols xs s).node = s.node := rfl
@[simp] theorem writeSymbols_ct (xs : List Nat) : (writeSymbols xs s).ct = s.ct := rfl
@[simp] theorem writeSymbols_bits (xs : List Nat) : (writeSymbols xs s).bits = s.bits := rfl
@[simp] theorem writeSymbols_bytes (xs : List Nat) : (writeSymbols xs s).bytes = s.bytes := rfl
@[simp] theorem writeSymbols_tags (xs : List Nat) : (writeSymbols xs s).tags = s.tags := rfl
@[simp] theorem writeSymbols_cmdLatch (xs : List Nat) : (writeSymbols xs s).cmdLatch = s.cmdLatch := rfl
@[simp] theorem writeSymbols_inputs (xs : List Nat) : (writeSymbols xs s).inputs = s.inputs := rfl
@[simp] theorem writeSymbols_lastRead (xs : List Nat) : (writeSymbols xs s).lastRead = s.lastRead := rfl
@[simp] theorem writeSymbols_readCount (xs : List Nat) : (writeSymbols xs s).readCount = s.readCount := rfl

/-! ### emptyFreqTable -/

@[simp] theorem emptyFreqTable_cfg : (emptyEntity s .freqTable).cfg = s.cfg := rfl
@[simp] theorem emptyFreqTable_status : (emptyEntity s .freqTable).status = s.status := rfl
@[simp] theorem emptyFreqTable_errInfo : (emptyEntity s .freqTable).errInfo = s.errInfo := rfl
@[simp] theorem emptyFreqTable_win : (emptyEntity s .freqTable).win = s.win := rfl
@[simp] theorem emptyFreqTable_sinLen : (emptyEntity s .freqTable).sinLen = s.sinLen := rfl
@[simp] theorem emptyFreqTable_soutLen : (emptyEntity s .freqTable).soutLen = s.soutLen := rfl
@[simp] theorem emptyFreqTable_bitLen : (emptyEntity s .freqTable).bitLen = s.bitLen := rfl
@[simp] theorem emptyFreqTable_byteLen : (emptyEntity s .freqTable).byteLen = s.byteLen := rfl
@[simp] theorem emptyFreqTable_tagLen : (emptyEntity s .freqTable).tagLen = s.tagLen := rfl
@[simp] theorem emptyFreqTable_nnodes : (emptyEntity s .freqTable).nnodes = s.nnodes := rfl
@[simp] theorem emptyFreqTable_root : (emptyEntity s .freqTable).root = s.root := rfl
@[simp] theorem emptyFreqTable_sin : (emptyEntity s .freqTable).sin = s.sin := rfl
@[simp] theorem emptyFreqTable_sout : (emptyEntity s .freqTable).sout = s.sout := rfl
@[simp] theorem emptyFreqTable_ft : (emptyEntity s .freqTable).ft = s.ft.clearTo 0 := rfl
@[simp] theorem emptyFreqTable_node : (emptyEntity s .freqTable).node = s.node := rfl
@[simp] theorem emptyFreqTable_ct : (emptyEntity s .freqTable).ct = s.ct := rfl
@[simp] theorem emptyFreqTable_bits : (emptyEntity s .freqTable).bits = s.bits := rfl
@[simp] theorem emptyFreqTable_bytes : (emptyEntity s .freqTable).bytes = s.bytes := rfl
@[simp] theorem emptyFreqTable_tags : (emptyEntity s .freqTable).tags = s.tags := rfl
@[simp] theorem emptyFreqTable_cmdLatch : (emptyEntity s .freqTable).cmdLatch = s.cmdLatch := rfl
@[simp] theorem emptyFreqTable_inputs : (emptyEntity s .freqTable).inputs = s.inputs := rfl
@[simp] theorem emptyFreqTable_lastRead : (emptyEntity s .freqTable).lastRead = s.lastRead := rfl
@[simp] theorem emptyFreqTable_readCount : (emptyEntity s .freqTable).readCount = s.readCount := rfl

/-! ### emptyTree -/

@[simp] theorem emptyTree_cfg : (emptyEntity s .tree).cfg = s.cfg := rfl
@[simp] theorem emptyTree_status : (emptyEntity s .tree).status = s.status := rfl
@[simp] theorem emptyTree_errInfo : (emptyEntity s .tree).errInfo = s.errInfo := rfl
@[simp] theorem emptyTree_win : (emptyEntity s .tree).win = s.win := rfl
@[simp] theorem emptyTree_sinLen : (emptyEntity s .tree).sinLen = s.sinLen := rfl
@[simp] theorem emptyTree_soutLen : (emptyEntity s .tree).soutLen = s.soutLen := rfl
@[simp] theorem emptyTree_bitLen : (emptyEntity s .tree).bitLen = s.bitLen := rfl
@[simp] theorem emptyTree_byteLen : (emptyEntity s .tree).byteLen = s.byteLen := rfl
@[simp] theorem emptyTree_tagLen : (emptyEntity s .tree).tagLen = s.tagLen := rfl
@[simp] theorem emptyTree_nnodes : (emptyEntity s .tree).nnodes = 0 := rfl
@[simp] theorem emptyTree_root : (emptyEntity s .tree).root = 0 := rfl
@[simp] theorem emptyTree_sin : (emptyEntity s .tree).sin = s.sin := rfl
@[simp] theorem emptyTree_sout : (emptyEntity s .tree).sout = s.sout := rfl
@[simp] theorem emptyTree_ft : (emptyEntity s .tree).ft = s.ft := rfl
@[simp] theorem emptyTree_node : (emptyEntity s .tree).node = s.node.wipe := rfl
@[simp] theorem emptyTree_ct : (emptyEntity s .tree).ct = s.ct := rfl
@[simp] theorem emptyTree_bits : (emptyEntity s .tree).bits = s.bits := rfl
@[simp] theorem emptyTree_bytes : (emptyEntity s .tree).bytes = s.bytes := rfl
@[simp] theorem emptyTree_tags : (emptyEntity s .tree).tags = s.tags := rfl
@[simp] theorem emptyTree_cmdLatch : (emptyEntity s .tree).cmdLatch = s.cmdLatch := rfl
@[simp] theorem emptyTree_inputs : (emptyEntity s .tree).inputs = s.inputs := rfl
@[simp] theorem emptyTree_lastRead : (emptyEntity s .tree).lastRead = s.lastRead := rfl
@[simp] theorem emptyTree_readCount : (emptyEntity s .tree).readCount = s.readCount := rfl

/-! ### emptyCodeTable -/

@[simp] theorem emptyCodeTable_cfg : (emptyEntity s .codeTable).cfg = s.cfg := rfl
@[simp] theorem emptyCodeTable_status : (emptyEntity s .codeTable).status = s.status := rfl
@[simp] theorem emptyCodeTable_errInfo : (emptyEntity s .codeTable).errInfo = s.errInfo := rfl
@[simp] theorem emptyCodeTable_win : (emptyEntity s .codeTable).win = s.win := rfl
@[simp] theorem emptyCodeTable_sinLen : (emptyEntity s .codeTable).sinLen = s.sinLen := rfl
@[simp] theorem emptyCodeTable_soutLen : (emptyEntity s .codeTable).soutLen = s.soutLen := rfl
@[simp] theorem emptyCodeTable_bitLen : (emptyEntity s .codeTable).bitLen = s.bitLen := rfl
@[simp] theorem emptyCodeTable_byteLen : (emptyEntity s .codeTable).byteLen = s.byteLen := rfl
@[simp] theorem emptyCodeTable_tagLen : (emptyEntity s .codeTable).tagLen = s.tagLen := rfl
@[simp] theorem emptyCodeTable_nnodes : (emptyEntity s .codeTable).nnodes = s.nnodes := rfl
@[simp] theorem emptyCodeTable_root : (emptyEntity s .codeTable).root = s.root := rfl
@[simp] theorem emptyCodeTable_sin : (emptyEntity s .codeTable).sin = s.sin := rfl
@[simp] theorem emptyCodeTable_sout : (emptyEntity s .codeTable).sout = s.sout := rfl
@[simp] theorem emptyCodeTable_ft : (emptyEntity s .codeTable).ft = s.ft := rfl
@[simp] theorem emptyCodeTable_node : (emptyEntity s .codeTable).node = s.node := rfl
@[simp] theorem emptyCodeTable_ct : (emptyEntity s .codeTable).ct = s.ct.wipe := rfl
@[simp] theorem emptyCodeTable_bits : (emptyEntity s .codeTable).bits = s.bits := rfl
@[simp] theorem emptyCodeTable_bytes : (emptyEntity s .codeTable).bytes = s.bytes := rfl
@[simp] theorem emptyCodeTable_tags : (emptyEntity s .codeTable).tags = s.tags := rfl
@[simp] theorem emptyCodeTable_cmdLatch : (emptyEntity s .codeTable).cmdLatch = s.cmdLatch := rfl
@[simp] theorem emptyCodeTable_inputs : (emptyEntity s .codeTable).inputs = s.inputs := rfl
@[simp] theorem emptyCodeTable_lastRead : (emptyEntity s .codeTable).lastRead = s.lastRead := rfl
@[simp] theorem emptyCodeTable_readCount : (emptyEntity s .codeTable).readCount = s.readCount := rfl

/-! ### emptyBitSeq -/

@[simp] theorem emptyBitSeq_cfg : (emptyEntity s .bitSeq).cfg = s.cfg := rfl
@[simp] theorem emptyBitSeq_status : (emptyEntity s .bitSeq).status = s.status := rfl
@[simp] theorem emptyBitSeq_errInfo : (emptyEntity s .bitSeq).errInfo = s.errInfo := rfl
@[simp] theorem emptyBitSeq_win : (emptyEntity s .bitSeq).win = s.win := rfl
@[simp] theorem emptyBitSeq_sinLen : (emptyEntity s .bitSeq).sinLen = s.sinLen := rfl
@[simp] theorem emptyBitSeq_soutLen : (emptyEntity s .bitSeq).soutLen = s.soutLen := rfl
@[simp] theorem emptyBitSeq_bitLen : (emptyEntity s .bitSeq).bitLen = 0 := rfl
@[simp] theorem emptyBitSeq_byteLen : (emptyEntity s .bitSeq).byteLen = s.byteLen := rfl
@[simp] theorem emptyBitSeq_tagLen : (emptyEntity s .bitSeq).tagLen = s.tagLen := rfl
@[simp] theorem emptyBitSeq_nnodes : (emptyEntity s .bitSeq).nnodes = s.nnodes := rfl
@[simp] theorem emptyBitSeq_root : (emptyEntity s .bitSeq).root = s.root := rfl
@[simp] theorem emptyBitSeq_sin : (emptyEntity s .bitSeq).sin = s.sin := rfl
@[simp] theorem emptyBitSeq_sout : (emptyEntity s .bitSeq).sout = s.sout := rfl
@[simp] theorem emptyBitSeq_ft : (emptyEntity s .bitSeq).ft = s.ft := rfl
@[simp] theorem emptyBitSeq_node : (emptyEntity s .bitSeq).node = s.node := rfl
@[simp] theorem emptyBitSeq_ct : (emptyEntity s .bitSeq).ct = s.ct := rfl
@[simp] theorem emptyBitSeq_bits : (emptyEntity s .bitSeq).bits = s.bits.wipe := rfl
@[simp] theorem emptyBitSeq_bytes : (emptyEntity s .bitSeq).bytes = s.bytes := rfl
@[simp] theorem emptyBitSeq_tags : (emptyEntity s .bitSeq).tags = s.tags := rfl
@[simp] theorem emptyBitSeq_cmdLatch : (emptyEntity s .bitSeq).cmdLatch = s.cmdLatch := rfl
@[simp] theorem emptyBitSeq_inputs : (emptyEntity s .bitSeq).inputs = s.inputs := rfl
@[simp] theorem emptyBitSeq_lastRead : (emptyEntity s .bitSeq).lastRead = s.lastRead := rfl
@[simp] theorem emptyBitSeq_readCount : (emptyEntity s .bitSeq).readCount = s.readCount := rfl

/-! ### emptyByteSeq -/

@[simp] theorem emptyByteSeq_cfg : (emptyEntity s .byteSeq).cfg = s.cfg := rfl
@[simp] theorem emptyByteSeq_status : (emptyEntity s .byteSeq).status = s.status := rfl
@[simp] theorem emptyByteSeq_errInfo : (emptyEntity s .byteSeq).errInfo = s.errInfo := rfl
@[simp] theorem emptyByteSeq_win : (emptyEntity s .byteSeq).win = s.win := rfl
@[simp] theorem emptyByteSeq_sinLen : (emptyEntity s .byteSeq).sinLen = s.sinLen := rfl
@[simp] theorem emptyByteSeq_soutLen : (emptyEntity s .byteSeq).soutLen = s.soutLen := rfl
@[simp] theorem emptyByteSeq_bitLen : (emptyEntity s .byteSeq).bitLen = s.bitLen := rfl
@[simp] theorem emptyByteSeq_byteLen : (emptyEntity s .byteSeq).byteLen = 0 := rfl
@[simp] theorem emptyByteSeq_tagLen : (emptyEntity s .byteSeq).tagLen = s.tagLen := rfl
@[simp] theorem emptyByteSeq_nnodes : (emptyEntity s .byteSeq).nnodes = s.nnodes := rfl
@[simp] theorem emptyByteSeq_root : (emptyEntity s .byteSeq).root = s.root := rfl
@[simp] theorem emptyByteSeq_sin : (emptyEntity s .byteSeq).sin = s.sin := rfl
@[simp] theorem emptyByteSeq_sout : (emptyEntity s .byteSeq).sout = s.sout := rfl
@[simp] theorem emptyByteSeq_ft : (emptyEntity s .byteSeq).ft = s.ft := rfl
@[simp] theorem emptyByteSeq_node : (emptyEntity s .byteSeq).node = s.node := rfl
@[simp] theorem emptyByteSeq_ct : (emptyEntity s .byteSeq).ct = s.ct := rfl
@[simp] theorem emptyByteSeq_bits : (emptyEntity s .byteSeq).bits = s.bits := rfl
@[simp] theorem emptyByteSeq_bytes : (emptyEntity s .byteSeq).bytes = s.bytes.wipe := rfl
@[simp] theorem emptyByteSeq_tags : (emptyEntity s .byteSeq).tags = s.tags := rfl
@[simp] theorem emptyByteSeq_cmdLatch : (emptyEntity s .byteSeq).cmdLatch = s.cmdLatch := rfl
@[simp] theorem emptyByteSeq_inputs : (emptyEntity s .byteSeq).inputs = s.inputs := rfl
@[simp] theorem emptyByteSeq_lastRead : (emptyEntity s .byteSeq).lastRead = s.lastRead := rfl
@[simp] theorem emptyByteSeq_readCount : (emptyEntity s .byteSeq).readCount = s.readCount := rfl

/-! ### emptyTagSeq -/

@[simp] theorem emptyTagSeq_cfg : (emptyEntity s .tagSeq).cfg = s.cfg := rfl
@[simp] theorem emptyTagSeq_status : (emptyEntity s .tagSeq).status = s.status := rfl
@[simp] theorem emptyTagSeq_errInfo : (emptyEntity s .tagSeq).errInfo = s.errInfo := rfl
@[simp] theorem emptyTagSeq_win : (emptyEntity s .tagSeq).win = s.win := rfl
@[simp] theorem emptyTagSeq_sinLen : (emptyEntity s .tagSeq).sinLen = s.sinLen := rfl
@[simp] theorem emptyTagSeq_soutLen : (emptyEntity s .tagSeq).soutLen = s.soutLen := rfl
@[simp] theorem emptyTagSeq_bitLen : (emptyEntity s .tagSeq).bitLen = s.bitLen := rfl
@[simp] theorem emptyTagSeq_byteLen : (emptyEntity s .tagSeq).byteLen = s.byteLen := rfl
@[simp] theorem emptyTagSeq_tagLen : (emptyEntity s .tagSeq).tagLen = 0 := rfl
@[simp] theorem emptyTagSeq_nnodes : (emptyEntity s .tagSeq).nnodes = s.nnodes := rfl
@[simp] theorem emptyTagSeq_root : (emptyEntity s .tagSeq).root = s.root := rfl
@[simp] theorem emptyTagSeq_sin : (emptyEntity s .tagSeq).sin = s.sin := rfl
@[simp] theorem emptyTagSeq_sout : (emptyEntity s .tagSeq).sout = s.sout := rfl
@[simp] theorem emptyTagSeq_ft : (emptyEntity s .tagSeq).ft = s.ft := rfl
@[simp] theorem emptyTagSeq_node : (emptyEntity s .tagSeq).node = s.node := rfl
@[simp] theorem emptyTagSeq_ct : (emptyEntity s .tagSeq).ct = s.ct := rfl
@[simp] theorem emptyTagSeq_bits : (emptyEntity s .tagSeq).bits = s.bits := rfl
@[simp] theorem emptyTagSeq_bytes : (emptyEntity s .tagSeq).bytes = s.bytes := rfl
@[simp] theorem emptyTagSeq_tags : (emptyEntity s .tagSeq).tags = s.tags.wipe := rfl
@[simp] theorem emptyTagSeq_cmdLatch : (emptyEntity s .tagSeq).cmdLatch = s.cmdLatch := rfl
@[simp] theorem emptyTagSeq_inputs : (emptyEntity s .tagSeq).inputs = s.inputs := rfl
@[simp] theorem emptyTagSeq_lastRead : (emptyEntity s .tagSeq).lastRead = s.lastRead := rfl
@[simp] theorem emptyTagSeq_readCount : (emptyEntity s .tagSeq).readCount = s.readCount := rfl

/-! ### emptySymbolSeq -/

@[simp] theorem emptySymbolSeq_cfg : (emptyEntity s .symbolSeq).cfg = s.cfg := rfl
@[simp] theorem emptySymbolSeq_status : (emptyEntity s .symbolSeq).status = s.status := rfl
@[simp] theorem emptySymbolSeq_errInfo : (emptyEntity s .symbolSeq).errInfo = s.errInfo := rfl
@[simp] theorem emptySymbolSeq_win : (emptyEntity s .symbolSeq).win = s.win := rfl
@[simp] theorem emptySymbolSeq_sinLen : (emptyEntity s .symbolSeq).sinLen = s.sinLen := rfl
@[simp] theorem emptySymbolSeq_soutLen : (emptyEntity s .symbolSeq).soutLen = 0 := rfl
@[simp] theorem emptySymbolSeq_bitLen : (emptyEntity s .symbolSeq).bitLen = s.bitLen := rfl
@[simp] theorem emptySymbolSeq_byteLen : (emptyEntity s .symbolSeq).byteLen = s.byteLen := rfl
@[simp] theorem emptySymbolSeq_tagLen : (emptyEntity s .symbolSeq).tagLen = s.tagLen := rfl
@[simp] theorem emptySymbolSeq_nnodes : (emptyEntity s .symbolSeq).nnodes = s.nnodes := rfl
@[simp] theorem emptySymbolSeq_root : (emptyEntity s .symbolSeq).root = s.root := rfl
@[simp] theorem emptySymbolSeq_sin : (emptyEntity s .symbolSeq).sin = s.sin := rfl
@[simp] theorem emptySymbolSeq_sout : (emptyEntity s .symbolSeq).sout = s.sout.wipe := rfl
@[simp] theorem emptySymbolSeq_ft : (emptyEntity s .symbolSeq).ft = s.ft := rfl
@[simp] theorem emptySymbolSeq_node : (emptyEntity s .symbolSeq).node = s.node := rfl
@[simp] theorem emptySymbolSeq_ct : (emptyEntity s .symbolSeq).ct = s.ct := rfl
@[simp] theorem emptySymbolSeq_bits : (emptyEntity s .symbolSeq).bits = s.bits := rfl
@[simp] theorem emptySymbolSeq_bytes : (emptyEntity s .symbolSeq).bytes = s.bytes := rfl
@[simp] theorem emptySymbolSeq_tags : (emptyEntity s .symbolSeq).tags = s.tags := rfl
@[simp] theorem emptySymbolSeq_cmdLatch : (emptyEntity s .symbolSeq).cmdLatch = s.cmdLatch := rfl
@[simp] theorem emptySymbolSeq_inputs : (emptyEntity s .symbolSeq).inputs = s.inputs := rfl
@[simp] theorem emptySymbolSeq_lastRead : (emptyEntity s .symbolSeq).lastRead = s.lastRead := rfl
@[simp] theorem emptySymbolSeq_readCount : (emptyEntity s .symbolSeq).readCount = s.readCount := rfl

/-! ### raiseError -/

@[simp] theorem raiseError_cfg (ds : List Entity) (e : CmdError) : (raiseError ds e s).cfg = (emptyEntities ds s).cfg :=
    rfl
@[simp] theorem raiseError_status (ds : List Entity) (e : CmdError) : (raiseError ds e s).status = s.status.aborted e :=
    rfl
@[simp] theorem raiseError_errInfo (ds : List Entity) (e : CmdError) : (raiseError ds e s).errInfo = e.info :=
    rfl
@[simp] theorem raiseError_win (ds : List Entity) (e : CmdError) : (raiseError ds e s).win = (emptyEntities ds s).win :=
    rfl
@[simp] theorem raiseError_sinLen (ds : List Entity) (e : CmdError) : (raiseError ds e s).sinLen = (emptyEntities ds s).sinLen :=
    rfl
@[simp] theorem raiseError_soutLen (ds : List Entity) (e : CmdError) : (raiseError ds e s).soutLen = (emptyEntities ds s).soutLen :=
    rfl
@[simp] theorem raiseError_bitLen (ds : List Entity) (e : CmdError) : (raiseError ds e s).bitLen = (emptyEntities ds s).bitLen :=
    rfl
@[simp] theorem raiseError_byteLen (ds : List Entity) (e : CmdError) : (raiseError ds e s).byteLen = (emptyEntities ds s).byteLen :=
    rfl
@[simp] theorem raiseError_tagLen (ds : List Entity) (e : CmdError) : (raiseError ds e s).tagLen = (emptyEntities ds s).tagLen :=
    rfl
@[simp] theorem raiseError_nnodes (ds : List Entity) (e : CmdError) : (raiseError ds e s).nnodes = (emptyEntities ds s).nnodes :=
    rfl
@[simp] theorem raiseError_root (ds : List Entity) (e : CmdError) : (raiseError ds e s).root = (emptyEntities ds s).root :=
    rfl
@[simp] theorem raiseError_sin (ds : List Entity) (e : CmdError) : (raiseError ds e s).sin = (emptyEntities ds s).sin :=
    rfl
@[simp] theorem raiseError_sout (ds : List Entity) (e : CmdError) : (raiseError ds e s).sout = (emptyEntities ds s).sout :=
    rfl
@[simp] theorem raiseError_ft (ds : List Entity) (e : CmdError) : (raiseError ds e s).ft = (emptyEntities ds s).ft :=
    rfl
@[simp] theorem raiseError_node (ds : List Entity) (e : CmdError) : (raiseError ds e s).node = (emptyEntities ds s).node :=
    rfl
@[simp] theorem raiseError_ct (ds : List Entity) (e : CmdError) : (raiseError ds e s).ct = (emptyEntities ds s).ct :=
    rfl
@[simp] theorem raiseError_bits (ds : List Entity) (e : CmdError) : (raiseError ds e s).bits = (emptyEntities ds s).bits :=
    rfl
@[simp] theorem raiseError_bytes (ds : List Entity) (e : CmdError) : (raiseError ds e s).bytes = (emptyEntities ds s).bytes :=
    rfl
@[simp] theorem raiseError_tags (ds : List Entity) (e : CmdError) : (raiseError ds e s).tags = (emptyEntities ds s).tags :=
    rfl
@[simp] theorem raiseError_cmdLatch (ds : List Entity) (e : CmdError) : (raiseError ds e s).cmdLatch = 0 :=
    rfl
@[simp] theorem raiseError_inputs (ds : List Entity) (e : CmdError) : (raiseError ds e s).inputs = (emptyEntities ds s).inputs :=
    rfl
@[simp] theorem raiseError_lastRead (ds : List Entity) (e : CmdError) : (raiseError ds e s).lastRead = (emptyEntities ds s).lastRead :=
    rfl
@[simp] theorem raiseError_readCount (ds : List Entity) (e : CmdError) : (raiseError ds e s).readCount = (emptyEntities ds s).readCount :=
    rfl

/-! ### loadCommand -/

@[simp] theorem loadCommand_cfg (v : Word) : (loadCommand v s).cfg = s.cfg := rfl
@[simp] theorem loadCommand_status (v : Word) : (loadCommand v s).status = Status.accepted v := rfl
@[simp] theorem loadCommand_errInfo (v : Word) : (loadCommand v s).errInfo = 0 := rfl
@[simp] theorem loadCommand_win (v : Word) : (loadCommand v s).win = s.win := rfl
@[simp] theorem loadCommand_sinLen (v : Word) : (loadCommand v s).sinLen = s.sinLen := rfl
@[simp] theorem loadCommand_soutLen (v : Word) : (loadCommand v s).soutLen = s.soutLen := rfl
@[simp] theorem loadCommand_bitLen (v : Word) : (loadCommand v s).bitLen = s.bitLen := rfl
@[simp] theorem loadCommand_byteLen (v : Word) : (loadCommand v s).byteLen = s.byteLen := rfl
@[simp] theorem loadCommand_tagLen (v : Word) : (loadCommand v s).tagLen = s.tagLen := rfl
@[simp] theorem loadCommand_nnodes (v : Word) : (loadCommand v s).nnodes = s.nnodes := rfl
@[simp] theorem loadCommand_root (v : Word) : (loadCommand v s).root = s.root := rfl
@[simp] theorem loadCommand_sin (v : Word) : (loadCommand v s).sin = s.sin := rfl
@[simp] theorem loadCommand_sout (v : Word) : (loadCommand v s).sout = s.sout := rfl
@[simp] theorem loadCommand_ft (v : Word) : (loadCommand v s).ft = s.ft := rfl
@[simp] theorem loadCommand_node (v : Word) : (loadCommand v s).node = s.node := rfl
@[simp] theorem loadCommand_ct (v : Word) : (loadCommand v s).ct = s.ct := rfl
@[simp] theorem loadCommand_bits (v : Word) : (loadCommand v s).bits = s.bits := rfl
@[simp] theorem loadCommand_bytes (v : Word) : (loadCommand v s).bytes = s.bytes := rfl
@[simp] theorem loadCommand_tags (v : Word) : (loadCommand v s).tags = s.tags := rfl
@[simp] theorem loadCommand_cmdLatch (v : Word) : (loadCommand v s).cmdLatch = v := rfl
@[simp] theorem loadCommand_inputs (v : Word) : (loadCommand v s).inputs = .complete :: s.inputs := rfl
@[simp] theorem loadCommand_lastRead (v : Word) : (loadCommand v s).lastRead = s.lastRead := rfl
@[simp] theorem loadCommand_readCount (v : Word) : (loadCommand v s).readCount = s.readCount := rfl

/-! ### resetBlock -/

@[simp] theorem resetBlock_cfg : (resetBlock s).cfg = s.cfg := rfl
@[simp] theorem resetBlock_status : (resetBlock s).status = Status.cleared := rfl
@[simp] theorem resetBlock_errInfo : (resetBlock s).errInfo = 0 := rfl
@[simp] theorem resetBlock_win : (resetBlock s).win = 0 := rfl
@[simp] theorem resetBlock_sinLen : (resetBlock s).sinLen = 0 := rfl
@[simp] theorem resetBlock_soutLen : (resetBlock s).soutLen = 0 := rfl
@[simp] theorem resetBlock_bitLen : (resetBlock s).bitLen = 0 := rfl
@[simp] theorem resetBlock_byteLen : (resetBlock s).byteLen = 0 := rfl
@[simp] theorem resetBlock_tagLen : (resetBlock s).tagLen = 0 := rfl
@[simp] theorem resetBlock_nnodes : (resetBlock s).nnodes = 0 := rfl
@[simp] theorem resetBlock_root : (resetBlock s).root = 0 := rfl
@[simp] theorem resetBlock_sin : (resetBlock s).sin = s.sin.wipe := rfl
@[simp] theorem resetBlock_sout : (resetBlock s).sout = s.sout.wipe := rfl
@[simp] theorem resetBlock_ft : (resetBlock s).ft = s.ft.clearTo 0 := rfl
@[simp] theorem resetBlock_node : (resetBlock s).node = s.node.wipe := rfl
@[simp] theorem resetBlock_ct : (resetBlock s).ct = s.ct.wipe := rfl
@[simp] theorem resetBlock_bits : (resetBlock s).bits = s.bits.wipe := rfl
@[simp] theorem resetBlock_bytes : (resetBlock s).bytes = s.bytes.wipe := rfl
@[simp] theorem resetBlock_tags : (resetBlock s).tags = s.tags.wipe := rfl
@[simp] theorem resetBlock_cmdLatch : (resetBlock s).cmdLatch = 0 := rfl
@[simp] theorem resetBlock_inputs : (resetBlock s).inputs = s.inputs := rfl
@[simp] theorem resetBlock_lastRead : (resetBlock s).lastRead = s.lastRead := rfl
@[simp] theorem resetBlock_readCount : (resetBlock s).readCount = s.readCount := rfl

/-! ### emptyEntities -/

@[simp] theorem emptyEntities_nil : emptyEntities [] s = s := rfl

@[simp] theorem emptyEntities_cons (d : Entity) (ds : List Entity) :
    emptyEntities (d :: ds) s = emptyEntities ds (emptyEntity s d) := rfl

end Sys2Proof.Machine
end

