-- ==== Sys2Proof/Laws/TreeBuilder.lean ====
section
/-! SUPPORT. What FREQ's counting pass and BUILD's merge loop do (spec/40_huffman_tree_builder.md). -/

namespace Sys2Proof.Machine

/-! ### Counting (R80) -/

theorem countInto_get? (m : Memory Nat) (symbols : List Nat) (a n : Nat) (h : m.get? a = some n) :
    (countInto m symbols).get? a = some (n + symbols.count a) := by
  induction symbols generalizing m n with
  | nil => simpa [countInto] using h
  | cons b rest ih =>
    simp only [countInto, List.foldl_cons]
    by_cases hab : a = b
    · subst hab
      have h' : (m.set a ((m.get? a).getD 0 + 1)).get? a = some (n + 1) := by simp [h]
      rw [show (rest.foldl _ _) = countInto (m.set a ((m.get? a).getD 0 + 1)) rest from rfl, ih _ _ h']
      simp only [List.count_cons_self, Option.some.injEq]
      omega
    · have h' : (m.set b ((m.get? b).getD 0 + 1)).get? a = some n := by simp [hab, h]
      rw [show (rest.foldl _ _) = countInto (m.set b ((m.get? b).getD 0 + 1)) rest from rfl, ih _ _ h']
      simp [List.count_cons_of_ne (Ne.symm hab)]

theorem countInto_wf {m : Memory Nat} (h : m.wf) (symbols : List Nat) : (countInto m symbols).wf := by
  induction symbols generalizing m with
  | nil => exact h
  | cons b rest ih => exact ih (set_wf h _ _)

@[simp] theorem countInto_fill (m : Memory Nat) (symbols : List Nat) :
    (countInto m symbols).fill = m.fill := by
  induction symbols generalizing m with
  | nil => rfl
  | cons b rest ih => exact (ih _).trans (fill_set _ _ _)

@[simp] theorem countInto_gen (m : Memory Nat) (symbols : List Nat) :
    (countInto m symbols).gen = m.gen := by
  induction symbols generalizing m with
  | nil => rfl
  | cons b rest ih => exact (ih _).trans (gen_set _ _ _)

/-- The counts are below `bound` where `bound` exceeds what was there and what is counted. -/
theorem countInto_within {m : Memory Nat} {cap bound : Nat} {symbols : List Nat}
    (h : m.within cap (· + symbols.length < bound)) (hfill : ∀ n, m.fill = some n → n + symbols.length < bound)
    (hempty : symbols.length < bound) (hsym : ∀ a ∈ symbols, a < cap) :
    (countInto m symbols).within cap (· < bound) := by
  induction symbols generalizing m with
  | nil => simpa [countInto, Memory.within] using h
  | cons b rest ih =>
    simp only [List.length_cons] at h hfill hempty
    refine ih (m := m.set b ((m.get? b).getD 0 + 1)) (within_set ?_ (hsym b (by simp)) ?_) ?_ (by omega)
      (fun a ha => hsym a (by simp [ha]))
    · exact fun c hc => ⟨(h c hc).1, by have := (h c hc).2; omega⟩
    · cases hg : m.get? b with
      | none =>
        simp only [Option.getD_none]
        omega
      | some n =>
        rcases within_get? h hg with h' | h'
        · simp only [Option.getD_some]
          omega
        · have := hfill n h'
          simp only [Option.getD_some]
          omega
    · intro n hn
      have := hfill n hn
      omega

/-! ### Removing the first tree (R84) -/

theorem comesFirst_refl (a : Nat × Nat) : comesFirst a a := .inr ⟨rfl, le_rfl⟩

theorem comesFirst_total (a b : Nat × Nat) : comesFirst a b ∨ comesFirst b a := by
  simp only [comesFirst]
  omega

theorem comesFirst_trans {a b c : Nat × Nat} (h1 : comesFirst a b) (h2 : comesFirst b c) :
    comesFirst a c := by
  simp only [comesFirst] at *
  omega

theorem popFirst_eq_none {l : List (Nat × Nat)} : popFirst l = none ↔ l = [] := by
  cases l with
  | nil => simp [popFirst]
  | cons x xs =>
    simp only [popFirst, reduceCtorEq, iff_false]
    split
    · simp
    · split_ifs <;> simp

/-- What is removed comes first among all, and the rest stays. -/
theorem popFirst_spec {l r : List (Nat × Nat)} {x : Nat × Nat} (h : popFirst l = some (x, r)) :
    l.Perm (x :: r) ∧ ∀ y ∈ r, comesFirst x y := by
  induction l generalizing x r with
  | nil => simp [popFirst] at h
  | cons z zs ih =>
    simp only [popFirst] at h
    split at h
    · next hz =>
      obtain rfl := popFirst_eq_none.1 hz
      simp only [Option.some.injEq, Prod.mk.injEq] at h
      obtain ⟨rfl, rfl⟩ := h
      simp
    · next y ys hz =>
      have ⟨hp, hf⟩ := ih hz
      split_ifs at h with hzy <;> simp only [Option.some.injEq, Prod.mk.injEq] at h <;>
        obtain ⟨rfl, rfl⟩ := h
      · refine ⟨hp.cons _, fun w hw => ?_⟩
        rcases List.mem_cons.1 hw with rfl | hw
        · exact hzy
        · exact comesFirst_trans hzy (hf w hw)
      · refine ⟨(hp.cons z).trans (.swap _ _ _), fun w hw => ?_⟩
        rcases List.mem_cons.1 hw with rfl | hw
        · exact (comesFirst_total _ _).resolve_left hzy
        · exact hf w hw

/-! ### The merge loop (R84, R86) -/

/-- Node `k` of an arena. -/
def arenaAt (arena : List NodeRec) (k : Nat) : NodeRec := arena.getD k (NodeRec.leaf 0 0)

theorem arenaAt_append_lt {arena : List NodeRec} {x : NodeRec} {k : Nat} (h : k < arena.length) :
    arenaAt (arena ++ [x]) k = arenaAt arena k := by
  simp [arenaAt, List.getD_eq_getElem?_getD, List.getElem?_append_left h]

@[simp] theorem arenaAt_append_length (arena : List NodeRec) (x : NodeRec) :
    arenaAt (arena ++ [x]) arena.length = x := by
  simp [arenaAt, List.getD_eq_getElem?_getD]

theorem parentsOf_congr {node node' : Nat → NodeRec} {N count i : Nat}
    (h : ∀ k < count, node k = node' k) : parentsOf node N count i = parentsOf node' N count i := by
  refine List.filter_congr fun k hk => ?_
  have : k < count := by
    have := List.mem_range'_1.1 hk
    omega
  rw [h k this]

theorem parentsOf_succ {node : Nat → NodeRec} {N count : Nat} (h : N ≤ count) (i : Nat) :
    parentsOf node N (count + 1) i = parentsOf node N count i ++
      if (node count).left = i ∨ (node count).right = i then [count] else [] := by
  have e : count + 1 - N = (count - N) + 1 := by omega
  have e' : N + 1 * (count - N) = count := by omega
  simp only [parentsOf, e, List.range'_concat, List.filter_append, e']
  congr 1
  simp [List.filter_cons]

theorem liveBefore_congr {node node' : Nat → NodeRec} {N k : Nat}
    (h : ∀ j < k, node j = node' j) : liveBefore node N k = liveBefore node' N k := by
  simp only [liveBefore, parentsOf_congr h]

theorem mergesFirstTwo_congr {node node' : Nat → NodeRec} {N k : Nat}
    (hl : (node k).left < k) (hr : (node k).right < k)
    (h : ∀ j ≤ k, node j = node' j) : MergesFirstTwo node N k ↔ MergesFirstTwo node' N k := by
  have e : liveBefore node' N k = liveBefore node N k :=
    (liveBefore_congr fun j hj => h j (by omega)).symm
  simp only [MergesFirstTwo, e, ← h k le_rfl, ← h _ hl.le, ← h _ hr.le]
  have : ∀ i ∈ liveBefore node N k, node' i = node i := fun i hi =>
    (h i (by have := List.mem_range.1 (List.mem_filter.1 hi).1; omega)).symm
  constructor
  · rintro ⟨h1, h2, h3, h4⟩
    exact ⟨h1, h2, h3, fun i hi => by rw [this i hi]; exact h4 i hi⟩
  · rintro ⟨h1, h2, h3, h4⟩
    exact ⟨h1, h2, h3, fun i hi => by rw [← this i hi]; exact h4 i hi⟩

/-- What holds of arena and collection at every turn of the merge loop. -/
structure MergeInv (leaves arena : List NodeRec) (live : List (Nat × Nat)) : Prop where
  leavesKept : ∀ j < leaves.length, arenaAt arena j = arenaAt leaves j
  size : arena.length + live.length = 2 * leaves.length
  sizeLive : live.length ≤ leaves.length
  liveNodup : (live.map Prod.snd).Nodup
  liveMem : ∀ x ∈ live, x.2 < arena.length ∧ (arenaAt arena x.2).weight = x.1
  inner : ∀ k < arena.length, leaves.length ≤ k →
    arenaAt arena k = NodeRec.internal (arenaAt arena k).left (arenaAt arena k).right
        (arenaAt arena k).weight ∧
      (arenaAt arena k).left < k ∧ (arenaAt arena k).right < k ∧
      (arenaAt arena k).left ≠ (arenaAt arena k).right ∧
      (arenaAt arena k).weight =
        (arenaAt arena (arenaAt arena k).left).weight + (arenaAt arena (arenaAt arena k).right).weight
  parents : ∀ i < arena.length, (parentsOf (arenaAt arena) leaves.length arena.length i).length =
    if i ∈ live.map Prod.snd then 0 else 1
  firstTwo : ∀ k < arena.length, leaves.length ≤ k → MergesFirstTwo (arenaAt arena) leaves.length k
  total : (live.map Prod.fst).sum = (leaves.map NodeRec.weight).sum

theorem initialTrees_snd (leaves : List NodeRec) (k : Nat) :
    ((indexedFrom k leaves).map fun c => (c.2.weight, c.1)).map Prod.snd =
      List.range' k leaves.length := by
  induction leaves generalizing k with
  | nil => rfl
  | cons x xs ih => simp [indexedFrom, List.range'_succ, ih]

theorem initialTrees_fst (leaves : List NodeRec) (k : Nat) :
    ((indexedFrom k leaves).map fun c => (c.2.weight, c.1)).map Prod.fst =
      leaves.map NodeRec.weight := by
  induction leaves generalizing k with
  | nil => rfl
  | cons x xs ih => simp [indexedFrom, ih]

theorem initialTrees_length (leaves : List NodeRec) : (initialTrees leaves).length = leaves.length := by
  have := congrArg List.length (initialTrees_snd leaves 0)
  simpa [initialTrees] using this

theorem indexedFrom_get {xs : List NodeRec} {k : Nat} {c : Nat × NodeRec}
    (h : c ∈ indexedFrom k xs) : arenaAt xs (c.1 - k) = c.2 := by
  induction xs generalizing k with
  | nil => simp [indexedFrom] at h
  | cons x xs ih =>
    simp only [indexedFrom, List.mem_cons] at h
    rcases h with rfl | h
    · simp [arenaAt]
    · have := ih h
      have hk := (mem_indexedFrom h).1
      obtain ⟨d, hd⟩ : ∃ d, c.1 = k + 1 + d := ⟨c.1 - (k + 1), by omega⟩
      have e : k + 1 + d - k = d + 1 := by omega
      simpa [hd, e, arenaAt] using this

theorem mergeInv_initial (leaves : List NodeRec) : MergeInv leaves leaves (initialTrees leaves) where
  leavesKept _ _ := rfl
  size := by rw [initialTrees_length]; omega
  sizeLive := (initialTrees_length leaves).le
  liveNodup := by
    rw [initialTrees, initialTrees_snd]
    exact List.nodup_range'
  liveMem x hx := by
    obtain ⟨c, hc, rfl⟩ := List.mem_map.1 hx
    have h1 := mem_indexedFrom hc
    have h2 := indexedFrom_get hc
    simp only [Nat.sub_zero] at h2
    exact ⟨by simpa using h1.2.1, by rw [h2]⟩
  inner k hk hk' := by omega
  parents i hi := by
    have : i ∈ (initialTrees leaves).map Prod.snd := by
      rw [initialTrees, initialTrees_snd]
      simpa [List.mem_range'_1] using hi
    simp [this, parentsOf]
  firstTwo k hk hk' := by omega
  total := by rw [initialTrees, initialTrees_fst]

/-- One merge keeps the invariant. -/
theorem mergeInv_step {leaves arena : List NodeRec} {live rest rest' : List (Nat × Nat)}
    {a b : Nat × Nat} (h : MergeInv leaves arena live) (h1 : popFirst live = some (a, rest))
    (h2 : popFirst rest = some (b, rest')) :
    MergeInv leaves (arena ++ [NodeRec.internal a.2 b.2 (a.1 + b.1)])
      ((a.1 + b.1, arena.length) :: rest') := by
  obtain ⟨p1, f1⟩ := popFirst_spec h1
  obtain ⟨p2, f2⟩ := popFirst_spec h2
  have p : live.Perm (a :: b :: rest') := p1.trans (p2.cons a)
  have plen := p.length_eq
  have psnd := p.map Prod.snd
  have nd := psnd.nodup_iff.1 h.liveNodup
  simp only [List.map_cons, List.nodup_cons, List.mem_cons, not_or] at nd
  obtain ⟨⟨nab, na⟩, nb, nrest⟩ := nd
  have ma := h.liveMem a (p.mem_iff.2 (by simp))
  have mb := h.liveMem b (p.mem_iff.2 (by simp))
  have mrest : ∀ x ∈ rest', x.2 < arena.length ∧ (arenaAt arena x.2).weight = x.1 :=
    fun x hx => h.liveMem x (p.mem_iff.2 (by simp [hx]))
  have hsize := h.size
  have hsl := h.sizeLive
  simp only [List.length_cons] at plen
  have hN : leaves.length ≤ arena.length := by omega
  set x := NodeRec.internal a.2 b.2 (a.1 + b.1) with hx
  have old : ∀ k < arena.length, arenaAt (arena ++ [x]) k = arenaAt arena k :=
    fun k hk => arenaAt_append_lt hk
  have new : arenaAt (arena ++ [x]) arena.length = x := arenaAt_append_length _ _
  have len : (arena ++ [x]).length = arena.length + 1 := by simp
  have xl : x.left = a.2 := rfl
  have xr : x.right = b.2 := rfl
  have xw : x.weight = a.1 + b.1 := rfl
  -- the roots of the collection are the nodes without a parent
  have liveIff : ∀ i, i ∈ liveBefore (arenaAt (arena ++ [x])) leaves.length arena.length ↔
      i < arena.length ∧ i ∈ live.map Prod.snd := by
    intro i
    rw [liveBefore_congr old]
    simp only [liveBefore, List.mem_filter, List.mem_range, decide_eq_true_eq]
    refine and_congr_right fun hi => ?_
    have := h.parents i hi
    rw [← List.length_eq_zero_iff, this]
    split_ifs <;> simp_all
  refine
    { leavesKept := fun j hj => (old j (by omega)).trans (h.leavesKept j hj)
      size := by simp only [len, List.length_cons]; omega
      sizeLive := by simp only [List.length_cons]; omega
      liveNodup := ?_
      liveMem := ?_
      inner := ?_
      parents := ?_
      firstTwo := ?_
      total := ?_ }
  · simp only [List.map_cons, List.nodup_cons]
    refine ⟨fun hm => ?_, nrest⟩
    obtain ⟨y, hy, hy'⟩ := List.mem_map.1 hm
    have := (mrest y hy).1
    omega
  · intro y hy
    rw [len]
    rcases List.mem_cons.1 hy with rfl | hy
    · exact ⟨by simp, by rw [new, xw]⟩
    · exact ⟨by have := (mrest y hy).1; omega, by rw [old _ (mrest y hy).1]; exact (mrest y hy).2⟩
  · intro k hk hk'
    rcases Nat.lt_or_ge k arena.length with hlt | hge
    · obtain ⟨e, l, r, ne, w⟩ := h.inner k hlt hk'
      rw [old k hlt, old _ (l.trans hlt), old _ (r.trans hlt)]
      exact ⟨e, l, r, ne, w⟩
    · obtain rfl : k = arena.length := by omega
      rw [new, xl, xr, old _ ma.1, old _ mb.1, ma.2, mb.2]
      exact ⟨rfl, ma.1, mb.1, nab, rfl⟩
  · intro i hi
    rw [len] at hi ⊢
    rw [parentsOf_succ hN, parentsOf_congr old, new, xl, xr, List.length_append]
    simp only [List.map_cons, List.mem_cons]
    rcases Nat.lt_or_ge i arena.length with hlt | hge
    · rw [h.parents i hlt]
      have hmem : i ∈ live.map Prod.snd ↔ i = a.2 ∨ i = b.2 ∨ i ∈ rest'.map Prod.snd := by
        rw [psnd.mem_iff]
        simp
      have hne : i ≠ arena.length := by omega
      by_cases hia : i = a.2
      · subst hia
        simp [hmem, hne, na]
      · by_cases hib : i = b.2
        · subst hib
          simp [hmem, hne, nb]
        · have : ¬ (a.2 = i ∨ b.2 = i) := by rintro (h | h) <;> simp_all
          simp only [this, if_false, List.length_nil, Nat.add_zero, hmem, hne, hia, hib, false_or]
    · obtain rfl : i = arena.length := by omega
      have h0 : ∀ k < arena.length, leaves.length ≤ k → (arenaAt arena k).left ≠ arena.length ∧
          (arenaAt arena k).right ≠ arena.length := fun k hk hk' => by
        obtain ⟨-, l, r, -⟩ := h.inner k hk hk'
        omega
      have : parentsOf (arenaAt arena) leaves.length arena.length arena.length = [] := by
        refine List.filter_eq_nil_iff.2 fun k hk => ?_
        have := List.mem_range'_1.1 hk
        have := h0 k (by omega) (by omega)
        simp [this]
      have hab : ¬ (a.2 = arena.length ∨ b.2 = arena.length) := by omega
      simp [this, hab]
  · intro k hk hk'
    rw [len] at hk
    rcases Nat.lt_or_ge k arena.length with hlt | hge
    · obtain ⟨-, l, r, -⟩ := h.inner k hlt hk'
      refine (mergesFirstTwo_congr l r fun j hj => (old j (by omega)).symm).1 (h.firstTwo k hlt hk')
    · obtain rfl : k = arena.length := by omega
      simp only [MergesFirstTwo, new, xl, xr, liveIff, old _ ma.1, old _ mb.1, ma.2, mb.2]
      refine ⟨⟨ma.1, psnd.mem_iff.2 (by simp)⟩, ⟨mb.1, psnd.mem_iff.2 (by simp)⟩, nab, ?_⟩
      rintro i ⟨hi, hil⟩
      obtain ⟨y, hy, rfl⟩ := List.mem_map.1 hil
      rw [old _ hi, (h.liveMem y hy).2]
      have hy' := p.mem_iff.1 hy
      constructor
      · rcases List.mem_cons.1 (p1.mem_iff.1 hy) with rfl | hyr
        · exact comesFirst_refl _
        · exact f1 y hyr
      · intro hne
        rcases List.mem_cons.1 hy' with rfl | hyr
        · exact absurd rfl hne
        · rcases List.mem_cons.1 hyr with rfl | hyr
          · exact comesFirst_refl _
          · exact f2 y hyr
  · rw [← h.total]
    have := (p.map Prod.fst).sum_eq
    simp only [List.map_cons, List.sum_cons] at this ⊢
    omega

theorem mergeInv_loop {leaves : List NodeRec} (fuel : Nat) {arena : List NodeRec}
    {live : List (Nat × Nat)} (h : MergeInv leaves arena live) (hf : live.length = fuel + 1) :
    ∃ x, MergeInv leaves (mergeLoop fuel arena live) [x] := by
  induction fuel generalizing arena live with
  | zero =>
    obtain ⟨x, rfl⟩ := List.length_eq_one_iff.1 hf
    exact ⟨x, h⟩
  | succ n ih =>
    simp only [mergeLoop]
    split
    · next hp => simp [popFirst_eq_none.1 hp] at hf
    · next a rest hp =>
      have l1 := (popFirst_spec hp).1.length_eq
      simp only [List.length_cons] at l1
      split
      · next hp' =>
        simp only [popFirst_eq_none.1 hp', List.length_nil] at l1
        omega
      · next b rest' hp' =>
        have l2 := (popFirst_spec hp').1.length_eq
        simp only [List.length_cons] at l2
        exact ih (mergeInv_step h hp hp') (by simp only [List.length_cons]; omega)

/-- What BUILD makes of at least one leaf: one tree, with the leaves first. -/
theorem buildArena_spec {leaves : List NodeRec} (h : leaves ≠ []) :
    ∃ x, MergeInv leaves (buildArena leaves) [x] := by
  have : 0 < leaves.length := List.length_pos_iff.2 h
  exact mergeInv_loop _ (mergeInv_initial leaves) (by rw [initialTrees_length]; omega)

theorem buildArena_length {leaves : List NodeRec} (h : leaves ≠ []) :
    (buildArena leaves).length = 2 * leaves.length - 1 := by
  obtain ⟨x, hx⟩ := buildArena_spec h
  have := hx.size
  simp only [List.length_singleton] at this
  omega

theorem wfTree_congr {A count root : Nat} {node node' : Nat → NodeRec}
    (h : ∀ k < count, node k = node' k) (hw : WfTree A node count root) : WfTree A node' count root := by
  simp only [WfTree] at hw ⊢
  obtain ⟨⟨h1, h1', h1''⟩, ⟨h2, h2'⟩, h3, h4, h5, h6, h6'⟩ := hw
  have hN : (count + 1) / 2 ≤ count := by omega
  refine ⟨⟨h1, h1', h1''⟩, ⟨?_, ?_⟩, ?_, ?_, h5, ?_, ?_⟩
  · intro j hj
    rw [← h j (by omega)]
    exact h2 j hj
  · intro j hj hj'
    rw [← h j (by omega), ← h (j - 1) (by omega)]
    exact h2' j hj hj'
  · intro k hk hk'
    rw [← h k hk]
    exact h3 k hk hk'
  · intro i hi hi'
    rw [← parentsOf_congr h]
    exact h4 i hi hi'
  · intro j hj
    rw [← h j (by omega)]
    exact h6 j hj
  · intro k hk hk'
    obtain ⟨-, l, r, -⟩ := h3 k hk hk'
    rw [← h k hk, ← h _ (l.trans hk), ← h _ (r.trans hk)]
    exact h6' k hk hk'

/-- BUILD makes a tree (R86) of leaves in increasing order of symbols below `A`, each of weight at
least 1. -/
theorem buildArena_wfTree {leaves : List NodeRec} {A : Nat} (hne : leaves ≠ []) (hA : leaves.length ≤ A)
    (hleaf : ∀ j < leaves.length, arenaAt leaves j =
        NodeRec.leaf (arenaAt leaves j).sym (arenaAt leaves j).weight ∧
      (arenaAt leaves j).sym < A ∧ 1 ≤ (arenaAt leaves j).weight)
    (hord : ∀ j < leaves.length, 0 < j → (arenaAt leaves (j - 1)).sym < (arenaAt leaves j).sym) :
    WfTree A (arenaAt (buildArena leaves)) (buildArena leaves).length ((buildArena leaves).length - 1) := by
  obtain ⟨x, hx⟩ := buildArena_spec hne
  have hlen := buildArena_length hne
  have hpos : 0 < leaves.length := List.length_pos_iff.2 hne
  have hN : ((buildArena leaves).length + 1) / 2 = leaves.length := by omega
  have hroot : x.2 = (buildArena leaves).length - 1 := by
    by_contra hne'
    have hx2 := (hx.liveMem x (by simp)).1
    have hl : (buildArena leaves).length - 1 < (buildArena leaves).length := by omega
    have := hx.parents _ hl
    have hnm : (buildArena leaves).length - 1 ∉ [x].map Prod.snd := by simp; omega
    rw [if_neg hnm] at this
    obtain ⟨k, hk⟩ := List.length_eq_one_iff.1 this
    have hk' : k ∈ parentsOf (arenaAt (buildArena leaves)) leaves.length (buildArena leaves).length
        ((buildArena leaves).length - 1) := by rw [hk]; simp
    simp only [List.mem_filter, List.mem_range'_1, decide_eq_true_eq] at hk'
    obtain ⟨-, l, r, -⟩ := hx.inner k (by omega) (by omega)
    omega
  simp only [WfTree, hN]
  refine ⟨⟨by omega, by omega, hA⟩, ⟨?_, ?_⟩, ?_, ?_, trivial, ?_, ?_⟩
  · intro j hj
    rw [hx.leavesKept j hj]
    exact ⟨(hleaf j hj).1, (hleaf j hj).2.1⟩
  · intro j hj hj'
    rw [hx.leavesKept j hj, hx.leavesKept (j - 1) (by omega)]
    exact hord j hj hj'
  · intro k hk hk'
    obtain ⟨e, l, r, ne, -⟩ := hx.inner k hk hk'
    exact ⟨e, l, r, ne⟩
  · intro i hi hi'
    rw [hx.parents i hi, if_neg]
    simp only [List.map_cons, List.map_nil, List.mem_singleton]
    omega
  · intro j hj
    rw [hx.leavesKept j hj]
    exact (hleaf j hj).2.2
  · intro k hk hk'
    exact (hx.inner k hk hk').2.2.2.2

/-- The root carries the sum of all counts (R86). -/
theorem buildArena_rootWeight {leaves : List NodeRec} (hne : leaves ≠ []) :
    ∃ r < (buildArena leaves).length, (∀ k < (buildArena leaves).length, k ≠ r →
        (parentsOf (arenaAt (buildArena leaves)) leaves.length (buildArena leaves).length k).length = 1) ∧
      (arenaAt (buildArena leaves) r).weight = (leaves.map NodeRec.weight).sum := by
  obtain ⟨x, hx⟩ := buildArena_spec hne
  refine ⟨x.2, (hx.liveMem x (by simp)).1, fun k hk hkx => ?_, ?_⟩
  · rw [hx.parents k hk, if_neg (by simpa using hkx)]
  · rw [(hx.liveMem x (by simp)).2]
    simpa using hx.total

end Sys2Proof.Machine
end

