-- ==== Sys2Proof/Laws/CodeTable.lean ====
section
/-! SUPPORT. The walk of CODES over a well-formed tree: it ends, it lists every leaf with its one
path, and no path is a prefix of another (spec/41_huffman_code_table_gen.md R90, R93). -/

namespace Sys2Proof.Machine

/-! ### Codes as records (R22, R67) -/

theorem bitsNumber_testBit (c : List Bool) (k : Nat) : (bitsNumber c).testBit k = c.getD k false := by
  induction c generalizing k with
  | nil => simp [bitsNumber]
  | cons b rest ih =>
    cases k with
    | zero =>
      have : (bitsNumber (b :: rest)) % 2 = b.toNat := by
        cases b <;> simp [bitsNumber]
      rw [Nat.testBit_zero, this]
      cases b <;> simp
    | succ k =>
      have : bitsNumber (b :: rest) / 2 = bitsNumber rest := by
        cases b <;> (simp [bitsNumber]; try omega)
      rw [Nat.testBit_succ, this, ih]
      simp

@[simp] theorem code_ofCode (c : List Bool) : (CodeRec.ofCode c).code = c := by
  refine List.ext_getElem (by simp [CodeRec.code, CodeRec.ofCode]) fun k h1 h2 => ?_
  simp [CodeRec.code, CodeRec.ofCode, bitsNumber_testBit, h2]

@[simp] theorem code_length (r : CodeRec) : r.code.length = r.len := by simp [CodeRec.code]

theorem bitsNumber_lt (c : List Bool) : bitsNumber c < 2 ^ c.length := by
  induction c with
  | nil => simp [bitsNumber]
  | cons b rest ih =>
    simp only [bitsNumber, List.length_cons, Nat.pow_succ]
    cases b <;> (simp; omega)

/-! ### The table that a list of codes makes -/

theorem writeCodes_get? (codes : List (Nat × List Bool)) (f : Nat → List Bool) (m : Memory CodeRec)
    (h : ∀ e ∈ codes, e.2 = f e.1) (a : Nat) :
    (codes.foldl (fun m c => m.set c.1 (CodeRec.ofCode c.2)) m).get? a =
      if a ∈ codes.map Prod.fst then some (CodeRec.ofCode (f a)) else m.get? a := by
  induction codes generalizing m with
  | nil => simp
  | cons e rest ih =>
    rw [List.foldl_cons, ih _ fun e he => h e (List.mem_cons_of_mem _ he), get?_set,
      h e (List.mem_cons_self ..)]
    by_cases h1 : a ∈ rest.map Prod.fst
    · simp only [h1, if_true, List.map_cons, List.mem_cons, or_true]
    · by_cases h2 : a = e.1
      · subst h2
        simp only [h1, if_false, if_true, List.map_cons, List.mem_cons, true_or]
      · simp only [h1, h2, if_false, List.map_cons, List.mem_cons, or_self]

theorem writeCodes_wf (codes : List (Nat × List Bool)) {m : Memory CodeRec} (h : m.wf) :
    (codes.foldl (fun m c => m.set c.1 (CodeRec.ofCode c.2)) m).wf := by
  induction codes generalizing m with
  | nil => exact h
  | cons e rest ih => exact ih (set_wf h _ _)

@[simp] theorem writeCodes_fill (codes : List (Nat × List Bool)) (m : Memory CodeRec) :
    (codes.foldl (fun m c => m.set c.1 (CodeRec.ofCode c.2)) m).fill = m.fill := by
  induction codes generalizing m with
  | nil => rfl
  | cons e rest ih => exact (ih _).trans (fill_set _ _ _)

theorem writeCodes_within (codes : List (Nat × List Bool)) {m : Memory CodeRec} {cap : Nat}
    {ok : CodeRec → Prop} (h : m.within cap ok)
    (hc : ∀ e ∈ codes, e.1 < cap ∧ ok (CodeRec.ofCode e.2)) :
    (codes.foldl (fun m c => m.set c.1 (CodeRec.ofCode c.2)) m).within cap ok := by
  induction codes generalizing m with
  | nil => exact h
  | cons e rest ih =>
    have := hc e (List.mem_cons_self ..)
    exact ih (within_set h this.1 this.2) fun e he => hc e (List.mem_cons_of_mem _ he)

/-! ### Paths -/

@[simp] theorem pathTo_nil (node : Nat → NodeRec) (k j : Nat) : PathTo node k [] j ↔ k = j := Iff.rfl

@[simp] theorem pathTo_cons (node : Nat → NodeRec) (k j : Nat) (b : Bool) (rest : List Bool) :
    PathTo node k (b :: rest) j ↔ (node k).kind = true ∧
      PathTo node (if b then (node k).right else (node k).left) rest j := Iff.rfl

theorem pathTo_append {node : Nat → NodeRec} {k j : Nat} {p q : List Bool} :
    PathTo node k (p ++ q) j ↔ ∃ i, PathTo node k p i ∧ PathTo node i q j := by
  induction p generalizing k with
  | nil => simp
  | cons b rest ih => simp [ih, and_assoc]

/-- The children of every internal node lie below it. -/
abbrev Descending (node : Nat → NodeRec) (count : Nat) : Prop :=
  ∀ k < count, (node k).kind = true → (node k).left < k ∧ (node k).right < k

theorem pathTo_le {node : Nat → NodeRec} {count k j : Nat} {p : List Bool}
    (hd : Descending node count) (hk : k < count) (h : PathTo node k p j) : j ≤ k := by
  induction p generalizing k with
  | nil => exact (pathTo_nil ..).1 h ▸ le_rfl
  | cons b rest ih =>
    obtain ⟨hkind, h⟩ := h
    obtain ⟨l, r⟩ := hd k hk hkind
    cases b
    · exact (ih (by simpa using l.trans hk) h).trans (by simpa using l.le)
    · exact (ih (by simpa using r.trans hk) h).trans (by simpa using r.le)

/-- What the walk lists: exactly the leaves below `k`, each with a path that leads to it. -/
theorem walkTree_spec {node : Nat → NodeRec} {count : Nat} (hd : Descending node count) (fuel : Nat)
    {k : Nat} (path : List Bool) (hk : k < count) (hf : k < fuel) :
    ∃ l, walkTree node count fuel k path = some l ∧
      ∀ e, e ∈ l ↔ ∃ q j, PathTo node k q j ∧ (node j).kind = false ∧
        e = ((node j).sym, path ++ q) := by
  induction fuel generalizing k path with
  | zero => omega
  | succ n ih =>
    simp only [walkTree, if_neg (Nat.not_le.2 hk)]
    by_cases hkind : (node k).kind = true
    · obtain ⟨hl, hr⟩ := hd k hk hkind
      obtain ⟨l, el, ml⟩ := ih (path ++ [false]) (hl.trans hk) (by omega)
      obtain ⟨r, er, mr⟩ := ih (path ++ [true]) (hr.trans hk) (by omega)
      refine ⟨l ++ r, by simp [hkind, el, er], fun e => ?_⟩
      rw [List.mem_append, ml, mr]
      constructor
      · rintro (⟨q, j, hq, hj, rfl⟩ | ⟨q, j, hq, hj, rfl⟩)
        · exact ⟨false :: q, j, ⟨hkind, by simpa using hq⟩, hj, by simp⟩
        · exact ⟨true :: q, j, ⟨hkind, by simpa using hq⟩, hj, by simp⟩
      · rintro ⟨q, j, hq, hj, rfl⟩
        cases q with
        | nil =>
          obtain rfl := (pathTo_nil ..).1 hq
          simp [hkind] at hj
        | cons b q =>
          obtain ⟨-, hq⟩ := hq
          cases b
          · exact .inl ⟨q, j, by simpa using hq, hj, by simp⟩
          · exact .inr ⟨q, j, by simpa using hq, hj, by simp⟩
    · refine ⟨[((node k).sym, path)], by simp [hkind], fun e => ?_⟩
      rw [List.mem_singleton]
      constructor
      · rintro rfl
        exact ⟨[], k, rfl, by simpa using hkind, by simp⟩
      · rintro ⟨q, j, hq, hj, rfl⟩
        cases q with
        | nil =>
          obtain rfl := (pathTo_nil ..).1 hq
          simp
        | cons b q => exact absurd hq.1 hkind

/-! ### Well-formed trees -/

section Tree

variable {A count root : Nat} {node : Nat → NodeRec}

theorem WfTree.leaf_kind (h : WfTree A node count root) {j : Nat} (hj : j < (count + 1) / 2) :
    (node j).kind = false := by
  have := (h.2.1.1 j hj).1
  rw [this]
  rfl

theorem WfTree.inner_kind (h : WfTree A node count root) {k : Nat} (hk : k < count)
    (hk' : (count + 1) / 2 ≤ k) : (node k).kind = true := by
  have := (h.2.2.1 k hk hk').1
  rw [this]
  rfl

theorem WfTree.kind_iff (h : WfTree A node count root) {k : Nat} (hk : k < count) :
    (node k).kind = true ↔ (count + 1) / 2 ≤ k := by
  refine ⟨fun hkind => ?_, h.inner_kind hk⟩
  by_contra hlt
  have := h.leaf_kind (Nat.lt_of_not_le hlt)
  simp [hkind] at this

theorem WfTree.descending (h : WfTree A node count root) : Descending node count := fun k hk hkind => by
  obtain ⟨-, l, r, -⟩ := h.2.2.1 k hk ((h.kind_iff hk).1 hkind)
  exact ⟨l, r⟩

theorem WfTree.root_lt (h : WfTree A node count root) : root < count := by
  obtain ⟨⟨h1, h2, -⟩, -, -, -, h5, -⟩ := h
  omega

/-- Every node lies on a path from the root. -/
theorem WfTree.reachable (h : WfTree A node count root) {i : Nat} (hi : i < count) :
    ∃ p, PathTo node root p i := by
  induction hn : count - i using Nat.strong_induction_on generalizing i with
  | _ n ih =>
    by_cases hir : i = root
    · exact ⟨[], hir.symm⟩
    · obtain ⟨k, hk⟩ := List.length_eq_one_iff.1 (h.2.2.2.1 i hi hir)
      have hk' : k ∈ parentsOf node ((count + 1) / 2) count i := by rw [hk]; simp
      simp only [List.mem_filter, List.mem_range'_1, decide_eq_true_eq] at hk'
      have hkc : k < count := by omega
      obtain ⟨-, l, r, -⟩ := h.2.2.1 k hkc hk'.1.1
      have hkind := h.inner_kind hkc hk'.1.1
      obtain ⟨p, hp⟩ := ih (count - k) (by omega) hkc rfl
      rcases hk'.2 with e | e
      · exact ⟨p ++ [false], pathTo_append.2 ⟨k, hp, hkind, by simpa using e⟩⟩
      · exact ⟨p ++ [true], pathTo_append.2 ⟨k, hp, hkind, by simpa using e⟩⟩

theorem WfTree.pathTo_lt (h : WfTree A node count root) {i : Nat} {p : List Bool}
    (hp : PathTo node root p i) : i < count :=
  (pathTo_le h.descending h.root_lt hp).trans_lt h.root_lt

/-- A node has one path from the root (R90). -/
theorem WfTree.path_unique (h : WfTree A node count root) {i : Nat} {p q : List Bool}
    (hp : PathTo node root p i) (hq : PathTo node root q i) : p = q := by
  induction p using List.reverseRecOn generalizing q i with
  | nil =>
    obtain rfl := (pathTo_nil ..).1 hp
    cases q with
    | nil => rfl
    | cons b q =>
      obtain ⟨hkind, hq⟩ := hq
      obtain ⟨l, r⟩ := h.descending root h.root_lt hkind
      cases b
      · have := pathTo_le h.descending (by simpa using l.trans h.root_lt) hq
        simp only [Bool.false_eq_true, if_false] at this
        omega
      · have := pathTo_le h.descending (by simpa using r.trans h.root_lt) hq
        simp only [if_true] at this
        omega
  | append_singleton p b ih =>
    obtain ⟨k, hpk, hkind, hb⟩ := pathTo_append.1 hp
    have hkc := h.pathTo_lt hpk
    obtain ⟨l, r⟩ := h.descending k hkc hkind
    have hN := (h.kind_iff hkc).1 hkind
    have hir : i ≠ root := by
      have := pathTo_le h.descending h.root_lt hpk
      cases b
      · simp only [Bool.false_eq_true, if_false, pathTo_nil] at hb
        omega
      · simp only [if_true, pathTo_nil] at hb
        omega
    cases q using List.reverseRecOn with
    | nil => exact absurd ((pathTo_nil ..).1 hq).symm hir
    | append_singleton q c =>
      obtain ⟨k', hqk, hkind', hc⟩ := pathTo_append.1 hq
      have hkc' := h.pathTo_lt hqk
      have hN' := (h.kind_iff hkc').1 hkind'
      have hi : i < count := h.pathTo_lt hp
      obtain ⟨m, hm⟩ := List.length_eq_one_iff.1 (h.2.2.2.1 i hi hir)
      have mem : ∀ {x : Nat} {d : Bool}, x < count → (count + 1) / 2 ≤ x →
          PathTo node (if d then (node x).right else (node x).left) [] i → x = m := by
        intro x d hx hx' hd
        have : x ∈ parentsOf node ((count + 1) / 2) count i := by
          simp only [List.mem_filter, List.mem_range'_1, decide_eq_true_eq]
          refine ⟨by omega, ?_⟩
          cases d
          · exact .inl (by simpa using hd)
          · exact .inr (by simpa using hd)
        rw [hm] at this
        simpa using this
      obtain rfl : k = k' := (mem hkc hN hb).trans (mem hkc' hN' hc).symm
      rw [ih hpk hqk]
      obtain ⟨-, -, -, hne⟩ := h.2.2.1 k hkc hN
      have hbc := ((pathTo_nil ..).1 hb).trans ((pathTo_nil ..).1 hc).symm
      cases b <;> cases c <;> first | rfl | exact absurd hbc hne | exact absurd hbc.symm hne

/-- No leaf lies on the path to another (R93 item 2). -/
theorem WfTree.path_prefixFree (h : WfTree A node count root) {i j : Nat} {p q : List Bool}
    (hi : (node i).kind = false) (hp : PathTo node root p i) (hq : PathTo node root q j)
    (hpq : p <+: q) : i = j := by
  obtain ⟨r, rfl⟩ := hpq
  obtain ⟨k, hk, hr⟩ := pathTo_append.1 hq
  have : k = i := by
    clear hr hq hi
    induction p generalizing root with
    | nil => exact ((pathTo_nil ..).1 hk).symm.trans ((pathTo_nil ..).1 hp)
    | cons b p ih =>
      have h1 := hk.2
      have h2 := hp.2
      clear ih hk hp h
      revert h1 h2
      generalize (if b then (node root).right else (node root).left) = x
      intro h1 h2
      induction p generalizing x with
      | nil => exact ((pathTo_nil ..).1 h1).symm.trans ((pathTo_nil ..).1 h2)
      | cons c p ih => exact ih _ h1.2 h2.2
  subst this
  cases r with
  | nil => exact (pathTo_nil ..).1 hr
  | cons b r => simp [hi] at hr

theorem pathTo_length_le {N : Nat} (hN : ∀ k < count, (node k).kind = true → N ≤ k)
    (hd : Descending node count) {k j : Nat} {p : List Bool} (hk : k < count)
    (hp : PathTo node k p j) : p.length ≤ k + 1 - N := by
  induction p generalizing k with
  | nil => simp
  | cons b rest ih =>
    obtain ⟨hkind, hp⟩ := hp
    obtain ⟨l, r⟩ := hd k hk hkind
    have := hN k hk hkind
    simp only [List.length_cons]
    cases b
    · have := ih (by simpa using l.trans hk) hp
      simp only [Bool.false_eq_true, if_false] at this
      omega
    · have := ih (by simpa using r.trans hk) hp
      simp only [if_true] at this
      omega

/-- Codes have at most `N-1` bits (R93 item 3). -/
theorem WfTree.path_length (h : WfTree A node count root) {j : Nat} {p : List Bool}
    (hp : PathTo node root p j) : p.length ≤ (count + 1) / 2 - 1 := by
  have := pathTo_length_le (fun k hk hkind => (h.kind_iff hk).1 hkind) h.descending h.root_lt hp
  obtain ⟨⟨h1, h2, -⟩, -, -, -, h5, -⟩ := h
  omega

theorem WfTree.sym_inj (h : WfTree A node count root) {i j : Nat} (hi : i < (count + 1) / 2)
    (hj : j < (count + 1) / 2) (e : (node i).sym = (node j).sym) : i = j := by
  have mono : ∀ d k, k + d + 1 < (count + 1) / 2 → (node k).sym < (node (k + d + 1)).sym := by
    intro d
    induction d with
    | zero =>
      intro k hk
      simpa using h.2.1.2 (k + 1) hk (by omega)
    | succ d ih =>
      intro k hk
      have h1 := ih k (by omega)
      have h2 := h.2.1.2 (k + (d + 1) + 1) hk (by omega)
      simp only [Nat.add_sub_cancel] at h2
      exact h1.trans (by simpa [Nat.add_assoc] using h2)
  rcases Nat.lt_trichotomy i j with hlt | heq | hgt
  · have := mono (j - i - 1) i (by omega)
    rw [show i + (j - i - 1) + 1 = j by omega] at this
    omega
  · exact heq
  · have := mono (i - j - 1) j (by omega)
    rw [show j + (i - j - 1) + 1 = i by omega] at this
    omega

/-- What CODES makes of a well-formed tree: exactly one entry for each leaf, its code (R90, R91). -/
theorem treeCodes_spec (h : WfTree A node count root) :
    ∃ codes, treeCodes node count root = some codes ∧
      ∀ e, e ∈ codes ↔ ∃ j < (count + 1) / 2, e.1 = (node j).sym ∧ IsCodeOf node count root j e.2 := by
  have hr := h.root_lt
  have hroot := h.2.2.2.2.1
  have hcount := h.1
  by_cases h1 : count = 1
  · subst h1
    obtain rfl : root = 0 := by omega
    have hk := h.leaf_kind (j := 0) (by omega)
    refine ⟨[((node 0).sym, [false])], by simp [treeCodes, hk], fun e => ?_⟩
    simp only [List.mem_singleton, IsCodeOf, if_true]
    constructor
    · rintro rfl
      exact ⟨0, by omega, rfl, rfl⟩
    · rintro ⟨j, hj, e1, e2⟩
      obtain rfl : j = 0 := by omega
      exact Prod.ext e1 e2
  · have hkind := h.inner_kind hr (by omega)
    obtain ⟨l, el, ml⟩ := walkTree_spec h.descending count [] hr hr
    refine ⟨l, by simp [treeCodes, hkind, el, Nat.not_le.2 hr], fun e => ?_⟩
    rw [ml]
    simp only [IsCodeOf, h1, if_false, List.nil_append]
    constructor
    · rintro ⟨q, j, hq, hj, rfl⟩
      have hjc := h.pathTo_lt hq
      refine ⟨j, ?_, rfl, hq⟩
      by_contra hge
      simp [h.inner_kind hjc (Nat.le_of_not_lt hge)] at hj
    · rintro ⟨j, hj, e1, e2⟩
      exact ⟨e.2, j, e2, h.leaf_kind hj, Prod.ext e1 rfl⟩

theorem WfTree.code_exists (h : WfTree A node count root) {j : Nat} (hj : j < (count + 1) / 2) :
    ∃ c, IsCodeOf node count root j c := by
  by_cases h1 : count = 1
  · exact ⟨[false], by simp [IsCodeOf, h1]⟩
  · obtain ⟨p, hp⟩ := h.reachable (i := j) (by have := h.1; omega)
    exact ⟨p, by simpa [IsCodeOf, h1] using hp⟩

theorem WfTree.code_unique (h : WfTree A node count root) {j : Nat} {c d : List Bool}
    (hc : IsCodeOf node count root j c) (hd : IsCodeOf node count root j d) : c = d := by
  by_cases h1 : count = 1
  · simp only [IsCodeOf, h1, if_true] at hc hd
    exact hc.trans hd.symm
  · simp only [IsCodeOf, h1, if_false] at hc hd
    exact h.path_unique hc hd

theorem WfTree.code_length (h : WfTree A node count root) {j : Nat} (hj : j < (count + 1) / 2)
    {c : List Bool} (hc : IsCodeOf node count root j c) :
    1 ≤ c.length ∧ c.length ≤ max 1 ((count + 1) / 2 - 1) := by
  by_cases h1 : count = 1
  · simp only [IsCodeOf, h1, if_true] at hc
    subst hc
    simp
  · simp only [IsCodeOf, h1, if_false] at hc
    have hl := h.path_length hc
    refine ⟨?_, by omega⟩
    cases c with
    | nil =>
      obtain rfl := (pathTo_nil ..).1 hc
      have := h.2.2.2.2.1
      have := h.1
      omega
    | cons b c => simp

theorem WfTree.code_prefixFree (h : WfTree A node count root) {i j : Nat} (hi : i < (count + 1) / 2)
    (hj : j < (count + 1) / 2) {c d : List Bool} (hc : IsCodeOf node count root i c)
    (hd : IsCodeOf node count root j d) (hp : c <+: d) : i = j := by
  by_cases h1 : count = 1
  · omega
  · simp only [IsCodeOf, h1, if_false] at hc hd
    exact h.path_prefixFree (h.leaf_kind hi) hc hd hp

end Tree

end Sys2Proof.Machine
end

