-- ==== Sys2Proof/Laws/Lz77.lean ====
section
/-! SUPPORT. The matcher's search (spec/44_lz77_matcher.md R116 to R119) and the replayer's copy
(spec/45_lz77_replayer.md R127), each said once. -/

namespace Sys2Proof.Machine

/-! ### The match length of a candidate (R117) -/

/-- Symbol `k` of the lookahead at `i` equals symbol `k` of candidate `c` read modulo its length. -/
abbrev WrapsAt (S : List Nat) (i c k : Nat) : Prop := S[i + k]? = S[c + k % (i - c)]?

theorem extendMatch_spec {S : List Nat} {i c : Nat} (fuel L : Nat) (hf : i + L + fuel = S.length)
    (hL : ∀ k < L, WrapsAt S i c k) :
    L ≤ extendMatch S i c fuel L ∧ i + extendMatch S i c fuel L ≤ S.length ∧
      (∀ k < extendMatch S i c fuel L, WrapsAt S i c k) ∧
      (i + extendMatch S i c fuel L < S.length → ¬ WrapsAt S i c (extendMatch S i c fuel L)) := by
  induction fuel generalizing L with
  | zero =>
    simp only [extendMatch]
    exact ⟨le_rfl, by omega, hL, fun h => by omega⟩
  | succ n ih =>
    simp only [extendMatch]
    split_ifs with h
    · have := ih (L + 1) (by omega) fun k hk => by
        rcases Nat.lt_or_ge k L with hlt | hge
        · exact hL k hlt
        · obtain rfl : k = L := by omega
          exact h.2
      exact ⟨by omega, this.2⟩
    · exact ⟨le_rfl, by omega, hL, fun h1 h2 => h ⟨h1, h2⟩⟩

theorem matchLength_spec {S : List Nat} {i : Nat} (c : Nat) (hi : i ≤ S.length) :
    i + matchLength S i c ≤ S.length ∧ (∀ k < matchLength S i c, WrapsAt S i c k) ∧
      (i + matchLength S i c < S.length → ¬ WrapsAt S i c (matchLength S i c)) :=
  (extendMatch_spec (S.length - i) 0 (by omega) (by simp)).2

/-- The match length is the largest (R117). -/
theorem matchLength_largest {S : List Nat} {i c L : Nat} (hL : i + L ≤ S.length)
    (h : ∀ k < L, WrapsAt S i c k) : L ≤ matchLength S i c := by
  obtain ⟨h1, h2, h3⟩ := matchLength_spec c (show i ≤ S.length by omega)
  by_contra hlt
  exact h3 (by omega) (h _ (by omega))

/-- The modulo form and the overlapping compare agree (R120). -/
theorem wrapsAt_overlap {S : List Nat} {i c : Nat} (hc : c < i) (L : Nat)
    (h : ∀ k < L, WrapsAt S i c k) : ∀ k < L, S[i + k]? = S[c + k]? := by
  intro k
  induction k using Nat.strong_induction_on with
  | _ k ih =>
    intro hk
    rcases Nat.lt_or_ge k (i - c) with hlt | hge
    · have := h k hk
      rwa [WrapsAt, Nat.mod_eq_of_lt hlt] at this
    · have e1 := h k hk
      have e2 := h (k - (i - c)) (by omega)
      rw [WrapsAt] at e1 e2
      rw [e1, Nat.mod_eq_sub_mod hge, ← e2]
      congr 1
      omega

/-! ### The best candidate (R118) -/

/-- `(L, D)` is the best of the candidates seen so far, given as pairs (length, distance). -/
structure IsBestOf (cands : List (Nat × Nat)) (best : Nat × Nat) : Prop where
  longest : ∀ x ∈ cands, x.1 ≤ best.1
  nearest : ∀ x ∈ cands, x.1 = best.1 → 0 < best.1 → best.2 ≤ x.2
  attained : 0 < best.1 → best ∈ cands
  zero : best.1 = 0 → best.2 = 0

theorem betterMatch_spec {cands : List (Nat × Nat)} {best x : Nat × Nat} (h : IsBestOf cands best) :
    IsBestOf (cands ++ [x]) (betterMatch best x) := by
  obtain ⟨h1, h2, h3, h4⟩ := h
  simp only [betterMatch]
  split_ifs with hx
  · refine ⟨?_, ?_, ?_, ?_⟩
    · intro y hy
      rcases List.mem_append.1 hy with hy | hy
      · have := h1 y hy
        omega
      · obtain rfl := List.mem_singleton.1 hy
        exact le_rfl
    · intro y hy he hpos
      rcases List.mem_append.1 hy with hy | hy
      · have a := h1 y hy
        have b := h2 y hy
        omega
      · obtain rfl := List.mem_singleton.1 hy
        exact le_rfl
    · intro _
      simp
    · intro h0
      omega
  · refine ⟨?_, ?_, fun hpos => List.mem_append_left _ (h3 hpos), h4⟩
    · intro y hy
      rcases List.mem_append.1 hy with hy | hy
      · exact h1 y hy
      · obtain rfl := List.mem_singleton.1 hy
        omega
    · intro y hy he hpos
      rcases List.mem_append.1 hy with hy | hy
      · exact h2 y hy he hpos
      · obtain rfl := List.mem_singleton.1 hy
        omega

theorem foldl_betterMatch (f : Nat → Nat × Nat) (l : List Nat) {cands : List (Nat × Nat)}
    {best : Nat × Nat} (h : IsBestOf cands best) :
    IsBestOf (cands ++ l.map f) (l.foldl (fun b c => betterMatch b (f c)) best) := by
  induction l generalizing cands best with
  | nil => simpa using h
  | cons c rest ih => simpa using ih (betterMatch_spec h (x := f c))

/-- The best match is the longest, and among the longest the nearest (R118). -/
theorem bestMatch_spec (S : List Nat) (W i : Nat) :
    IsBestOf ((List.range' (i - W) (i - (i - W))).map fun c => (matchLength S i c, i - c))
      (bestMatch S W i) := by
  have h0 : IsBestOf [] (0, 0) := ⟨by simp, by simp, by simp, by simp⟩
  simpa [bestMatch] using foldl_betterMatch (fun c => (matchLength S i c, i - c)) _ h0

/-- What the tag at position `i` stands for: nothing, or a match of a candidate in the window. -/
theorem bestMatch_cases (S : List Nat) (W i : Nat) (hi : i ≤ S.length) :
    bestMatch S W i = (0, 0) ∨
      (0 < (bestMatch S W i).1 ∧ 1 ≤ (bestMatch S W i).2 ∧ (bestMatch S W i).2 ≤ i ∧
        (bestMatch S W i).2 ≤ W ∧ i + (bestMatch S W i).1 ≤ S.length ∧
        ∀ k < (bestMatch S W i).1, WrapsAt S i (i - (bestMatch S W i).2) k) := by
  obtain ⟨-, -, h3, h4⟩ := bestMatch_spec S W i
  rcases Nat.eq_zero_or_pos (bestMatch S W i).1 with h0 | hpos
  · exact .inl (Prod.ext h0 (h4 h0))
  · obtain ⟨c, hc, e⟩ := List.mem_map.1 (h3 hpos)
    have hr := List.mem_range'_1.1 hc
    have e1 : (bestMatch S W i).1 = matchLength S i c := by rw [← e]
    have e2 : (bestMatch S W i).2 = i - c := by rw [← e]
    have hs := matchLength_spec c hi
    have e3 : i - (i - c) = c := by omega
    refine .inr ⟨hpos, by omega, by omega, by omega, by omega, ?_⟩
    rw [e1, e2, e3]
    exact hs.2.1

/-! ### The copy (R127) -/

theorem copyBehind_length {d : Nat} (l : Nat) {out : List Nat} (hd : 1 ≤ d) (ho : d ≤ out.length) :
    (copyBehind d l out).length = out.length + l := by
  induction l generalizing out with
  | zero => rfl
  | succ l ih =>
    have hlt : out.length - d < out.length := by omega
    simp only [copyBehind, List.getElem?_eq_getElem hlt, Option.toList_some]
    rw [ih (by simp; omega)]
    simp
    omega

/-- The copy keeps what was there, and every new symbol equals the one `d` before it (R127). -/
theorem copyBehind_spec {d : Nat} (l : Nat) {out : List Nat} (hd : 1 ≤ d) (ho : d ≤ out.length) :
    (∀ k < out.length, (copyBehind d l out)[k]? = out[k]?) ∧
      ∀ c < l, (copyBehind d l out)[out.length + c]? = (copyBehind d l out)[out.length + c - d]? := by
  induction l generalizing out with
  | zero => simp [copyBehind]
  | succ l ih =>
    have hlt : out.length - d < out.length := by omega
    simp only [copyBehind, List.getElem?_eq_getElem hlt, Option.toList_some]
    obtain ⟨h1, h2⟩ := ih (out := out ++ [out[out.length - d]]) (by simp; omega)
    simp only [List.length_append, List.length_singleton] at h1 h2
    refine ⟨fun k hk => ?_, fun c hc => ?_⟩
    · rw [h1 k (by omega), List.getElem?_append_left hk]
    · rcases Nat.eq_zero_or_pos c with rfl | hpos
      · rw [Nat.add_zero, h1 _ (by omega), h1 _ (by omega), List.getElem?_append_left hlt]
        simp [hlt]
      · have := h2 (c - 1) (by omega)
        rwa [show out.length + 1 + (c - 1) = out.length + c by omega] at this

/-- In closed form: the last `d` symbols before the copy, repeated (R127). -/
theorem copyBehind_closed {d : Nat} (l : Nat) {out : List Nat} (hd : 1 ≤ d) (ho : d ≤ out.length) :
    ∀ c < l, (copyBehind d l out)[out.length + c]? = out[out.length - d + c % d]? := by
  obtain ⟨h1, h2⟩ := copyBehind_spec l hd ho
  intro c
  induction c using Nat.strong_induction_on with
  | _ c ih =>
    intro hc
    rw [h2 c hc]
    rcases Nat.lt_or_ge c d with hlt | hge
    · rw [h1 _ (by omega), Nat.mod_eq_of_lt hlt]
      congr 1
      omega
    · rw [show out.length + c - d = out.length + (c - d) by omega, ih (c - d) (by omega) (by omega),
        Nat.mod_eq_sub_mod hge]

/-- Copying a match of the matcher extends the output by the match (R117, R127). -/
theorem copyBehind_match {S : List Nat} {i D L : Nat} (hD : 1 ≤ D) (hDi : D ≤ i)
    (hL : i + L ≤ S.length) (h : ∀ k < L, WrapsAt S i (i - D) k) :
    copyBehind D L (S.take i) = S.take (i + L) := by
  have hlen : (S.take i).length = i := by simp; omega
  have hcl := copyBehind_length L hD (out := S.take i) (by omega)
  refine List.ext_getElem? fun k => ?_
  rcases Nat.lt_or_ge k i with hk | hk
  · rw [(copyBehind_spec L hD (by omega)).1 k (by omega), List.getElem?_take_of_lt hk,
      List.getElem?_take_of_lt (by omega)]
  · rcases Nat.lt_or_ge k (i + L) with hk' | hk'
    · have := copyBehind_closed L hD (out := S.take i) (by omega) (k - i) (by omega)
      rw [hlen, show i + (k - i) = k by omega] at this
      have hw := h (k - i) (by omega)
      rw [WrapsAt, show i + (k - i) = k by omega, show i - (i - D) = D by omega] at hw
      rw [this, List.getElem?_take_of_lt hk', hw, List.getElem?_take_of_lt]
      have := Nat.mod_lt (k - i) (show 0 < D by omega)
      omega
    · rw [List.getElem?_eq_none (by omega), List.getElem?_eq_none (by simp; omega)]

@[simp] theorem copyBehind_zero (d : Nat) (out : List Nat) : copyBehind d 0 out = out := rfl

/-! ### The loops -/

theorem lzcLoop_done {S : List Nat} {W fuel i : Nat} (h : S.length ≤ i) : lzcLoop S W fuel i = [] := by
  cases fuel with
  | zero => rfl
  | succ n => simp [lzcLoop, Nat.not_lt.2 h]

/-- Replaying what the matcher emits from position `i` on restores the rest (R121 item 7). -/
theorem lzdScan_lzcLoop {S : List Nat} {W cap : Nat} (hcap : S.length ≤ cap) (fuel i j : Nat)
    (hf : S.length ≤ i + fuel) (hi : i ≤ S.length) :
    lzdScan cap j (S.take i) (lzcLoop S W fuel i) = .ok S := by
  induction fuel generalizing i j with
  | zero =>
    obtain rfl : i = S.length := by omega
    simp [lzcLoop, lzdScan]
  | succ n ih =>
    simp only [lzcLoop]
    split_ifs with hlt
    · have hti : (S.take i).length = i := by simp; omega
      have hbest := bestMatch_cases S W i hi
      set best := bestMatch S W i with hb
      have hbound : i + best.1 ≤ S.length := by
        rcases hbest with h0 | h
        · simp [h0]
          omega
        · exact h.2.2.2.2.1
      have hcopy : copyBehind best.2 best.1 (S.take i) = S.take (i + best.1) := by
        rcases hbest with h0 | ⟨-, h1, h2, -, h3, h4⟩
        · simp [h0]
        · exact copyBehind_match h1 h2 h3 h4
      have hD : ¬ (S.take i).length < best.2 := by
        rcases hbest with h0 | h
        · simp [h0]
        · omega
      have hZ : ¬ (best.2 = 0 ∧ 0 < best.1) := by
        rcases hbest with h0 | h
        · simp [h0]
        · omega
      rcases Nat.lt_or_ge (i + best.1) S.length with hin | hend
      · have et : tagOfMatch S i best =
            { dist := best.2, len := best.1, hasLit := true, lit := S[i + best.1] } := by
          simp [tagOfMatch, List.getElem?_eq_getElem hin]
        have hstep := ih (i + best.1 + 1) (j + 1) (by omega) (by omega)
        simp only [et, lzdScan, hD, hZ, if_false, TagRec.literal, if_true, hcopy]
        rw [if_neg (by simp [hti]; omega), ← hstep, List.take_append_getElem hin]
      · have et : tagOfMatch S i best =
            { dist := best.2, len := best.1, hasLit := false, lit := 0 } := by
          simp [tagOfMatch, List.getElem?_eq_none hend]
        simp only [et, lzdScan, hD, hZ, if_false, TagRec.literal, hcopy, Bool.false_eq_true]
        rw [if_neg (by simp [hti]; omega), lzcLoop_done (by omega)]
        simp only [lzdScan, List.append_nil]
        rw [List.take_of_length_le hend]
    · obtain rfl : i = S.length := by omega
      simp [lzdScan]

/-- Every tag consumes a symbol, so there are at most as many tags as symbols (R115). -/
theorem lzcLoop_length {S : List Nat} {W : Nat} (fuel i : Nat) :
    (lzcLoop S W fuel i).length ≤ S.length - i := by
  induction fuel generalizing i with
  | zero => simp [lzcLoop]
  | succ n ih =>
    simp only [lzcLoop]
    split_ifs with h
    · have := ih (i + (bestMatch S W i).1 + 1)
      simp only [List.length_cons]
      omega
    · simp

/-- The fields of every tag: distance and length within the input, the literal one of its symbols. -/
theorem lzcLoop_fits {S : List Nat} {W : Nat} {ok : Nat → Prop} (hok : ∀ a ∈ S, ok a) (h0 : ok 0)
    (fuel i : Nat) : ∀ t ∈ lzcLoop S W fuel i, t.dist ≤ S.length ∧ t.len ≤ S.length ∧ ok t.lit := by
  induction fuel generalizing i with
  | zero => simp [lzcLoop]
  | succ n ih =>
    intro t ht
    simp only [lzcLoop] at ht
    split_ifs at ht with h
    · rcases List.mem_cons.1 ht with rfl | ht
      · have hb := bestMatch_cases S W i h.le
        have : (bestMatch S W i).2 ≤ S.length ∧ (bestMatch S W i).1 ≤ S.length := by
          rcases hb with h0 | h1
          · simp [h0]
          · omega
        simp only [tagOfMatch]
        split
        · next a ha => exact ⟨this.1, this.2, hok a (List.mem_of_getElem? ha)⟩
        · exact ⟨this.1, this.2, h0⟩
      · exact ih _ t ht
    · simp at ht

/-- The scan of LZD ends only in symbols or a `raise` of stage 9. -/
theorem lzdScan_cases (cap j : Nat) (out : List Nat) (ts : List TagRec) :
    (∃ o, lzdScan cap j out ts = .ok o) ∨
      ∃ k n, (k = .malformedTag ∨ k = .capacity) ∧ lzdScan cap j out ts = raise k 9 n := by
  induction ts generalizing j out with
  | nil => exact .inl ⟨_, rfl⟩
  | cons t rest ih =>
    simp only [lzdScan]
    split_ifs
    · exact .inr ⟨_, _, .inl rfl, rfl⟩
    · exact .inr ⟨_, _, .inl rfl, rfl⟩
    · exact .inr ⟨_, _, .inr rfl, rfl⟩
    · exact ih ..

theorem mem_copyBehind {d l : Nat} {out : List Nat} {a : Nat} (h : a ∈ copyBehind d l out) :
    a ∈ out := by
  induction l generalizing out with
  | zero => exact h
  | succ l ih =>
    rcases List.mem_append.1 (ih h) with h | h
    · exact h
    · cases hg : out[out.length - d]? with
      | none => simp [hg] at h
      | some b =>
        simp only [hg, Option.toList_some, List.mem_singleton] at h
        exact h ▸ List.mem_of_getElem? hg

theorem copyBehind_length_le (d l : Nat) (out : List Nat) :
    (copyBehind d l out).length ≤ out.length + l := by
  induction l generalizing out with
  | zero => simp
  | succ l ih =>
    have h1 := ih (out ++ (out[out.length - d]?).toList)
    have h2 : (out[out.length - d]?).toList.length ≤ 1 := by cases out[out.length - d]? <;> simp
    simp only [copyBehind, List.length_append] at h1 ⊢
    omega

/-- What a scan without error produced: symbols of the tags, no more than fit. -/
theorem lzdScan_eq_ok {cap j : Nat} {out o : List Nat} {ts : List TagRec} {ok : Nat → Prop}
    (h : lzdScan cap j out ts = .ok o) (ho : ∀ a ∈ out, ok a) (hc : out.length ≤ cap)
    (hts : ∀ t ∈ ts, ok t.lit) : (∀ a ∈ o, ok a) ∧ o.length ≤ cap := by
  induction ts generalizing j out with
  | nil =>
    obtain rfl := Except.ok.inj h
    exact ⟨ho, hc⟩
  | cons t rest ih =>
    simp only [lzdScan] at h
    split_ifs at h with h1 h2 h3
    · simp [raise] at h
    · simp [raise] at h
    · simp [raise] at h
    · refine ih h (fun a ha => ?_) ?_ fun u hu => hts u (List.mem_cons_of_mem _ hu)
      · rcases List.mem_append.1 ha with ha | ha
        · exact ho a (mem_copyBehind ha)
        · simp only [TagRec.literal] at ha
          split_ifs at ha
          · obtain rfl := List.mem_singleton.1 ha
            exact hts t (List.mem_cons_self ..)
          · simp at ha
      · have := copyBehind_length_le t.dist t.len out
        simp only [List.length_append]
        omega

end Sys2Proof.Machine
end

