-- ==== Sys2Proof/Laws/Streams.lean ====
section
/-! SUPPORT. The scans of ENC and HDEC and the byte framing of PACK and UNPACK
(spec/42_huffman_bitstream_encoder.md, spec/43_huffman_bitstream_decoder.md). -/

namespace Sys2Proof.Machine

theorem raise_ne_ok {α : Type} (k : ErrorKind) (st : BitVec 4) (i : Nat) (x : α) :
    (raise k st i : Body α) ≠ .ok x := by simp [raise]

/-! ### ENC (R95) -/

section Enc

variable {ct : Nat → CodeRec} {cap : Nat}

/-- Symbols that have entries and fit are passed over, their codes emitted. -/
theorem encScan_append (j m : Nat) (S T : List Nat) (h : ∀ a ∈ S, (ct a).len ≠ 0)
    (hc : m + (S.flatMap fun a => (ct a).code).length ≤ cap) :
    encScan ct cap j m (S ++ T) =
      match encScan ct cap (j + S.length) (m + (S.flatMap fun a => (ct a).code).length) T with
      | .ok bs => .ok ((S.flatMap fun a => (ct a).code) ++ bs)
      | .error e => .error e := by
  induction S generalizing j m with
  | nil => cases h : encScan ct cap j m T <;> simp [h]
  | cons a rest ih =>
    have ha := h a (by simp)
    simp only [List.flatMap_cons, List.length_append, code_length] at hc
    have hc' : ¬ cap < m + (ct a).len := by omega
    have := ih (j + 1) (m + (ct a).len) (fun b hb => h b (by simp [hb])) (by omega)
    simp only [List.cons_append, encScan, ha, if_false, hc', this, List.flatMap_cons, List.length_append,
      code_length, List.length_cons, Nat.add_assoc, Nat.add_comm 1]
    generalize encScan ct cap (j + (rest.length + 1)) _ T = r
    cases r <;> simp

theorem encScan_ok (j m : Nat) (S : List Nat) (h : ∀ a ∈ S, (ct a).len ≠ 0)
    (hc : m + (S.flatMap fun a => (ct a).code).length ≤ cap) :
    encScan ct cap j m S = .ok (S.flatMap fun a => (ct a).code) := by
  have := encScan_append j m S [] h hc
  simpa [encScan] using this

/-- What a scan without error emitted, and that it fitted. -/
theorem encScan_eq_ok {j m : Nat} {S : List Nat} {bs : List Bool} (h : encScan ct cap j m S = .ok bs) :
    bs = (S.flatMap fun a => (ct a).code) ∧ (∀ a ∈ S, (ct a).len ≠ 0) ∧ m + bs.length ≤ max m cap := by
  induction S generalizing j m bs with
  | nil =>
    simp only [encScan, Except.ok.injEq] at h
    subst h
    simp
  | cons a rest ih =>
    simp only [encScan] at h
    split_ifs at h with h1 h2
    · exact absurd h (raise_ne_ok _ _ _ _)
    · exact absurd h (raise_ne_ok _ _ _ _)
    split at h
    · next cs hcs =>
      obtain ⟨e, hlen, hm⟩ := ih hcs
      simp only [Except.ok.injEq] at h
      subst h
      refine ⟨by simp [e], fun b hb => ?_, ?_⟩
      · rcases List.mem_cons.1 hb with rfl | hb
        · exact h1
        · exact hlen b hb
      · simp only [List.length_append, code_length]
        omega
    · exact absurd h (by simp)

/-- The two ways the scan ends at a symbol, the mismatch first (R95, R148). -/
theorem encScan_error (j m : Nat) (S T : List Nat) (b : Nat) (h : ∀ a ∈ S, (ct a).len ≠ 0)
    (hc : m + (S.flatMap fun a => (ct a).code).length ≤ cap) :
    ((ct b).len = 0 →
      encScan ct cap j m (S ++ b :: T) = raise .alphabetMismatch 4 (j + S.length)) ∧
    ((ct b).len ≠ 0 → cap < m + (S.flatMap fun a => (ct a).code).length + (ct b).len →
      encScan ct cap j m (S ++ b :: T) = raise .capacity 4 (j + S.length)) := by
  rw [encScan_append j m S (b :: T) h hc]
  constructor
  · intro hb
    simp [encScan, hb, raise]
  · intro hb hcap
    simp only [encScan, hb, if_false, hcap, if_true, raise]

/-- The scan ends only in a bit sequence or a `raise` of stage 4. -/
theorem encScan_cases (j m : Nat) (S : List Nat) :
    (∃ bs, encScan ct cap j m S = .ok bs) ∨
      ∃ k i, (k = .alphabetMismatch ∨ k = .capacity) ∧ encScan ct cap j m S = raise k 4 i := by
  induction S generalizing j m with
  | nil => exact .inl ⟨[], rfl⟩
  | cons a rest ih =>
    simp only [encScan]
    split_ifs
    · exact .inr ⟨_, _, .inl rfl, rfl⟩
    · exact .inr ⟨_, _, .inr rfl, rfl⟩
    · rcases ih (j + 1) (m + (ct a).len) with ⟨bs, h⟩ | ⟨k, i, hk, h⟩
      · exact .inl ⟨_, by rw [h]⟩
      · exact .inr ⟨k, i, hk, by rw [h]; rfl⟩

/-- Where every symbol has an entry, a scan that ends in a `raise` met the first code that does not fit. -/
theorem encScan_raise {j m : Nat} {S : List Nat} (hS : ∀ a ∈ S, (ct a).len ≠ 0) (hm : m ≤ cap)
    {k : ErrorKind} {st : BitVec 4} {i : Nat} (h : encScan ct cap j m S = raise k st i) :
    k = .capacity ∧ st = 4 ∧ ∃ n < S.length, BitVec.ofNat 32 i = BitVec.ofNat 32 (j + n) ∧
      m + ((S.take n).flatMap fun a => (ct a).code).length ≤ cap ∧
      cap < m + ((S.take (n + 1)).flatMap fun a => (ct a).code).length := by
  induction S generalizing j m with
  | nil => cases h
  | cons a rest ih =>
    simp only [encScan, if_neg (hS a (by simp))] at h
    split_ifs at h with hc
    · simp only [raise, Except.error.injEq, Stop.raised.injEq, CmdError.mk.injEq] at h
      obtain ⟨rfl, rfl, hi⟩ := h
      exact ⟨rfl, rfl, 0, by simp, hi.symm, by simpa using hm, by simpa using hc⟩
    · cases he : encScan ct cap (j + 1) (m + (ct a).len) rest with
      | ok bs => simp [he, raise] at h
      | error e =>
        rw [he] at h
        obtain ⟨hk, hst, n, hn, hi, h1, h2⟩ := ih (fun b hb => hS b (by simp [hb])) (by omega) (he.trans h)
        refine ⟨hk, hst, n + 1, by simpa using hn, by rw [hi, Nat.add_assoc, Nat.add_comm 1], ?_, ?_⟩ <;>
          · rw [List.take_succ_cons, List.flatMap_cons, List.length_append, code_length]
            omega

end Enc

/-! ### HDEC (R108) -/

section Hdec

variable {ct : Nat → CodeRec} {count cap : Nat}

theorem matchingSymbol_some {acc : List Bool} {a : Nat} (h : matchingSymbol ct count acc = some a) :
    a < count ∧ (ct a).code = acc ∧ ∀ b < a, (ct b).code ≠ acc := by
  have h1 := List.find?_some h
  have h2 := List.mem_of_find?_eq_some h
  simp only [Bool.and_eq_true, decide_eq_true_eq] at h1
  refine ⟨List.mem_range.1 h2, h1.2, fun b hb e => ?_⟩
  have hac := List.mem_range.1 h2
  obtain ⟨-, l1, l2, hl, hall⟩ := List.find?_eq_some_iff_append.1 h
  have hlen : l1.length = a := by
    have e1 : (List.range count)[l1.length]? = some a := by simp [hl]
    have hlt : l1.length < count := by
      have := congrArg List.length hl
      simp at this
      omega
    simpa [hlt] using e1
  have hb1 : b ∈ l1 := by
    have e1 : (List.range count)[b]? = some b := by simp [hb.trans hac]
    rw [hl, List.getElem?_append_left (by omega)] at e1
    exact List.mem_of_getElem? e1
  have := hall b hb1
  simp [← e] at this

theorem matchingSymbol_none {acc : List Bool} :
    matchingSymbol ct count acc = none ↔ ∀ a < count, (ct a).code ≠ acc := by
  simp only [matchingSymbol, List.find?_eq_none, List.mem_range, Bool.and_eq_true, decide_eq_true_eq,
    not_and]
  refine forall₂_congr fun a _ => ⟨fun h e => h (by simp [← e]) e, fun h _ => h⟩

theorem matchingSymbol_eq {acc : List Bool} {a : Nat} (ha : a < count) (he : (ct a).code = acc)
    (hmin : ∀ b < a, (ct b).code ≠ acc) : matchingSymbol ct count acc = some a := by
  cases h : matchingSymbol ct count acc with
  | none => exact absurd he (matchingSymbol_none.1 h a ha)
  | some b =>
    obtain ⟨-, hb, hbm⟩ := matchingSymbol_some h
    rcases Nat.lt_trichotomy a b with hlt | rfl | hgt
    · exact absurd he (hbm a hlt)
    · rfl
    · exact absurd hb (hmin b hgt)

theorem canBeCompleted_iff {acc : List Bool} :
    canBeCompleted ct count acc = true ↔
      ∃ a < count, acc.length < (ct a).len ∧ acc <+: (ct a).code := by
  simp only [canBeCompleted, List.any_eq_true, List.mem_range, Bool.and_eq_true, decide_eq_true_eq]
  refine exists_congr fun a => and_congr_right fun _ => and_congr_right fun _ => ?_
  rw [List.prefix_iff_eq_take, eq_comm]

/-- The start index does not matter while the accumulator is empty and no bit is left out. -/
theorem hdecScan_start (i st st' : Nat) (out : List Nat) (bs : List Bool) :
    hdecScan ct count cap i st [] out bs = hdecScan ct count cap i st' [] out bs := by
  cases bs <;> simp [hdecScan]

/-- A stretch of bits no prefix of which completes an entry only grows the accumulator. -/
theorem hdecScan_grow (i st : Nat) (acc : List Bool) (out : List Nat) (p tail : List Bool)
    (hp : ∀ k, k < p.length → ∀ a < count, (ct a).code ≠ acc ++ p.take (k + 1)) :
    hdecScan ct count cap i st acc out (p ++ tail) =
      hdecScan ct count cap (i + p.length) (if acc = [] ∧ p ≠ [] then i else st) (acc ++ p) out tail := by
  induction p generalizing i st acc with
  | nil => simp
  | cons b p ih =>
    have h0 : matchingSymbol ct count (acc ++ [b]) = none :=
      matchingSymbol_none.2 fun a ha => by simpa using hp 0 (by simp) a ha
    simp only [List.cons_append, hdecScan, h0]
    rw [ih]
    · have hne : acc ++ [b] ≠ [] := by simp
      simp only [hne, false_and, if_false, List.append_assoc, List.singleton_append, List.length_cons,
        Nat.add_assoc, Nat.add_comm 1, ne_eq, reduceCtorEq, not_false_eq_true, and_true]
    · intro k hk a ha
      have := hp (k + 1) (by simpa using hk) a ha
      simpa using this

/-- In a conforming table every symbol with an entry is the first match of its code (R22). -/
theorem firstMatch_of_wfCodeTable {A : Nat} {code : Nat → List Bool} (hw : WfCodeTable A code) {a : Nat}
    (ha : a < A) (hne : code a ≠ []) : FirstMatch A code a := by
  refine ⟨ha, hne, fun b hb hbne hp => ?_⟩
  by_cases h : b = a
  · subst h
    exact ⟨rfl, le_rfl⟩
  · exact absurd (List.isPrefixOf_iff_prefix.2 hp) (hw b hb a ha h hbne hne)

/-- The code of a first match is decoded at once (R108). -/
theorem hdecScan_code {a : Nat} (hw : FirstMatch count (fun a => (ct a).code) a)
    (i st : Nat) (out : List Nat) (tail : List Bool) :
    hdecScan ct count cap i st [] out ((ct a).code ++ tail) =
      if out.length = cap then raise .capacity 5 i
      else hdecScan ct count cap (i + (ct a).len) i [] (out ++ [a]) tail := by
  obtain ⟨ha, hne, hfirst⟩ : a < count ∧ (ct a).code ≠ [] ∧ ∀ b < count, (ct b).code ≠ [] →
      (ct b).code <+: (ct a).code → (ct b).code = (ct a).code ∧ a ≤ b := hw
  obtain ⟨p, b, hpb⟩ : ∃ p b, (ct a).code = p ++ [b] :=
    ⟨_, _, (List.dropLast_append_getLast hne).symm⟩
  have hlen : (ct a).len = p.length + 1 := by
    have := congrArg List.length hpb
    simpa using this
  rw [hpb, List.append_assoc, hdecScan_grow]
  · have hm : matchingSymbol ct count (p ++ [b]) = some a := by
      refine matchingSymbol_eq ha hpb fun c hc e => ?_
      have hce : (ct c).code = (ct a).code := e.trans hpb.symm
      have := (hfirst c (hc.trans ha) (hce ▸ hne) (hce ▸ List.prefix_rfl)).2
      omega
    simp only [List.nil_append, List.singleton_append, hdecScan, hm]
    have : (if p = [] then i + p.length else if True ∧ p ≠ [] then i else st) = i := by
      by_cases hp : p = [] <;> simp [hp]
    simp only [true_and] at this ⊢
    rw [this, hlen, Nat.add_assoc]
  · intro k hk c hc e
    have hpre : (ct c).code <+: (ct a).code := by
      rw [e, hpb, List.nil_append]
      exact (List.take_prefix _ _).trans (List.prefix_append _ _)
    have hl : (ct c).code.length = k + 1 := by
      rw [e, List.nil_append, List.length_take]
      omega
    have hce : (ct c).code ≠ [] := by
      intro h0
      rw [h0] at hl
      simp at hl
    have := congrArg List.length (hfirst c hc hce hpre).1
    rw [hl, hpb] at this
    simp at this
    omega

/-- A concatenation of codes of first matches decodes to its symbols (R108, R112). -/
theorem hdecScan_flatMap (S : List Nat) (hS : ∀ a ∈ S, FirstMatch count (fun a => (ct a).code) a)
    (i st : Nat) (out : List Nat) (tail : List Bool) (hc : out.length + S.length ≤ cap) :
    hdecScan ct count cap i st [] out (S.flatMap (fun a => (ct a).code) ++ tail) =
      hdecScan ct count cap (i + (S.flatMap fun a => (ct a).code).length) st [] (out ++ S) tail := by
  induction S generalizing i st out with
  | nil => simp
  | cons a rest ih =>
    simp only [List.length_cons] at hc
    rw [List.flatMap_cons, List.append_assoc, hdecScan_code (hS a (by simp)), if_neg (by omega),
      ih (fun b hb => hS b (by simp [hb])) _ _ _ (by simp; omega), hdecScan_start _ _ st]
    simp [Nat.add_assoc]

/-- What a scan without error emitted: symbols of the alphabet, and no more than fit. -/
theorem hdecScan_eq_ok {i st : Nat} {acc : List Bool} {out out' : List Nat} {bs : List Bool}
    (h : hdecScan ct count cap i st acc out bs = .ok out') (ho : ∀ a ∈ out, a < count)
    (hc : out.length ≤ cap) : (∀ a ∈ out', a < count) ∧ out'.length ≤ cap := by
  induction bs generalizing i st acc out with
  | nil =>
    simp only [hdecScan] at h
    split_ifs at h
    · obtain rfl := Except.ok.inj h
      exact ⟨ho, hc⟩
    · exact absurd h (raise_ne_ok _ _ _ _)
    · exact absurd h (raise_ne_ok _ _ _ _)
  | cons b rest ih =>
    simp only [hdecScan] at h
    split at h
    · exact ih h ho hc
    · next a hm =>
      by_cases hcap : out.length = cap
      · rw [if_pos hcap] at h
        exact absurd h (raise_ne_ok _ _ _ _)
      rw [if_neg hcap] at h
      refine ih h (fun x hx => ?_) (by simp; omega)
      rcases List.mem_append.1 hx with hx | hx
      · exact ho x hx
      · obtain rfl := List.mem_singleton.1 hx
        exact (matchingSymbol_some hm).1

/-- The scan ends only in symbols or a `raise` of stage 5. -/
theorem hdecScan_cases (i st : Nat) (acc : List Bool) (out : List Nat) (bs : List Bool) :
    (∃ o, hdecScan ct count cap i st acc out bs = .ok o) ∨
      ∃ k n, (k = .corruptStream ∨ k = .alphabetMismatch ∨ k = .capacity) ∧
        hdecScan ct count cap i st acc out bs = raise k 5 n := by
  induction bs generalizing i st acc out with
  | nil =>
    simp only [hdecScan]
    split_ifs
    · exact .inl ⟨_, rfl⟩
    · exact .inr ⟨_, _, .inl rfl, rfl⟩
    · exact .inr ⟨_, _, .inr (.inl rfl), rfl⟩
  | cons b rest ih =>
    simp only [hdecScan]
    split
    · exact ih ..
    · by_cases hcap : out.length = cap
      · rw [if_pos hcap]
        exact .inr ⟨_, _, .inr (.inr rfl), rfl⟩
      · rw [if_neg hcap]
        exact ih ..

end Hdec

/-! ### PACK and UNPACK (R100, R105) -/

theorem byteOf_getLsbD (f : Nat → Bool) {k : Nat} (hk : k < 8) : (byteOf f).getLsbD k = f (7 - k) := by
  interval_cases k <;> simp only [byteOf, BitVec.getLsbD_append, BitVec.getLsbD_ofBool] <;> simp

theorem paddingCount_le (m : Nat) : paddingCount m ≤ 7 := by
  simp only [paddingCount]
  omega

theorem paddingCount_aligns (m : Nat) : (m + paddingCount m) % 8 = 0 := by
  simp only [paddingCount]
  omega

theorem payload_length (m : Nat) : 8 * ((m + paddingCount m) / 8) = m + paddingCount m := by
  have := paddingCount_aligns m
  omega

@[simp] theorem packBits_length (bit : Nat → Bool) (m : Nat) :
    (packBits bit m).length = 1 + (m + paddingCount m) / 8 := by
  simp [packBits, Nat.add_comm]

theorem packBits_header (bit : Nat → Bool) (m : Nat) :
    (packBits bit m)[0]? = some (BitVec.ofNat 8 (paddingCount m)) := by simp [packBits]

theorem packBits_payload (bit : Nat → Bool) (m : Nat) {j : Nat} (hj : j < (m + paddingCount m) / 8) :
    (packBits bit m)[1 + j]? = some (byteOf fun t => decide (8 * j + t < m) && bit (8 * j + t)) := by
  rw [Nat.add_comm]
  simp [packBits, hj]

/-- Bit `i` of the sequence is bit `7 - i mod 8` of payload byte `i / 8` (R41). -/
theorem packBits_bit (bit : Nat → Bool) (m : Nat) {i : Nat} (hi : i < m) {b : Byte}
    (hb : (packBits bit m)[1 + i / 8]? = some b) : b.getLsbD (7 - i % 8) = bit i := by
  have hp := payload_length m
  rw [packBits_payload bit m (by omega)] at hb
  obtain rfl := Option.some.inj hb
  rw [byteOf_getLsbD _ (by omega)]
  have e : 8 * (i / 8) + (7 - (7 - i % 8)) = i := by omega
  simp [e, hi]

@[simp] theorem unpackBits_length (byte : Nat → Byte) (m : Nat) : (unpackBits byte m).length = m := by
  simp [unpackBits]

/-- UNPACK undoes PACK bit by bit (R101, R106). -/
theorem unpackBits_packBits (bit : Nat → Bool) (m : Nat) (byte : Nat → Byte)
    (h : ∀ k, k < 1 + (m + paddingCount m) / 8 → (packBits bit m)[k]? = some (byte k)) :
    unpackBits byte m = (List.range m).map bit := by
  refine List.map_congr_left fun i hi => ?_
  have him := List.mem_range.1 hi
  have hp := payload_length m
  exact packBits_bit bit m him (h _ (by omega))

end Sys2Proof.Machine
end

