-- ==== Sys2Proof/Laws/Commands.lean ====
section
/-! SUPPORT. The commands as a whole: every instruction is the completion event of one body, a body ends
in one of a few ways, and a step is one of a few events. Later proofs cite these and unfold no `exec`. -/

namespace Sys2Proof.Machine

/-! ### The completion event -/

/-- The body of an instruction: what R80 to R128 do with the state at the command's start, and the
`raise` of R63. -/
def bodyOf (i : Instr) (s : State) : Body State :=
  match i with
  | .freq => freqBody s
  | .build => buildBody s
  | .codes => codesBody s
  | .enc => encBody s
  | .henc => hencBody s
  | .pack => packBody s
  | .unpack => unpackBody s
  | .hdec => hdecBody s
  | .lzc => lzcBody s
  | .lzd => lzdBody s
  | i => raise .illegalCommand 0 (encode i).toNat

theorem illegalCommand_eq_finishCommand (v : Word) (s : State) :
    illegalCommand v s = finishCommand [] false s (raise .illegalCommand 0 v.toNat) := by
  simp [illegalCommand, reportIllegal, finishCommand, raise]

theorem exec_eq_finishCommand (i : Instr) (s : State) :
    exec i s = finishCommand (destinations i) (primarySourceEmpty i s) s (bodyOf i s) := by
  cases i <;> first | rfl | exact illegalCommand_eq_finishCommand _ _

/-- A next state is the completion of the body or its abort. -/
theorem finishCommand_next {dests : List Entity} {empty : Bool} {s t : State} {body : Body State}
    (h : finishCommand dests empty s body = .next t) :
    (∃ u, body = .ok u ∧ t = completeCommand empty u) ∨
      ∃ e, body = .error (.raised e) ∧ t = raiseError dests e s := by
  match body, h with
  | .ok u, h => exact .inl ⟨u, rfl, by simpa [finishCommand] using h.symm⟩
  | .error (.raised e), h => exact .inr ⟨e, rfl, by simpa [finishCommand] using h.symm⟩
  | .error (.fault f), h => simp [finishCommand] at h

/-- What an instruction can do, for every proof about a next state. -/
theorem exec_next {i : Instr} {s t : State} (h : exec i s = .next t) :
    (∃ u, bodyOf i s = .ok u ∧ t = completeCommand (primarySourceEmpty i s) u) ∨
      ∃ e, bodyOf i s = .error (.raised e) ∧ t = raiseError (destinations i) e s :=
  finishCommand_next (exec_eq_finishCommand i s ▸ h)

theorem exec_of_ok {i : Instr} {s u : State} (h : bodyOf i s = .ok u) :
    exec i s = .next (completeCommand (primarySourceEmpty i s) u) := by
  rw [exec_eq_finishCommand, h]
  rfl

theorem exec_of_raise {i : Instr} {s : State} {k : ErrorKind} {st : BitVec 4} {n : Nat}
    (h : bodyOf i s = raise k st n) :
    exec i s = .next (raiseError (destinations i)
      { kind := k, stage := st, info := BitVec.ofNat 32 n } s) := by
  rw [exec_eq_finishCommand, h]
  rfl

/-- The abort reports the error of `raise` field by field (R146). -/
theorem exec_aborted {i : Instr} {s : State} {k : ErrorKind} {st : BitVec 4} {n : Nat}
    (h : bodyOf i s = raise k st n) :
    exec i s = .next (raiseError (destinations i) ⟨k, st, BitVec.ofNat 32 n⟩ s) ∧
      Aborted s (raiseError (destinations i) ⟨k, st, BitVec.ofNat 32 n⟩ s) k.code st (BitVec.ofNat 32 n) :=
  ⟨exec_of_raise h, rfl, rfl⟩

theorem isCommand_eq_false {i : Instr} (h : isCommand i = false) :
    bodyOf i = fun _ => raise .illegalCommand 0 (encode i).toNat := by
  cases i <;> first | (exfalso; revert h; decide) | rfl

theorem destinations_of_illegal {i : Instr} (h : isCommand i = false) : destinations i = [] := by
  cases i <;> first | (exfalso; revert h; decide) | rfl

/-- What an instruction that encodes no command does (R63). -/
theorem exec_of_illegal {i : Instr} (h : isCommand i = false) (s : State) :
    exec i s = .next (reportIllegal (encode i) s) := by
  rw [exec_eq_finishCommand, isCommand_eq_false h, destinations_of_illegal h]
  simp [reportIllegal, finishCommand, raise]

/-- What an accepted write of `REG.CMD` does: it starts a command, or reports an illegal word. -/
theorem startCommand_cases (v : Word) (s : State) :
    (isCommand (decode v) = true ∧ startCommand v s = acceptCommand v s) ∨
      (isCommand (decode v) = false ∧ startCommand v s = reportIllegal v (acceptCommand v s)) := by
  unfold startCommand
  cases isCommand (decode v)
  · exact .inr ⟨rfl, rfl⟩
  · exact .inl ⟨rfl, rfl⟩

/-! ### Steps -/

/-- An event that is not the completion of a command always answers a next state. -/
theorem step_of_event {s : State} {e : Event} {rest : List Event} (h : s.inputs = e :: rest)
    (hc : e ≠ .complete) : step s = .next (hostEvent e { s with inputs := rest }) := by
  unfold step advance
  rw [h]
  cases e <;> first | rfl | exact absurd rfl hc

/-- Every step is one event, or the completion of the running command, or an idle `complete`. -/
theorem step_next {s t : State} (h : step s = .next t) :
    (∃ e rest, e ≠ .complete ∧ s.inputs = e :: rest ∧ t = hostEvent e { s with inputs := rest }) ∨
      ∃ rest, (s.inputs = rest ∧ rest = [] ∨ s.inputs = .complete :: rest) ∧
        (s.status.busy = true ∧ exec (decode s.cmdLatch) { s with inputs := rest } = .next t ∨
          s.status.busy = false ∧ t = { s with inputs := rest }) := by
  match hi : s.inputs with
  | [] =>
    have hs : ({ s with inputs := [] } : State) = s := by rw [← hi]
    refine .inr ⟨[], .inl ⟨rfl, rfl⟩, ?_⟩
    simp only [step, advance, hi, runCommand, currentInstr] at h
    split_ifs at h with hb
    · exact .inl ⟨hb, by rw [hs]; exact h⟩
    · exact .inr ⟨by simpa using hb, by rw [hs]; simpa using h.symm⟩
  | .complete :: rest =>
    refine .inr ⟨rest, .inr rfl, ?_⟩
    simp only [step, advance, hi, runCommand, currentInstr] at h
    split_ifs at h with hb
    · exact .inl ⟨hb, h⟩
    · exact .inr ⟨by simpa using hb, by simpa using h.symm⟩
  | .regRead n :: rest => exact .inl ⟨_, rest, by simp, rfl, by simpa [step_of_event hi] using h.symm⟩
  | .regWrite n v :: rest => exact .inl ⟨_, rest, by simp, rfl, by simpa [step_of_event hi] using h.symm⟩
  | .bufRead b i :: rest => exact .inl ⟨_, rest, by simp, rfl, by simpa [step_of_event hi] using h.symm⟩
  | .bufWrite b i v :: rest => exact .inl ⟨_, rest, by simp, rfl, by simpa [step_of_event hi] using h.symm⟩
  | .reset :: rest => exact .inl ⟨_, rest, by simp, rfl, by simpa [step_of_event hi] using h.symm⟩

@[simp] theorem run_zero (s : State) : Host.Core.run Sys2Proof.core 0 s = .next s := rfl

theorem run_succ {s t : State} (h : step s = .next t) (k : Nat) :
    Host.Core.run Sys2Proof.core (k + 1) s = Host.Core.run Sys2Proof.core k t := by
  simp only [Host.Core.run]
  rw [show Sys2Proof.core.step s = .next t from h]

theorem run_one (s : State) : Host.Core.run Sys2Proof.core 1 s = step s := by
  simp only [Host.Core.run]
  show _ = Sys2Proof.core.step s
  cases Sys2Proof.core.step s <;> rfl

/-! ### The entities a command does not write -/

/-- Emptying entities changes nothing but them. -/
theorem emptyEntities_kept (dests : List Entity) (s : State) :
    SourcesKept s (emptyEntities dests s) ∧ (emptyEntities dests s).status = s.status ∧
      (emptyEntities dests s).errInfo = s.errInfo ∧ (emptyEntities dests s).cmdLatch = s.cmdLatch ∧
      ∀ e, e ∉ dests → e.kept s (emptyEntities dests s) := by
  induction dests generalizing s with
  | nil =>
    refine ⟨by simp [SourcesKept, emptyEntities], rfl, rfl, rfl, fun e _ => ?_⟩
    cases e <;> simp [Entity.kept, emptyEntities]
  | cons d ds ih =>
    obtain ⟨h1, h2, h3, h4, h5⟩ := ih (emptyEntity s d)
    have e : emptyEntities (d :: ds) s = emptyEntities ds (emptyEntity s d) := rfl
    rw [e]
    refine ⟨?_, by rw [h2]; cases d <;> rfl, by rw [h3]; cases d <;> rfl, by rw [h4]; cases d <;> rfl,
      fun x hx => ?_⟩
    · cases d <;> exact h1
    · have hne : x ≠ d := fun e => hx (e ▸ List.mem_cons_self ..)
      have := h5 x fun h => hx (List.mem_cons_of_mem _ h)
      cases d <;> cases x <;> first | exact absurd rfl hne | exact this

/-- After an abort nothing has changed but the destinations, the status and the error detail. -/
theorem raiseError_kept (dests : List Entity) (e : CmdError) (s : State) :
    SourcesKept s (raiseError dests e s) ∧ ∀ x, x ∉ dests → x.kept s (raiseError dests e s) := by
  obtain ⟨h1, -, -, -, h5⟩ := emptyEntities_kept dests s
  exact ⟨h1, fun x hx => by cases x <;> exact h5 _ hx⟩

theorem raiseError_emptied (dests : List Entity) (e : CmdError) (s : State) :
    ∀ x ∈ dests, x.emptied (raiseError dests e s) := by
  have key : ∀ (x : Entity) (ds : List Entity) (u : State), x.emptied u → x.emptied (emptyEntities ds u) := by
    intro x ds
    induction ds with
    | nil => exact fun u h => h
    | cons d ds ih =>
      intro u h
      refine ih (emptyEntity u d) ?_
      cases d <;> cases x <;>
        first | exact h | simp [Entity.emptied, emptyEntity, State.countAt, State.codeRecAt]
  have main : ∀ (x : Entity) (ds : List Entity) (u : State), x ∈ ds → x.emptied (emptyEntities ds u) := by
    intro x ds
    induction ds with
    | nil => simp
    | cons d ds ih =>
      intro u hx
      rcases List.mem_cons.1 hx with rfl | hx
      · refine key x ds (emptyEntity u x) ?_
        cases x <;> simp [Entity.emptied, emptyEntity, State.countAt, State.codeRecAt]
      · exact ih (emptyEntity u d) hx
  intro x hx
  cases x <;> exact main _ dests s hx

end Sys2Proof.Machine
end

