-- ==== Sys2Proof/Laws/Invariant.lean ====
section
/-! SUPPORT. What keeps the invariant of `Safety.lean`: each replacement of an entity under what its
contents must satisfy, and each command's body. -/

namespace Sys2Proof.Machine

/-- The invariant without its part about `REG.STATUS`. -/
abbrev State.dataOk (s : State) : Prop :=
  s.cfg.wf ∧ s.memoryOk ∧ s.contentsOk ∧ s.lengthsOk ∧ s.treeOk

theorem inv_iff (s : State) : s.Inv ↔ s.dataOk ∧ s.statusOk :=
  ⟨fun ⟨a, b, c, d, e, f⟩ => ⟨⟨a, b, c, e, f⟩, d⟩, fun ⟨⟨a, b, c, e, f⟩, d⟩ => ⟨a, b, c, d, e, f⟩⟩

/-! ### Widths -/

theorem lt_two_pow_idxW (p : Params) {n : Nat} (h : n ≤ p.nMax) : n < 2 ^ p.idxW :=
  lt_of_le_of_lt h Nat.lt_log2_self

theorem two_pow_pos' (n : Nat) : 0 < 2 ^ n := Nat.two_pow_pos n

section Reads

variable {s : State} (h : s.contentsOk)
include h

theorem sinAt_lt (i : Nat) (hf : s.sin.fill = none) : s.sinAt i < 2 ^ s.cfg.symW := by
  unfold State.sinAt
  cases hc : s.sin.get? i with
  | none => exact Nat.mod_lt _ (two_pow_pos' _)
  | some a => exact (within_get? h.1 hc).resolve_right (by simp [hf])

theorem soutAt_lt (i : Nat) (hf : s.sout.fill = none) : s.soutAt i < 2 ^ s.cfg.symW := by
  unfold State.soutAt
  cases hc : s.sout.get? i with
  | none => exact Nat.mod_lt _ (two_pow_pos' _)
  | some a => exact (within_get? h.2.1 hc).resolve_right (by simp [hf])

theorem countAt_lt (a : Nat) (hf : s.ft.fill = some 0) : s.countAt a < 2 ^ s.cfg.cntW := by
  unfold State.countAt
  cases hc : s.ft.get? a with
  | none => exact Nat.mod_lt _ (two_pow_pos' _)
  | some n =>
    rcases within_get? h.2.2.1 hc with h | h
    · exact h
    · rw [hf] at h
      cases h
      exact two_pow_pos' _

theorem tagAt_fits (j : Nat) (hf : s.tags.fill = none) : (s.tagAt j).fits s.cfg := by
  unfold State.tagAt
  cases hc : s.tags.get? j with
  | none =>
    exact ⟨Nat.mod_lt _ (two_pow_pos' _), Nat.mod_lt _ (two_pow_pos' _), Nat.mod_lt _ (two_pow_pos' _)⟩
  | some t => exact (within_get? h.2.2.2.2.2.2.2 hc).resolve_right (by simp [hf])

end Reads

/-! ### Replacing an entity -/

section Replace

variable {s : State} (h : s.dataOk)
include h

theorem dataOk_completeCommand (e : Bool) : (completeCommand e s).dataOk := h

theorem dataOk_writeFreqTable {m : Memory Nat} (hm : m.wf) (hf : m.fill = some 0)
    (hw : m.within s.cfg.alphabet (· < 2 ^ s.cfg.cntW)) : (writeFreqTable m s).dataOk := by
  obtain ⟨h1, h2, h3, h4, h5⟩ := h
  refine ⟨h1, ?_, ?_, h4, h5⟩
  · exact ⟨h2.1, h2.2.1, hm, h2.2.2.2.1, h2.2.2.2.2.1, h2.2.2.2.2.2.1, h2.2.2.2.2.2.2.1,
      h2.2.2.2.2.2.2.2.1, h2.2.2.2.2.2.2.2.2.1, h2.2.2.2.2.2.2.2.2.2.1, hf,
      h2.2.2.2.2.2.2.2.2.2.2.2⟩
  · exact ⟨h3.1, h3.2.1, hw, h3.2.2.2⟩

theorem dataOk_writeCodeTable {codes : List (Nat × List Bool)}
    (hc : ∀ e ∈ codes, e.1 < s.cfg.alphabet ∧ e.2.length < 2 ^ s.cfg.clenW ∧ e.2.length ≤ s.cfg.codeMax) :
    (writeCodeTable codes s).dataOk := by
  obtain ⟨h1, h2, h3, h4, h5⟩ := h
  refine ⟨h1, ?_, ?_, h4, h5⟩
  · exact ⟨h2.1, h2.2.1, h2.2.2.1, h2.2.2.2.1, writeCodes_wf codes (clearTo_wf _ _), h2.2.2.2.2.2.1,
      h2.2.2.2.2.2.2.1, h2.2.2.2.2.2.2.2.1, h2.2.2.2.2.2.2.2.2.1, h2.2.2.2.2.2.2.2.2.2.1,
      h2.2.2.2.2.2.2.2.2.2.2.1, h2.2.2.2.2.2.2.2.2.2.2.2.1,
      .inr ((writeCodes_fill codes _).trans rfl), h2.2.2.2.2.2.2.2.2.2.2.2.2.2⟩
  · refine ⟨h3.1, h3.2.1, h3.2.2.1, h3.2.2.2.1, ?_, h3.2.2.2.2.2⟩
    refine writeCodes_within codes (within_clearTo _ _ _ _) fun e he => ?_
    obtain ⟨a, b, c⟩ := hc e he
    exact ⟨a, b, lt_of_lt_of_le (bitsNumber_lt e.2) (Nat.pow_le_pow_right (by decide) c)⟩

theorem dataOk_writeBits {bs : List Bool} (hb : bs.length ≤ s.cfg.bMax) : (writeBits bs s).dataOk := by
  obtain ⟨h1, h2, h3, h4, h5⟩ := h
  refine ⟨h1, ?_, ?_, h4, h5⟩
  · exact ⟨h2.1, h2.2.1, h2.2.2.1, h2.2.2.2.1, h2.2.2.2.2.1, rewrite_wf _ _,
      h2.2.2.2.2.2.2.1, h2.2.2.2.2.2.2.2.1, h2.2.2.2.2.2.2.2.2.1, h2.2.2.2.2.2.2.2.2.2.1,
      h2.2.2.2.2.2.2.2.2.2.2.1, h2.2.2.2.2.2.2.2.2.2.2.2.1, h2.2.2.2.2.2.2.2.2.2.2.2.2.1, rfl,
      h2.2.2.2.2.2.2.2.2.2.2.2.2.2.2⟩
  · exact ⟨h3.1, h3.2.1, h3.2.2.1, h3.2.2.2.1, h3.2.2.2.2.1, within_rewrite hb (by simp),
      h3.2.2.2.2.2.2⟩

theorem dataOk_writeBytes {bs : List Byte} (hb : bs.length ≤ s.cfg.byMax) : (writeBytes bs s).dataOk := by
  obtain ⟨h1, h2, h3, h4, h5⟩ := h
  refine ⟨h1, ?_, ?_, h4, h5⟩
  · exact ⟨h2.1, h2.2.1, h2.2.2.1, h2.2.2.2.1, h2.2.2.2.2.1, h2.2.2.2.2.2.1, rewrite_wf _ _,
      h2.2.2.2.2.2.2.2.1, h2.2.2.2.2.2.2.2.2.1, h2.2.2.2.2.2.2.2.2.2.1,
      h2.2.2.2.2.2.2.2.2.2.2.1, h2.2.2.2.2.2.2.2.2.2.2.2.1, h2.2.2.2.2.2.2.2.2.2.2.2.2.1,
      h2.2.2.2.2.2.2.2.2.2.2.2.2.2.1, rfl, h2.2.2.2.2.2.2.2.2.2.2.2.2.2.2.2⟩
  · exact ⟨h3.1, h3.2.1, h3.2.2.1, h3.2.2.2.1, h3.2.2.2.2.1, h3.2.2.2.2.2.1,
      within_rewrite hb (by simp), h3.2.2.2.2.2.2.2⟩

theorem dataOk_writeTags {ts : List TagRec} (hl : ts.length ≤ s.cfg.tMax)
    (hf : ∀ t ∈ ts, t.fits s.cfg) : (writeTags ts s).dataOk := by
  obtain ⟨h1, h2, h3, h4, h5⟩ := h
  refine ⟨h1, ?_, ?_, h4, h5⟩
  · exact ⟨h2.1, h2.2.1, h2.2.2.1, h2.2.2.2.1, h2.2.2.2.2.1, h2.2.2.2.2.2.1, h2.2.2.2.2.2.2.1,
      rewrite_wf _ _, h2.2.2.2.2.2.2.2.2.1, h2.2.2.2.2.2.2.2.2.2.1,
      h2.2.2.2.2.2.2.2.2.2.2.1, h2.2.2.2.2.2.2.2.2.2.2.2.1, h2.2.2.2.2.2.2.2.2.2.2.2.2.1,
      h2.2.2.2.2.2.2.2.2.2.2.2.2.2.1, h2.2.2.2.2.2.2.2.2.2.2.2.2.2.2.1, rfl⟩
  · exact ⟨h3.1, h3.2.1, h3.2.2.1, h3.2.2.2.1, h3.2.2.2.2.1, h3.2.2.2.2.2.1, h3.2.2.2.2.2.2.1,
      within_rewrite hl hf⟩

theorem dataOk_writeSymbols {xs : List Nat} (hl : xs.length ≤ s.cfg.nMax)
    (hf : ∀ a ∈ xs, a < 2 ^ s.cfg.symW) : (writeSymbols xs s).dataOk := by
  obtain ⟨h1, h2, h3, h4, h5⟩ := h
  have hlt : xs.length < 2 ^ 32 := by have := h1.2.2.2.2.2.1; omega
  have hn : (BitVec.ofNat 32 xs.length).toNat = xs.length := by
    rw [BitVec.toNat_ofNat, Nat.mod_eq_of_lt hlt]
  refine ⟨h1, ?_, ?_, ⟨?_, ?_, h4.2.2⟩, h5⟩
  · exact ⟨h2.1, rewrite_wf _ _, h2.2.2.1, h2.2.2.2.1, h2.2.2.2.2.1, h2.2.2.2.2.2.1, h2.2.2.2.2.2.2.1,
      h2.2.2.2.2.2.2.2.1, h2.2.2.2.2.2.2.2.2.1, rfl, h2.2.2.2.2.2.2.2.2.2.2⟩
  · exact ⟨h3.1, within_rewrite hl hf, h3.2.2⟩
  · show (BitVec.ofNat 32 xs.length).toNat ≤ s.cfg.nMax
    rw [hn]
    exact hl
  · intro i hi
    have hi' : i < xs.length := by rw [← hn]; exact hi
    show ((s.sout.rewrite xs).get? i).isSome = true
    simp [hi']

theorem dataOk_writeTree {nodes : List NodeRec} (hne : nodes ≠ [])
    (hf : ∀ r ∈ nodes, r.fits s.cfg)
    (hw : WfTree s.cfg.alphabet (arenaAt nodes) nodes.length (nodes.length - 1)) :
    (writeTree nodes s).dataOk := by
  obtain ⟨h1, h2, h3, h4, h5⟩ := h
  have hA : s.cfg.alphabet ≤ 2 ^ 31 := Nat.pow_le_pow_right (by decide) h1.2.2.2.2.1
  have hlen : nodes.length ≤ s.cfg.nodeMax := by
    have := hw.1
    simp only [Params.nodeMax]
    omega
  have hpos : 0 < nodes.length := List.length_pos_iff.2 hne
  have hlt : nodes.length < 2 ^ 32 := by simp only [Params.nodeMax] at hlen; omega
  have hn : (BitVec.ofNat 32 nodes.length).toNat = nodes.length := by
    rw [BitVec.toNat_ofNat, Nat.mod_eq_of_lt hlt]
  have hr : (BitVec.ofNat 32 (nodes.length - 1)).toNat = nodes.length - 1 := by
    rw [BitVec.toNat_ofNat, Nat.mod_eq_of_lt (by omega)]
  refine ⟨h1, ?_, ?_, ⟨h4.1, h4.2.1, ?_, ?_⟩, .inr ⟨?_, ?_⟩⟩
  · exact ⟨h2.1, h2.2.1, h2.2.2.1, rewrite_wf _ _, h2.2.2.2.2.1, h2.2.2.2.2.2.1, h2.2.2.2.2.2.2.1,
      h2.2.2.2.2.2.2.2.1, h2.2.2.2.2.2.2.2.2.1, h2.2.2.2.2.2.2.2.2.2.1, h2.2.2.2.2.2.2.2.2.2.2.1, rfl,
      h2.2.2.2.2.2.2.2.2.2.2.2.2⟩
  · exact ⟨h3.1, h3.2.1, h3.2.2.1, within_rewrite hlen hf, h3.2.2.2.2⟩
  · show (BitVec.ofNat 32 nodes.length).toNat ≤ s.cfg.nodeMax
    rw [hn]
    exact hlen
  · intro i hi
    have hi' : i < nodes.length := by rw [← hn]; exact hi
    show ((s.node.rewrite nodes).get? i).isSome = true
    simp [hi']
  · show BitVec.ofNat 32 nodes.length ≠ 0
    intro e
    have := congrArg BitVec.toNat e
    rw [hn] at this
    simp at this
    exact hne this
  · show WfTree s.cfg.alphabet (writeTree nodes s).nodeAt (BitVec.ofNat 32 nodes.length).toNat
      (BitVec.ofNat 32 (nodes.length - 1)).toNat
    rw [hn, hr]
    refine wfTree_congr (fun k hk => ?_) hw
    show arenaAt nodes k = ((s.node.rewrite nodes).get? k).getD _
    simp [arenaAt, hk]

theorem dataOk_emptyEntity (e : Entity) : (emptyEntity s e).dataOk := by
  obtain ⟨h1, h2, h3, h4, h5⟩ := h
  obtain ⟨a1, a2, a3, a4, a5, a6, a7, a8, a9, a10, a11, a12, a13, a14, a15, a16⟩ := h2
  obtain ⟨c1, c2, c3, c4, c5, c6, c7, c8⟩ := h3
  cases e
  · exact ⟨h1, ⟨a1, a2, clearTo_wf _ _, a4, a5, a6, a7, a8, a9, a10, rfl, a12, a13, a14, a15, a16⟩,
      ⟨c1, c2, within_clearTo _ _ _ _, c4, c5, c6, c7, c8⟩, h4, h5⟩
  · refine ⟨h1, ⟨a1, a2, a3, wipe_wf _, a5, a6, a7, a8, a9, a10, a11, rfl, a13, a14, a15, a16⟩,
      ⟨c1, c2, c3, within_wipe _ _ _, c5, c6, c7, c8⟩, ⟨h4.1, h4.2.1, Nat.zero_le _, ?_⟩, .inl ⟨rfl, rfl⟩⟩
    intro k hk
    exact absurd hk (Nat.not_lt_zero k)
  · exact ⟨h1, ⟨a1, a2, a3, a4, wipe_wf _, a6, a7, a8, a9, a10, a11, a12, .inl rfl, a14, a15, a16⟩,
      ⟨c1, c2, c3, c4, within_wipe _ _ _, c6, c7, c8⟩, h4, h5⟩
  · exact ⟨h1, ⟨a1, a2, a3, a4, a5, wipe_wf _, a7, a8, a9, a10, a11, a12, a13, rfl, a15, a16⟩,
      ⟨c1, c2, c3, c4, c5, within_wipe _ _ _, c7, c8⟩, h4, h5⟩
  · exact ⟨h1, ⟨a1, a2, a3, a4, a5, a6, wipe_wf _, a8, a9, a10, a11, a12, a13, a14, rfl, a16⟩,
      ⟨c1, c2, c3, c4, c5, c6, within_wipe _ _ _, c8⟩, h4, h5⟩
  · exact ⟨h1, ⟨a1, a2, a3, a4, a5, a6, a7, wipe_wf _, a9, a10, a11, a12, a13, a14, a15, rfl⟩,
      ⟨c1, c2, c3, c4, c5, c6, c7, within_wipe _ _ _⟩, h4, h5⟩
  · refine ⟨h1, ⟨a1, wipe_wf _, a3, a4, a5, a6, a7, a8, a9, rfl, a11, a12, a13, a14, a15, a16⟩,
      ⟨c1, within_wipe _ _ _, c3, c4, c5, c6, c7, c8⟩, ⟨Nat.zero_le _, ?_, h4.2.2⟩, h5⟩
    intro k hk
    exact absurd hk (Nat.not_lt_zero k)

theorem dataOk_raiseError (dests : List Entity) (e : CmdError) : (raiseError dests e s).dataOk := by
  have : ∀ (ds : List Entity) (u : State), u.dataOk → (emptyEntities ds u).dataOk := by
    intro ds
    induction ds with
    | nil => exact fun u hu => hu
    | cons d ds ih => exact fun u hu => ih _ (dataOk_emptyEntity hu d)
  exact this dests s h

end Replace

end Sys2Proof.Machine
end

