-- ==== Sys2Proof/Laws/Bodies.lean ====
section
/-! SUPPORT. The body of each command: what it answers, and that what it answers keeps the invariant.
The results are stated over the shared scans, whose own laws say what they compute. -/

namespace Sys2Proof.Machine

variable {s : State}

/-! ### Source entities -/

@[simp] theorem inputSymbols_length (s : State) : s.inputSymbols.length = s.sinLen.toNat := by
  simp [State.inputSymbols]

@[simp] theorem bitSequence_length (s : State) : s.bitSequence.length = s.bitLen.toNat := by
  simp [State.bitSequence]

@[simp] theorem byteSequence_length (s : State) : s.byteSequence.length = s.byteLen.toNat := by
  simp [State.byteSequence]

@[simp] theorem tagSequence_length (s : State) : s.tagSequence.length = s.tagLen.toNat := by
  simp [State.tagSequence]

@[simp] theorem outputSymbols_length (s : State) : s.outputSymbols.length = s.soutLen.toNat := by
  simp [State.outputSymbols]

theorem toNat_ofNat_word {n : Nat} (h : n < 2 ^ 32) : (BitVec.ofNat 32 n).toNat = n := by
  rw [BitVec.toNat_ofNat, Nat.mod_eq_of_lt h]

/-- A sequence of `n` elements of a buffer just written with `xs` is `xs`. -/
theorem map_range_eq {α : Type} {f : Nat → α} {xs : List α} {n : Nat} (hn : n = xs.length)
    (h : ∀ i (hi : i < xs.length), f i = xs[i]) : (List.range n).map f = xs := by
  subst hn
  refine List.ext_getElem (by simp) fun i h1 h2 => ?_
  simp [h i h2]

theorem bitSequence_writeBits {bs : List Bool} (h : bs.length < 2 ^ 32) :
    (writeBits bs s).bitSequence = bs :=
  map_range_eq (toNat_ofNat_word h) fun i hi => by
    show ((s.bits.rewrite bs).get? i).getD _ = bs[i]
    simp [hi]

theorem byteSequence_writeBytes {bs : List Byte} (h : bs.length < 2 ^ 32) :
    (writeBytes bs s).byteSequence = bs :=
  map_range_eq (toNat_ofNat_word h) fun i hi => by
    show ((s.bytes.rewrite bs).get? i).getD _ = bs[i]
    simp [hi]

theorem tagSequence_writeTags {ts : List TagRec} (h : ts.length < 2 ^ 32) :
    (writeTags ts s).tagSequence = ts :=
  map_range_eq (toNat_ofNat_word h) fun i hi => by
    show ((s.tags.rewrite ts).get? i).getD _ = ts[i]
    simp [hi]

theorem outputSymbols_writeSymbols {xs : List Nat} (h : xs.length < 2 ^ 32) :
    (writeSymbols xs s).outputSymbols = xs :=
  map_range_eq (toNat_ofNat_word h) fun i hi => by
    show ((s.sout.rewrite xs).get? i).getD _ = xs[i]
    simp [hi]

/-! ### FREQ -/

/-- The counts that FREQ leaves. -/
theorem countAt_freq (s : State) (xs : List Nat) (a : Nat) :
    (writeFreqTable (countInto (s.ft.clearTo 0) xs) s).countAt a = xs.count a := by
  show ((countInto (s.ft.clearTo 0) xs).get? a).getD _ = _
  rw [countInto_get? _ xs a 0 (get?_clearTo _ _ _)]
  simp

theorem dataOk_freq (h : s.dataOk) (hl : s.sinLen.toNat ≤ s.cfg.nMax) :
    (writeFreqTable (countInto (s.ft.clearTo 0) s.inputSymbols) s).dataOk := by
  have hlen : s.inputSymbols.length < 2 ^ s.cfg.cntW := by
    rw [inputSymbols_length]
    exact lt_two_pow_idxW s.cfg hl
  refine dataOk_writeFreqTable h (countInto_wf (clearTo_wf _ _) _) (by simp) ?_
  refine countInto_within (within_clearTo _ _ _ _) (fun n hn => ?_) hlen fun a ha => ?_
  · rw [fill_clearTo] at hn
    cases hn
    simpa using hlen
  · simp only [State.inputSymbols, List.mem_map] at ha
    obtain ⟨i, -, rfl⟩ := ha
    exact sinAt_lt h.2.2.1 i h.2.1.2.2.2.2.2.2.2.2.1

/-! ### BUILD -/

theorem mem_presentSymbols {a : Nat} : a ∈ s.presentSymbols ↔ a < s.cfg.alphabet ∧ 0 < s.countAt a := by
  simp [State.presentSymbols]

theorem presentSymbols_rising (s : State) : s.presentSymbols.Pairwise (· < ·) :=
  List.Pairwise.filter _ List.pairwise_lt_range

theorem presentSymbols_length (s : State) : s.presentSymbols.length ≤ s.cfg.alphabet := by
  simpa [State.presentSymbols] using
    List.length_filter_le (fun a => decide (0 < s.countAt a)) (List.range s.cfg.alphabet)

@[simp] theorem leafNodes_length (s : State) : (leafNodes s).length = s.presentSymbols.length := by
  simp [leafNodes]

theorem leafNodes_ne_nil : leafNodes s ≠ [] ↔ s.presentSymbols ≠ [] := by simp [leafNodes]

theorem arenaAt_leafNodes {j : Nat} (h : j < s.presentSymbols.length) :
    arenaAt (leafNodes s) j = NodeRec.leaf s.presentSymbols[j] (s.countAt s.presentSymbols[j]) := by
  simp [arenaAt, leafNodes, h]

theorem buildBody_ok (h : s.presentSymbols ≠ []) :
    buildBody s = .ok (writeTree (buildArena (leafNodes s)) s) := by
  have := leafNodes_ne_nil.2 h
  unfold buildBody
  cases he : leafNodes s with
  | nil => exact absurd he this
  | cons l ls => rfl

theorem buildBody_empty (h : s.presentSymbols = []) : buildBody s = raise .emptyInput 2 0 := by
  unfold buildBody
  simp [leafNodes, h]

theorem arena_ne_nil (h : s.presentSymbols ≠ []) : buildArena (leafNodes s) ≠ [] := by
  have := buildArena_length (leafNodes_ne_nil.2 h)
  have := List.length_pos_iff.2 (leafNodes_ne_nil.2 h)
  refine List.length_pos_iff.1 ?_
  omega

theorem arena_wfTree (h : s.presentSymbols ≠ []) :
    WfTree s.cfg.alphabet (arenaAt (buildArena (leafNodes s))) (buildArena (leafNodes s)).length
      ((buildArena (leafNodes s)).length - 1) := by
  refine buildArena_wfTree (leafNodes_ne_nil.2 h) ?_ (fun j hj => ?_) (fun j hj hj' => ?_)
  · rw [leafNodes_length]
    exact presentSymbols_length s
  · rw [leafNodes_length] at hj
    have := mem_presentSymbols.1 (List.getElem_mem hj)
    rw [arenaAt_leafNodes hj]
    exact ⟨rfl, this.1, this.2⟩
  · rw [leafNodes_length] at hj
    rw [arenaAt_leafNodes hj, arenaAt_leafNodes (by omega : j - 1 < _)]
    exact List.pairwise_iff_getElem.1 (presentSymbols_rising s) (j - 1) j _ hj (by omega)

/-- The leaves of the arena are the present symbols with their counts. -/
theorem arena_leaf (h : s.presentSymbols ≠ []) {j : Nat} (hj : j < s.presentSymbols.length) :
    arenaAt (buildArena (leafNodes s)) j =
      NodeRec.leaf s.presentSymbols[j] (s.countAt s.presentSymbols[j]) := by
  obtain ⟨x, hx⟩ := buildArena_spec (leafNodes_ne_nil.2 h)
  rw [hx.leavesKept j (by simpa using hj), arenaAt_leafNodes hj]

/-- A node weighs no more than the root. -/
theorem WfTree.weight_le_root {A count root : Nat} {node : Nat → NodeRec} (h : WfTree A node count root)
    {i : Nat} (hi : i < count) : (node i).weight ≤ (node root).weight := by
  suffices ∀ n i, i < count → count - i ≤ n → (node i).weight ≤ (node root).weight from
    this _ i hi le_rfl
  intro n
  induction n with
  | zero => intro i hi hn; omega
  | succ n ih =>
    intro i hi hn
    by_cases hr : i = root
    · rw [hr]
    obtain ⟨k, hk⟩ := List.length_eq_one_iff.1 (h.2.2.2.1 i hi hr)
    have hk' : k ∈ parentsOf node ((count + 1) / 2) count i := by rw [hk]; simp
    simp only [List.mem_filter, List.mem_range'_1, decide_eq_true_eq] at hk'
    have hkc : k < count := by omega
    have hch := h.2.2.1 k hkc hk'.1.1
    have hw := h.2.2.2.2.2.2 k hkc hk'.1.1
    have := ih k hkc (by rcases hk'.2 with e | e <;> omega)
    rcases hk'.2 with e | e <;> rw [e] at hw <;> omega

/-- The counts of the present symbols are all the counts. -/
theorem sum_leafNodes (s : State) :
    ((leafNodes s).map NodeRec.weight).sum = ((List.range s.cfg.alphabet).map s.countAt).sum := by
  have : (leafNodes s).map NodeRec.weight = s.presentSymbols.map s.countAt := by
    simp [leafNodes, NodeRec.leaf, Function.comp_def]
  rw [this, State.presentSymbols]
  generalize List.range s.cfg.alphabet = l
  induction l with
  | nil => rfl
  | cons a l ih =>
    by_cases h : 0 < s.countAt a
    · simp [h, ih]
    · simp [h, ih]
      omega

theorem sum_le_length_mul {l : List Nat} {b : Nat} (h : ∀ x ∈ l, x ≤ b) : l.sum ≤ l.length * b := by
  simpa using List.sum_le_card_nsmul l b h

theorem arena_root_weight (h : s.presentSymbols ≠ []) :
    (arenaAt (buildArena (leafNodes s)) ((buildArena (leafNodes s)).length - 1)).weight =
      ((List.range s.cfg.alphabet).map s.countAt).sum := by
  obtain ⟨r, hr, hp, hw⟩ := buildArena_rootWeight (leafNodes_ne_nil.2 h)
  have hlen := buildArena_length (leafNodes_ne_nil.2 h)
  have hpos := List.length_pos_iff.2 (leafNodes_ne_nil.2 h)
  have hwf := arena_wfTree h
  have hroot : r = (buildArena (leafNodes s)).length - 1 := by
    by_contra hne
    obtain ⟨k, hk⟩ := List.length_eq_one_iff.1 (hp ((buildArena (leafNodes s)).length - 1) (by omega)
      fun e => hne e.symm)
    have hk' : k ∈ parentsOf (arenaAt (buildArena (leafNodes s))) (leafNodes s).length
        (buildArena (leafNodes s)).length ((buildArena (leafNodes s)).length - 1) := by rw [hk]; simp
    simp only [List.mem_filter, List.mem_range'_1, decide_eq_true_eq] at hk'
    have := hwf.2.2.1 k (by omega) (by omega)
    omega
  rw [← hroot, hw, sum_leafNodes]

theorem arena_fits (hc : ∀ a, s.countAt a < 2 ^ s.cfg.cntW) (h : s.presentSymbols ≠ []) :
    ∀ r ∈ buildArena (leafNodes s), r.fits s.cfg := by
  intro r hr
  obtain ⟨k, hk, rfl⟩ := List.getElem_of_mem hr
  have e : (buildArena (leafNodes s))[k] = arenaAt (buildArena (leafNodes s)) k := by simp [arenaAt, hk]
  rw [e]
  have hwf := arena_wfTree h
  have hlen := buildArena_length (leafNodes_ne_nil.2 h)
  have hA : 2 * s.cfg.alphabet = 2 ^ s.cfg.nidxW := by
    simp only [Params.alphabet, Params.nidxW, Nat.pow_succ]
    omega
  have hApos : 0 < s.cfg.alphabet := two_pow_pos' _
  have hbound : (arenaAt (buildArena (leafNodes s)) k).weight < 2 ^ s.cfg.wtW := by
    refine lt_of_le_of_lt (hwf.weight_le_root hk) ?_
    rw [arena_root_weight h]
    refine lt_of_le_of_lt (sum_le_length_mul (b := 2 ^ s.cfg.cntW - 1) ?_) ?_
    · intro x hx
      simp only [List.mem_map] at hx
      obtain ⟨a, -, rfl⟩ := hx
      have := hc a
      omega
    · rw [List.length_map, List.length_range, Params.wtW, Nat.pow_add, Nat.mul_comm (2 ^ s.cfg.cntW)]
      have : 0 < 2 ^ s.cfg.cntW := two_pow_pos' _
      exact Nat.mul_lt_mul_of_pos_left (by omega) hApos
  have h1 := hwf.1
  rcases Nat.lt_or_ge k (((buildArena (leafNodes s)).length + 1) / 2) with hlt | hge
  · have := (hwf.2.1.1 k hlt)
    refine ⟨this.2, ?_, ?_, hbound⟩
    · rw [this.1]
      exact two_pow_pos' _
    · rw [this.1]
      exact two_pow_pos' _
  · have := hwf.2.2.1 k hk hge
    refine ⟨?_, by omega, by omega, hbound⟩
    rw [this.1]
    exact two_pow_pos' _

theorem dataOk_build (h : s.dataOk) (hp : s.presentSymbols ≠ []) :
    (writeTree (buildArena (leafNodes s)) s).dataOk :=
  dataOk_writeTree h (arena_ne_nil hp)
    (arena_fits (fun a => countAt_lt h.2.2.1 a h.2.1.2.2.2.2.2.2.2.2.2.2.1) hp) (arena_wfTree hp)

/-! ### CODES -/

theorem nnodes_pos (h : s.nnodes ≠ 0) : 0 < s.nnodes.toNat := by
  refine Nat.pos_of_ne_zero fun e => h ?_
  apply BitVec.eq_of_toNat_eq
  simpa using e

theorem codesBody_ok (h : s.treeOk) (hn : s.nnodes ≠ 0) :
    ∃ codes, codesBody s = .ok (writeCodeTable codes s) ∧
      ∀ e, e ∈ codes ↔ ∃ j < (s.nnodes.toNat + 1) / 2, e.1 = (s.nodeAt j).sym ∧
        IsCodeOf s.nodeAt s.nnodes.toNat s.root.toNat j e.2 := by
  have hw : WfTree s.cfg.alphabet s.nodeAt s.nnodes.toNat s.root.toNat :=
    (h.resolve_left fun e => hn e.1).2
  obtain ⟨codes, h1, h2⟩ := treeCodes_spec hw
  exact ⟨codes, by rw [codesBody, if_neg hn, h1], h2⟩

theorem dataOk_codes (h : s.dataOk) (hn : s.nnodes ≠ 0) {codes : List (Nat × List Bool)}
    (hc : ∀ e, e ∈ codes ↔ ∃ j < (s.nnodes.toNat + 1) / 2, e.1 = (s.nodeAt j).sym ∧
        IsCodeOf s.nodeAt s.nnodes.toNat s.root.toNat j e.2) : (writeCodeTable codes s).dataOk := by
  have hw : WfTree s.cfg.alphabet s.nodeAt s.nnodes.toNat s.root.toNat :=
    (h.2.2.2.2.resolve_left fun e => hn e.1).2
  refine dataOk_writeCodeTable h fun e he => ?_
  obtain ⟨j, hj, e1, e2⟩ := (hc e).1 he
  have hl := hw.code_length hj e2
  have h1 := hw.1
  have hA : 2 ≤ s.cfg.alphabet := by
    simpa [Params.alphabet] using Nat.pow_le_pow_right (n := 2) (by decide) h.1.1
  have hA' : s.cfg.alphabet = 2 ^ s.cfg.clenW := rfl
  refine ⟨e1 ▸ (hw.2.1.1 j hj).2, ?_, ?_⟩
  · omega
  · simp only [Params.codeMax]
    omega

section Table

variable {codes : List (Nat × List Bool)} (h : s.treeOk) (hn : s.nnodes ≠ 0)
  (hc : ∀ e, e ∈ codes ↔ ∃ j < (s.nnodes.toNat + 1) / 2, e.1 = (s.nodeAt j).sym ∧
    IsCodeOf s.nodeAt s.nnodes.toNat s.root.toNat j e.2)
include h hn

theorem treeOk_wfTree : WfTree s.cfg.alphabet s.nodeAt s.nnodes.toNat s.root.toNat :=
  (h.resolve_left fun e => hn e.1).2

include hc

/-- The entry of a symbol in the table that CODES writes: the code of its leaf, or absent. -/
theorem codeRecAt_codes (a : Nat) :
    (∃ j < (s.nnodes.toNat + 1) / 2, (s.nodeAt j).sym = a ∧
      ∃ c, IsCodeOf s.nodeAt s.nnodes.toNat s.root.toNat j c ∧
        (writeCodeTable codes s).codeRecAt a = CodeRec.ofCode c) ∨
    ((∀ j < (s.nnodes.toNat + 1) / 2, (s.nodeAt j).sym ≠ a) ∧
      (writeCodeTable codes s).codeRecAt a = CodeRec.absent) := by
  have hw := treeOk_wfTree h hn
  -- each symbol has one code, so the list is the graph of a function
  obtain ⟨f, hf⟩ : ∃ f : Nat → List Bool, ∀ e ∈ codes, e.2 = f e.1 := by
    refine ⟨fun a => ((codes.find? fun e => e.1 == a).map Prod.snd).getD [], fun e he => ?_⟩
    cases hfind : codes.find? fun x => x.1 == e.1 with
    | none => exact absurd (List.find?_eq_none.1 hfind e he) (by simp)
    | some x =>
      have hx1 : x.1 = e.1 := by simpa using List.find?_some hfind
      obtain ⟨i, hi, ei, ci⟩ := (hc x).1 (List.mem_of_find?_eq_some hfind)
      obtain ⟨j, hj, ej, cj⟩ := (hc e).1 he
      obtain rfl := hw.sym_inj hi hj (by rw [← ei, ← ej, hx1])
      show e.2 = ((codes.find? fun x => x.1 == e.1).map Prod.snd).getD []
      rw [hfind]
      exact (hw.code_unique ci cj).symm
  have hread : (writeCodeTable codes s).codeRecAt a =
      (if a ∈ codes.map Prod.fst then some (CodeRec.ofCode (f a)) else some CodeRec.absent).getD
        ⟨0, 0⟩ := by
    show ((codes.foldl (fun m c => m.set c.1 (CodeRec.ofCode c.2)) (s.ct.clearTo CodeRec.absent)).get?
      a).getD _ = _
    rw [writeCodes_get? codes f _ hf a, get?_clearTo]
    split <;> rfl
  by_cases ha : a ∈ codes.map Prod.fst
  · obtain ⟨e, he, rfl⟩ := List.mem_map.1 ha
    obtain ⟨j, hj, ej, cj⟩ := (hc e).1 he
    refine .inl ⟨j, hj, ej.symm, e.2, cj, ?_⟩
    rw [hread, if_pos ha, hf e he]
    rfl
  · refine .inr ⟨fun j hj e => ha ?_, by rw [hread, if_neg ha]; rfl⟩
    obtain ⟨c, hcj⟩ := hw.code_exists hj
    exact List.mem_map.2 ⟨((s.nodeAt j).sym, c), (hc _).2 ⟨j, hj, rfl, hcj⟩, e⟩

/-- Who has an entry. -/
theorem codes_present (a : Nat) : ((writeCodeTable codes s).codeRecAt a).len ≠ 0 ↔
    ∃ j < (s.nnodes.toNat + 1) / 2, (s.nodeAt j).sym = a := by
  have hw := treeOk_wfTree h hn
  rcases codeRecAt_codes h hn hc a with ⟨j, hj, e, c, hcj, hr⟩ | ⟨hno, hr⟩
  · rw [hr]
    have := (hw.code_length hj hcj).1
    exact ⟨fun _ => ⟨j, hj, e⟩, fun _ => by simp only [CodeRec.ofCode]; omega⟩
  · rw [hr]
    exact ⟨fun hx => absurd rfl hx, fun ⟨j, hj, e⟩ => absurd e (hno j hj)⟩

/-- The table conforms (R22, R93). -/
theorem codes_wfCodeTable : WfCodeTable s.cfg.alphabet (writeCodeTable codes s).codeOf := by
  have hw := treeOk_wfTree h hn
  intro a _ b _ hab ha hb hp
  simp only [State.codeOf] at ha hb hp
  rcases codeRecAt_codes h hn hc a with ⟨i, hi, ei, c, hci, hri⟩ | ⟨-, hr⟩
  · rcases codeRecAt_codes h hn hc b with ⟨j, hj, ej, d, hdj, hrj⟩ | ⟨-, hr⟩
    · rw [hri, hrj, code_ofCode, code_ofCode, List.isPrefixOf_iff_prefix] at hp
      obtain rfl := hw.code_prefixFree hi hj hci hdj hp
      exact hab (ei.symm.trans ej)
    · rw [hr] at hb
      exact hb rfl
  · rw [hr] at ha
    exact ha rfl

end Table

/-! ### The streams -/

theorem flatMap_codes_length (ct : Nat → CodeRec) (S : List Nat) :
    (S.flatMap fun a => (ct a).code).length = (S.map fun a => (ct a).len).sum := by
  induction S with
  | nil => rfl
  | cons a S ih => simp [ih]

theorem dataOk_enc (h : s.dataOk) {bs : List Bool}
    (hb : encScan s.codeRecAt s.cfg.bMax 0 0 s.inputSymbols = .ok bs) : (writeBits bs s).dataOk :=
  dataOk_writeBits h (by have := (encScan_eq_ok hb).2.2; omega)

theorem payload_le (p : Params) {m : Nat} (hm : m ≤ p.bMax) (h8 : p.bMax % 8 = 0) :
    1 + (m + paddingCount m) / 8 ≤ p.byMax := by
  have := paddingCount_le m
  have := paddingCount_aligns m
  simp only [Params.byMax]
  omega

theorem dataOk_pack (h : s.dataOk) (hm : s.bitLen.toNat ≤ s.cfg.bMax) :
    (writeBytes (packBits s.bitAt s.bitLen.toNat) s).dataOk :=
  dataOk_writeBytes h (by rw [packBits_length]; exact payload_le s.cfg hm h.1.2.2.2.1)

theorem dataOk_unpack (h : s.dataOk) (hl : s.byteLen.toNat ≤ s.cfg.byMax) (k : Nat) :
    (writeBits (unpackBits s.byteAt (8 * (s.byteLen.toNat - 1) - k)) s).dataOk :=
  dataOk_writeBits h (by
    rw [unpackBits_length]
    have := h.1.2.2.2.1
    simp only [Params.byMax] at hl
    omega)

theorem dataOk_hdec (h : s.dataOk) {bs : List Bool} {out : List Nat}
    (hb : hdecScan s.codeRecAt s.cfg.alphabet s.cfg.nMax 0 0 [] [] bs = .ok out) :
    (writeSymbols out s).dataOk := by
  obtain ⟨h1, h2⟩ := hdecScan_eq_ok hb (by simp) (by simp)
  exact dataOk_writeSymbols h h2 h1

theorem dataOk_lzc (h : s.dataOk) (hl : s.sinLen.toNat ≤ s.cfg.nMax) (W : Nat) :
    (writeTags (lzcTags s.inputSymbols W) s).dataOk := by
  have hlen : (lzcTags s.inputSymbols W).length ≤ s.sinLen.toNat := by
    simpa [lzcTags] using lzcLoop_length (S := s.inputSymbols) (W := W) s.inputSymbols.length 0
  refine dataOk_writeTags h (le_trans hlen hl) fun t ht => ?_
  have hlt := lt_two_pow_idxW s.cfg hl
  obtain ⟨a, b, c⟩ := lzcLoop_fits (ok := (· < 2 ^ s.cfg.symW)) (fun a ha => by
      simp only [State.inputSymbols, List.mem_map] at ha
      obtain ⟨i, -, rfl⟩ := ha
      exact sinAt_lt h.2.2.1 i h.2.1.2.2.2.2.2.2.2.2.1) (two_pow_pos' _) _ _ t ht
  rw [inputSymbols_length] at a b
  exact ⟨by omega, by omega, c⟩

theorem dataOk_lzd (h : s.dataOk) {out : List Nat}
    (hb : lzdScan s.cfg.nMax 0 [] s.tagSequence = .ok out) : (writeSymbols out s).dataOk := by
  obtain ⟨h1, h2⟩ := lzdScan_eq_ok (ok := (· < 2 ^ s.cfg.symW)) hb (by simp) (by simp) fun t ht => by
    simp only [State.tagSequence, List.mem_map] at ht
    obtain ⟨j, -, rfl⟩ := ht
    exact (tagAt_fits h.2.2.1 j h.2.1.2.2.2.2.2.2.2.2.2.2.2.2.2.2.2).2.2
  exact dataOk_writeSymbols h h2 h1

/-! ### HENC -/

/-- The four bodies in turn on a non-empty input whose lengths were checked. -/
theorem hencBody_eq (hl : s.sinLen.toNat ≤ s.cfg.nMax) :
    hencBody s =
      (if (writeFreqTable (countInto (s.ft.clearTo 0) s.inputSymbols) s).presentSymbols = [] then
        .ok (nothingToEncode (writeFreqTable (countInto (s.ft.clearTo 0) s.inputSymbols) s))
      else
        match codesBody (writeTree (buildArena
            (leafNodes (writeFreqTable (countInto (s.ft.clearTo 0) s.inputSymbols) s)))
            (writeFreqTable (countInto (s.ft.clearTo 0) s.inputSymbols) s)) with
        | .error e => .error e
        | .ok s3 => encBody s3) := by
  unfold hencBody
  rw [freqBody, if_neg (by omega)]
  simp only
  split
  · rfl
  · next h =>
    have e := buildBody_ok h
    generalize buildBody _ = r at e ⊢
    subst e
    rfl

theorem nodeAt_writeTree {nodes : List NodeRec} {k : Nat} (hk : k < nodes.length) :
    (writeTree nodes s).nodeAt k = arenaAt nodes k := by
  show ((s.node.rewrite nodes).get? k).getD _ = _
  simp [arenaAt, hk]

/-- How many nodes BUILD makes. -/
theorem nnodes_build (hw : s.cfg.wf) (hp : s.presentSymbols ≠ []) :
    (writeTree (buildArena (leafNodes s)) s).nnodes.toNat = 2 * s.presentSymbols.length - 1 := by
  have hlen := buildArena_length (leafNodes_ne_nil.2 hp)
  have hA := presentSymbols_length s
  have hA31 : s.cfg.alphabet ≤ 2 ^ 31 := Nat.pow_le_pow_right (by decide) hw.2.2.2.2.1
  rw [leafNodes_length] at hlen
  show (BitVec.ofNat 32 (buildArena (leafNodes s)).length).toNat = _
  rw [toNat_ofNat_word (by omega), hlen]

/-- CODES after BUILD: the table conforms, and has an entry for each present symbol. -/
theorem codes_after_build (h : s.dataOk) (hp : s.presentSymbols ≠ []) :
    ∃ codes, codesBody (writeTree (buildArena (leafNodes s)) s) =
        .ok (writeCodeTable codes (writeTree (buildArena (leafNodes s)) s)) ∧
      (writeCodeTable codes (writeTree (buildArena (leafNodes s)) s)).dataOk ∧
      (writeTree (buildArena (leafNodes s)) s).nnodes ≠ 0 ∧
      WfCodeTable s.cfg.alphabet (writeCodeTable codes (writeTree (buildArena (leafNodes s)) s)).codeOf ∧
      ∀ a, ((writeCodeTable codes (writeTree (buildArena (leafNodes s)) s)).codeRecAt a).len ≠ 0 ↔
        a ∈ s.presentSymbols := by
  have d2 := dataOk_build h hp
  have hnn := nnodes_build h.1 hp
  have hlen := buildArena_length (leafNodes_ne_nil.2 hp)
  have hpos := List.length_pos_iff.2 hp
  rw [leafNodes_length] at hlen
  have hn2 : (writeTree (buildArena (leafNodes s)) s).nnodes ≠ 0 := by
    intro e
    rw [e] at hnn
    simp at hnn
    omega
  obtain ⟨codes, hcodes, hc⟩ := codesBody_ok d2.2.2.2.2 hn2
  have hconf := codes_wfCodeTable d2.2.2.2.2 hn2 hc
  refine ⟨codes, hcodes, dataOk_codes d2 hn2 hc, hn2, hconf, fun a => ?_⟩
  have hsym : ∀ j (hj : j < s.presentSymbols.length),
      ((writeTree (buildArena (leafNodes s)) s).nodeAt j).sym = s.presentSymbols[j] := by
    intro j hj
    rw [nodeAt_writeTree (by omega), arena_leaf hp hj]
    rfl
  rw [codes_present d2.2.2.2.2 hn2 hc a, hnn]
  constructor
  · rintro ⟨j, hj, rfl⟩
    rw [hsym j (by omega)]
    exact List.getElem_mem _
  · intro ha
    obtain ⟨j, hj, rfl⟩ := List.getElem_of_mem ha
    exact ⟨j, by omega, hsym j hj⟩

theorem mem_presentSymbols_freq (h : s.dataOk) (a : Nat) :
    a ∈ (writeFreqTable (countInto (s.ft.clearTo 0) s.inputSymbols) s).presentSymbols ↔
      a ∈ s.inputSymbols := by
  rw [mem_presentSymbols, countAt_freq, List.count_pos_iff]
  refine and_iff_right_of_imp fun ha => ?_
  simp only [State.inputSymbols, List.mem_map] at ha
  obtain ⟨i, -, rfl⟩ := ha
  exact sinAt_lt h.2.2.1 i h.2.1.2.2.2.2.2.2.2.2.1

/-- Where FREQ, BUILD and CODES of HENC lead on a non-empty input whose length was checked: the state
from which its ENC starts. -/
theorem hencBody_chain (h : s.dataOk) (hl : s.sinLen.toNat ≤ s.cfg.nMax) (hne : s.sinLen ≠ 0) :
    ∃ s1 s2 s3, freqBody s = .ok s1 ∧ buildBody s1 = .ok s2 ∧ codesBody s2 = .ok s3 ∧
      hencBody s = encBody s3 ∧ s3.dataOk ∧ s3.nnodes ≠ 0 ∧ SourcesKept s s3 ∧
      (∀ a, s3.countAt a = s.inputSymbols.count a) ∧ WfCodeTable s3.cfg.alphabet s3.codeOf ∧
      ∀ a, (s3.codeRecAt a).len ≠ 0 ↔ a ∈ s.inputSymbols := by
  have hp : (writeFreqTable (countInto (s.ft.clearTo 0) s.inputSymbols) s).presentSymbols ≠ [] := by
    intro e
    have hpos : 0 < s.inputSymbols.length := by
      rw [inputSymbols_length]
      exact Nat.pos_of_ne_zero fun e => hne (BitVec.eq_of_toNat_eq (by simpa using e))
    have := (mem_presentSymbols_freq h _).2 (List.getElem_mem hpos)
    rw [e] at this
    cases this
  obtain ⟨codes, hcodes, d3, hn2, hwf, hpres⟩ := codes_after_build (dataOk_freq h hl) hp
  refine ⟨_, _, _, ?_, buildBody_ok hp, hcodes, ?_, d3, hn2, ?_, ?_, hwf, fun a => ?_⟩
  · rw [freqBody, if_neg (by omega)]
  · rw [hencBody_eq hl, if_neg hp, hcodes]
  · exact ⟨rfl, rfl, rfl, rfl, fun _ => rfl, rfl, rfl, rfl⟩
  · exact countAt_freq s s.inputSymbols
  · rw [hpres a, mem_presentSymbols_freq h]

/-- The state from which the ENC of HENC starts, named by what it is made of. -/
theorem tableOfInput_eq {s1 s2 s3 : State} (h1 : freqBody s = .ok s1) (h2 : buildBody s1 = .ok s2)
    (h3 : codesBody s2 = .ok s3) : s.tableOfInput = s3 := by
  unfold freqBody at h1
  split at h1
  · exact absurd h1 (raise_ne_ok _ _ _ _)
  cases h1
  unfold buildBody at h2
  split at h2
  · exact absurd h2 (raise_ne_ok _ _ _ _)
  · next l ls he =>
    cases h2
    rw [← he] at h3
    simp only [State.tableOfInput, h3]

/-! ### All bodies -/

/-- A body that answers a state keeps the invariant's part about the data. -/
theorem dataOk_body {i : Instr} {u : State} (h : s.dataOk) (hu : bodyOf i s = .ok u) : u.dataOk := by
  have freq : ∀ {s u : State}, s.dataOk → freqBody s = .ok u → u.dataOk := fun {s u} h hu => by
    unfold freqBody at hu
    split at hu
    · exact absurd hu (raise_ne_ok _ _ _ _)
    · cases hu
      exact dataOk_freq h (by omega)
  have build : ∀ {s u : State}, s.dataOk → buildBody s = .ok u → u.dataOk := fun {s u} h hu => by
    by_cases hp : s.presentSymbols = []
    · rw [buildBody_empty hp] at hu
      exact absurd hu (raise_ne_ok _ _ _ _)
    · rw [buildBody_ok hp] at hu
      cases hu
      exact dataOk_build h hp
  have codes : ∀ {s u : State}, s.dataOk → codesBody s = .ok u → u.dataOk := fun {s u} h hu => by
    by_cases hn : s.nnodes = 0
    · simp only [codesBody, hn, if_true] at hu
      exact absurd hu (raise_ne_ok _ _ _ _)
    · obtain ⟨cs, h1, h2⟩ := codesBody_ok h.2.2.2.2 hn
      rw [h1] at hu
      cases hu
      exact dataOk_codes h hn h2
  have enc : ∀ {s u : State}, s.dataOk → encBody s = .ok u → u.dataOk := fun {s u} h hu => by
    unfold encBody at hu
    split at hu
    · exact absurd hu (raise_ne_ok _ _ _ _)
    · split at hu
      · next bs hb =>
        cases hu
        exact dataOk_enc h hb
      · cases hu
  cases i
  case freq => exact freq h hu
  case build => exact build h hu
  case codes => exact codes h hu
  case enc => exact enc h hu
  case henc =>
    simp only [bodyOf, hencBody] at hu
    split at hu
    · cases hu
    · next s1 h1 =>
      have d1 := freq h h1
      split at hu
      · cases hu
        exact dataOk_emptyEntity (dataOk_writeCodeTable (dataOk_emptyEntity d1 _) (by simp)) _
      · split at hu
        · cases hu
        · next s2 h2 =>
          have d2 := build d1 h2
          split at hu
          · cases hu
          · next s3 h3 => exact enc (codes d2 h3) hu
  case pack =>
    simp only [bodyOf, packBody] at hu
    split at hu
    · exact absurd hu (raise_ne_ok _ _ _ _)
    · cases hu
      exact dataOk_pack h (by omega)
  case unpack =>
    simp only [bodyOf, unpackBody] at hu
    split at hu
    · exact absurd hu (raise_ne_ok _ _ _ _)
    split at hu
    · exact absurd hu (raise_ne_ok _ _ _ _)
    split at hu
    · exact absurd hu (raise_ne_ok _ _ _ _)
    split at hu
    · exact absurd hu (raise_ne_ok _ _ _ _)
    · cases hu
      exact dataOk_unpack h (by omega) _
  case hdec =>
    simp only [bodyOf, hdecBody] at hu
    split at hu
    · exact absurd hu (raise_ne_ok _ _ _ _)
    · split at hu
      · next o ho =>
        cases hu
        exact dataOk_hdec h ho
      · cases hu
  case lzc =>
    simp only [bodyOf, lzcBody] at hu
    split at hu
    · exact absurd hu (raise_ne_ok _ _ _ _)
    split at hu
    · exact absurd hu (raise_ne_ok _ _ _ _)
    · cases hu
      exact dataOk_lzc h (by omega) _
  case lzd =>
    simp only [bodyOf, lzdBody] at hu
    split at hu
    · exact absurd hu (raise_ne_ok _ _ _ _)
    · split at hu
      · next o ho =>
        cases hu
        exact dataOk_lzd h ho
      · cases hu
  all_goals exact absurd hu (raise_ne_ok _ _ _ _)

end Sys2Proof.Machine
end

