-- ==== Sys2Proof/Laws/Frames.lean ====
section
/-! SUPPORT. What the body of a command leaves unchanged: everything but its destinations
(spec/20_memory.md R47). -/

namespace Sys2Proof.Machine

/-- Nothing but the entities `dests` differs between two states, `REG.STATUS` and `REG.ERRINFO` equal. -/
structure ChangesOnly (dests : List Entity) (s u : State) : Prop where
  sources : SourcesKept s u
  kept : ∀ e : Entity, e ∉ dests → e.kept s u
  status : u.status = s.status
  errInfo : u.errInfo = s.errInfo
  cmdLatch : u.cmdLatch = s.cmdLatch

theorem SourcesKept.trans {s t u : State} (h : SourcesKept s t) (k : SourcesKept t u) : SourcesKept s u := by
  obtain ⟨a1, a2, a3, a4, a5, a6, a7, a8⟩ := h
  obtain ⟨b1, b2, b3, b4, b5, b6, b7, b8⟩ := k
  exact ⟨b1.trans a1, b2.trans a2, b3.trans a3, b4.trans a4, fun i => (b5 i).trans (a5 i), b6.trans a6,
    b7.trans a7, b8.trans a8⟩

theorem Entity.kept.trans {e : Entity} {s t u : State} (h : e.kept s t) (k : e.kept t u) : e.kept s u := by
  cases e
  · exact ⟨k.1.trans h.1, fun i => (k.2 i).trans (h.2 i)⟩
  · exact ⟨k.1.trans h.1, k.2.1.trans h.2.1, k.2.2.1.trans h.2.2.1, fun i => (k.2.2.2 i).trans (h.2.2.2 i)⟩
  · exact ⟨k.1.trans h.1, fun i => (k.2 i).trans (h.2 i)⟩
  · exact ⟨k.1.trans h.1, k.2.1.trans h.2.1, fun i => (k.2.2 i).trans (h.2.2 i)⟩
  · exact ⟨k.1.trans h.1, k.2.1.trans h.2.1, fun i => (k.2.2 i).trans (h.2.2 i)⟩
  · exact ⟨k.1.trans h.1, k.2.1.trans h.2.1, fun i => (k.2.2 i).trans (h.2.2 i)⟩
  · exact ⟨k.1.trans h.1, k.2.1.trans h.2.1, fun i => (k.2.2 i).trans (h.2.2 i)⟩

theorem ChangesOnly.trans {ds : List Entity} {s t u : State} (h : ChangesOnly ds s t)
    (k : ChangesOnly ds t u) : ChangesOnly ds s u where
  sources := h.sources.trans k.sources
  kept e he := (h.kept e he).trans (k.kept e he)
  status := k.status.trans h.status
  errInfo := k.errInfo.trans h.errInfo
  cmdLatch := k.cmdLatch.trans h.cmdLatch

theorem ChangesOnly.mono {ds ds' : List Entity} {s t : State} (h : ChangesOnly ds s t)
    (hs : ∀ e ∈ ds, e ∈ ds') : ChangesOnly ds' s t :=
  { h with kept := fun e he => h.kept e fun hd => he (hs e hd) }

theorem changes_writeFreqTable (m : Memory Nat) (s : State) :
    ChangesOnly [.freqTable] s (writeFreqTable m s) where
  sources := ⟨rfl, rfl, rfl, rfl, fun _ => rfl, rfl, rfl, rfl⟩
  kept e he := by
    cases e with
    | freqTable => exact absurd (List.mem_singleton.2 rfl) he
    | tree => exact ⟨rfl, rfl, rfl, fun _ => rfl⟩
    | codeTable => exact ⟨rfl, fun _ => rfl⟩
    | _ => exact ⟨rfl, rfl, fun _ => rfl⟩
  status := rfl
  errInfo := rfl
  cmdLatch := rfl

theorem changes_writeTree (m : List NodeRec) (s : State) : ChangesOnly [.tree] s (writeTree m s) where
  sources := ⟨rfl, rfl, rfl, rfl, fun _ => rfl, rfl, rfl, rfl⟩
  kept e he := by
    cases e with
    | tree => exact absurd (List.mem_singleton.2 rfl) he
    | freqTable => exact ⟨rfl, fun _ => rfl⟩
    | codeTable => exact ⟨rfl, fun _ => rfl⟩
    | _ => exact ⟨rfl, rfl, fun _ => rfl⟩
  status := rfl
  errInfo := rfl
  cmdLatch := rfl

theorem changes_writeCodeTable (m : List (Nat × List Bool)) (s : State) :
    ChangesOnly [.codeTable] s (writeCodeTable m s) where
  sources := ⟨rfl, rfl, rfl, rfl, fun _ => rfl, rfl, rfl, rfl⟩
  kept e he := by
    cases e with
    | codeTable => exact absurd (List.mem_singleton.2 rfl) he
    | freqTable => exact ⟨rfl, fun _ => rfl⟩
    | tree => exact ⟨rfl, rfl, rfl, fun _ => rfl⟩
    | _ => exact ⟨rfl, rfl, fun _ => rfl⟩
  status := rfl
  errInfo := rfl
  cmdLatch := rfl

theorem changes_writeBits (m : List Bool) (s : State) : ChangesOnly [.bitSeq] s (writeBits m s) where
  sources := ⟨rfl, rfl, rfl, rfl, fun _ => rfl, rfl, rfl, rfl⟩
  kept e he := by
    cases e with
    | bitSeq => exact absurd (List.mem_singleton.2 rfl) he
    | freqTable => exact ⟨rfl, fun _ => rfl⟩
    | codeTable => exact ⟨rfl, fun _ => rfl⟩
    | tree => exact ⟨rfl, rfl, rfl, fun _ => rfl⟩
    | _ => exact ⟨rfl, rfl, fun _ => rfl⟩
  status := rfl
  errInfo := rfl
  cmdLatch := rfl

theorem changes_writeBytes (m : List Byte) (s : State) : ChangesOnly [.byteSeq] s (writeBytes m s) where
  sources := ⟨rfl, rfl, rfl, rfl, fun _ => rfl, rfl, rfl, rfl⟩
  kept e he := by
    cases e with
    | byteSeq => exact absurd (List.mem_singleton.2 rfl) he
    | freqTable => exact ⟨rfl, fun _ => rfl⟩
    | codeTable => exact ⟨rfl, fun _ => rfl⟩
    | tree => exact ⟨rfl, rfl, rfl, fun _ => rfl⟩
    | _ => exact ⟨rfl, rfl, fun _ => rfl⟩
  status := rfl
  errInfo := rfl
  cmdLatch := rfl

theorem changes_writeTags (m : List TagRec) (s : State) : ChangesOnly [.tagSeq] s (writeTags m s) where
  sources := ⟨rfl, rfl, rfl, rfl, fun _ => rfl, rfl, rfl, rfl⟩
  kept e he := by
    cases e with
    | tagSeq => exact absurd (List.mem_singleton.2 rfl) he
    | freqTable => exact ⟨rfl, fun _ => rfl⟩
    | codeTable => exact ⟨rfl, fun _ => rfl⟩
    | tree => exact ⟨rfl, rfl, rfl, fun _ => rfl⟩
    | _ => exact ⟨rfl, rfl, fun _ => rfl⟩
  status := rfl
  errInfo := rfl
  cmdLatch := rfl

theorem changes_writeSymbols (m : List Nat) (s : State) : ChangesOnly [.symbolSeq] s (writeSymbols m s) where
  sources := ⟨rfl, rfl, rfl, rfl, fun _ => rfl, rfl, rfl, rfl⟩
  kept e he := by
    cases e with
    | symbolSeq => exact absurd (List.mem_singleton.2 rfl) he
    | freqTable => exact ⟨rfl, fun _ => rfl⟩
    | codeTable => exact ⟨rfl, fun _ => rfl⟩
    | tree => exact ⟨rfl, rfl, rfl, fun _ => rfl⟩
    | _ => exact ⟨rfl, rfl, fun _ => rfl⟩
  status := rfl
  errInfo := rfl
  cmdLatch := rfl

theorem changes_emptyEntities (dests : List Entity) (s : State) :
    ChangesOnly dests s (emptyEntities dests s) := by
  obtain ⟨h1, h2, h3, h4, h5⟩ := emptyEntities_kept dests s
  exact ⟨h1, h5, h2, h3, h4⟩

/-! ### The bodies -/

/-- What each command's body can answer. -/
theorem freqBody_cases {s u : State} (h : freqBody s = .ok u) :
    s.sinLen.toNat ≤ s.cfg.nMax ∧ u = writeFreqTable (countInto (s.ft.clearTo 0) s.inputSymbols) s := by
  unfold freqBody at h
  split at h
  · exact absurd h (raise_ne_ok _ _ _ _)
  · cases h
    exact ⟨by omega, rfl⟩

theorem buildBody_cases {s u : State} (h : buildBody s = .ok u) :
    s.presentSymbols ≠ [] ∧ u = writeTree (buildArena (leafNodes s)) s := by
  by_cases hp : s.presentSymbols = []
  · rw [buildBody_empty hp] at h
    exact absurd h (raise_ne_ok _ _ _ _)
  · rw [buildBody_ok hp] at h
    cases h
    exact ⟨hp, rfl⟩

theorem codesBody_cases {s u : State} (h : codesBody s = .ok u) :
    s.nnodes ≠ 0 ∧ ∃ codes, u = writeCodeTable codes s := by
  unfold codesBody at h
  split at h
  · exact absurd h (raise_ne_ok _ _ _ _)
  · split at h
    · cases h
      exact ⟨‹_›, _, rfl⟩
    · cases h

theorem encBody_cases {s u : State} (h : encBody s = .ok u) :
    s.sinLen.toNat ≤ s.cfg.nMax ∧ ∃ bs, encScan s.codeRecAt s.cfg.bMax 0 0 s.inputSymbols = .ok bs ∧
      u = writeBits bs s := by
  unfold encBody at h
  split at h
  · exact absurd h (raise_ne_ok _ _ _ _)
  · split at h
    · next bs hb =>
      cases h
      exact ⟨by omega, bs, hb, rfl⟩
    · cases h

theorem hencBody_cases {s u : State} (h : hencBody s = .ok u) :
    ∃ s1, freqBody s = .ok s1 ∧
      ((s1.presentSymbols = [] ∧ u = nothingToEncode s1) ∨
        (s1.presentSymbols ≠ [] ∧ ∃ s2 s3, buildBody s1 = .ok s2 ∧ codesBody s2 = .ok s3 ∧
          encBody s3 = .ok u)) := by
  unfold hencBody at h
  split at h
  · cases h
  · next s1 h1 =>
    refine ⟨s1, h1, ?_⟩
    split at h
    · next hp =>
      cases h
      exact .inl ⟨hp, rfl⟩
    · next hp =>
      split at h
      · cases h
      · next s2 h2 =>
        split at h
        · cases h
        · next s3 h3 => exact .inr ⟨hp, s2, s3, h2, h3, h⟩

theorem packBody_cases {s u : State} (h : packBody s = .ok u) :
    s.bitLen.toNat ≤ s.cfg.bMax ∧ u = writeBytes (packBits s.bitAt s.bitLen.toNat) s := by
  unfold packBody at h
  split at h
  · exact absurd h (raise_ne_ok _ _ _ _)
  · cases h
    exact ⟨by omega, rfl⟩

theorem unpackBody_cases {s u : State} (h : unpackBody s = .ok u) :
    s.byteLen.toNat ≤ s.cfg.byMax ∧ s.byteLen.toNat ≠ 0 ∧ (s.byteAt 0).toNat ≤ 7 ∧
      (s.byteAt 0).toNat ≤ 8 * (s.byteLen.toNat - 1) ∧
      u = writeBits (unpackBits s.byteAt (8 * (s.byteLen.toNat - 1) - (s.byteAt 0).toNat)) s := by
  unfold unpackBody at h
  split at h
  · exact absurd h (raise_ne_ok _ _ _ _)
  split at h
  · exact absurd h (raise_ne_ok _ _ _ _)
  split at h
  · exact absurd h (raise_ne_ok _ _ _ _)
  split at h
  · exact absurd h (raise_ne_ok _ _ _ _)
  · cases h
    exact ⟨by omega, by omega, by omega, by omega, rfl⟩

theorem hdecBody_cases {s u : State} (h : hdecBody s = .ok u) :
    s.bitLen.toNat ≤ s.cfg.bMax ∧
      ∃ out, hdecScan s.codeRecAt s.cfg.alphabet s.cfg.nMax 0 0 [] [] s.bitSequence = .ok out ∧
        u = writeSymbols out s := by
  unfold hdecBody at h
  split at h
  · exact absurd h (raise_ne_ok _ _ _ _)
  · split at h
    · next out ho =>
      cases h
      exact ⟨by omega, out, ho, rfl⟩
    · cases h

theorem lzcBody_cases {s u : State} (h : lzcBody s = .ok u) :
    s.sinLen.toNat ≤ s.cfg.nMax ∧ s.win ≠ 0 ∧ u = writeTags (lzcTags s.inputSymbols s.win.toNat) s := by
  unfold lzcBody at h
  split at h
  · exact absurd h (raise_ne_ok _ _ _ _)
  split at h
  · exact absurd h (raise_ne_ok _ _ _ _)
  · cases h
    exact ⟨by omega, ‹_›, rfl⟩

theorem lzdBody_cases {s u : State} (h : lzdBody s = .ok u) :
    s.tagLen.toNat ≤ s.cfg.tMax ∧ ∃ out, lzdScan s.cfg.nMax 0 [] s.tagSequence = .ok out ∧
      u = writeSymbols out s := by
  unfold lzdBody at h
  split at h
  · exact absurd h (raise_ne_ok _ _ _ _)
  · split at h
    · next out ho =>
      cases h
      exact ⟨by omega, out, ho, rfl⟩
    · cases h

/-- The body of a command changes only the command's destinations. -/
theorem body_changes {i : Instr} {s u : State} (h : bodyOf i s = .ok u) :
    ChangesOnly (destinations i) s u := by
  cases i
  case freq =>
    obtain ⟨-, rfl⟩ := freqBody_cases h
    exact changes_writeFreqTable _ s
  case build =>
    obtain ⟨-, rfl⟩ := buildBody_cases h
    exact changes_writeTree _ s
  case codes =>
    obtain ⟨-, codes, rfl⟩ := codesBody_cases h
    exact changes_writeCodeTable _ s
  case enc =>
    obtain ⟨-, bs, -, rfl⟩ := encBody_cases h
    exact changes_writeBits _ s
  case henc =>
    obtain ⟨s1, h1, h2⟩ := hencBody_cases h
    have c1 : ChangesOnly (destinations .henc) s s1 := by
      rw [(freqBody_cases h1).2]
      exact (changes_writeFreqTable _ s).mono (by simp [destinations])
    refine c1.trans ?_
    rcases h2 with ⟨-, rfl⟩ | ⟨-, s2, s3, h2, h3, h4⟩
    · exact ((changes_emptyEntities [.tree] _).mono (by simp [destinations])).trans
        (((changes_writeCodeTable [] _).mono (by simp [destinations])).trans
          ((changes_emptyEntities [.bitSeq] _).mono (by simp [destinations])))
    · obtain ⟨-, rfl⟩ := buildBody_cases h2
      obtain ⟨-, codes, rfl⟩ := codesBody_cases h3
      obtain ⟨-, bs, -, rfl⟩ := encBody_cases h4
      exact ((changes_writeTree _ _).mono (by simp [destinations])).trans
        (((changes_writeCodeTable _ _).mono (by simp [destinations])).trans
          ((changes_writeBits _ _).mono (by simp [destinations])))
  case pack =>
    obtain ⟨-, rfl⟩ := packBody_cases h
    exact changes_writeBytes _ s
  case unpack =>
    obtain ⟨-, -, -, -, rfl⟩ := unpackBody_cases h
    exact changes_writeBits _ s
  case hdec =>
    obtain ⟨-, out, -, rfl⟩ := hdecBody_cases h
    exact changes_writeSymbols _ s
  case lzc =>
    obtain ⟨-, -, rfl⟩ := lzcBody_cases h
    exact changes_writeTags _ s
  case lzd =>
    obtain ⟨-, out, -, rfl⟩ := lzdBody_cases h
    exact changes_writeSymbols _ s
  all_goals exact absurd h (raise_ne_ok _ _ _ _)

end Sys2Proof.Machine
end

