-- ==== Sys2Proof/Laws/PerInstr.lean ====
section
/-! SUPPORT. What holds of each instruction as syntax, one lemma for each constructor: the word of a
well-formed instruction has 32 bits (spec/30_encoding.md R61, R73). -/

namespace Sys2Proof.Laws

/-- A word whose highest set bit is bit `k` is told apart by that bit (R63). -/
theorem decodeNat_of_high {k low : Nat} (hk : 4 ≤ k) (h : low < 2 ^ k) :
    decodeNat (2 ^ k + low) = decodeHigh k (2 ^ k + low) := by
  have h16 : 2 ^ 4 ≤ 2 ^ k := Nat.pow_le_pow_right (by decide) hk
  rw [decodeNat, if_neg (by omega), (Nat.log2_eq_iff (by omega)).2]
  constructor
  · omega
  · rw [Nat.pow_succ]
    omega

namespace EncodeFits

/-- The word of a well-formed instruction has 32 bits. -/
def Statement (i : Instr) : Prop := i.wellFormed = true → encodeNat i < 2 ^ 32

theorem freq : Statement .freq := fun _ => by decide

theorem build : Statement .build := fun _ => by decide

theorem codes : Statement .codes := fun _ => by decide

theorem enc : Statement .enc := fun _ => by decide

theorem henc : Statement .henc := fun _ => by decide

theorem pack : Statement .pack := fun _ => by decide

theorem unpack : Statement .unpack := fun _ => by decide

theorem hdec : Statement .hdec := fun _ => by decide

theorem lzc : Statement .lzc := fun _ => by decide

theorem lzd : Statement .lzd := fun _ => by decide

theorem illegal0 : Statement .illegal0 := fun _ => by decide

theorem illegalB : Statement .illegalB := fun _ => by decide

theorem illegalC : Statement .illegalC := fun _ => by decide

theorem illegalD : Statement .illegalD := fun _ => by decide

theorem illegalE : Statement .illegalE := fun _ => by decide

theorem illegalF : Statement .illegalF := fun _ => by decide

theorem illegalHi31 (low : Nat) : Statement (.illegalHi31 low) := fun h => by
  simp only [Instr.wellFormed, decide_eq_true_eq] at h
  simp only [encodeNat]
  omega

theorem illegalHi30 (low : Nat) : Statement (.illegalHi30 low) := fun h => by
  simp only [Instr.wellFormed, decide_eq_true_eq] at h
  simp only [encodeNat]
  omega

theorem illegalHi29 (low : Nat) : Statement (.illegalHi29 low) := fun h => by
  simp only [Instr.wellFormed, decide_eq_true_eq] at h
  simp only [encodeNat]
  omega

theorem illegalHi28 (low : Nat) : Statement (.illegalHi28 low) := fun h => by
  simp only [Instr.wellFormed, decide_eq_true_eq] at h
  simp only [encodeNat]
  omega

theorem illegalHi27 (low : Nat) : Statement (.illegalHi27 low) := fun h => by
  simp only [Instr.wellFormed, decide_eq_true_eq] at h
  simp only [encodeNat]
  omega

theorem illegalHi26 (low : Nat) : Statement (.illegalHi26 low) := fun h => by
  simp only [Instr.wellFormed, decide_eq_true_eq] at h
  simp only [encodeNat]
  omega

theorem illegalHi25 (low : Nat) : Statement (.illegalHi25 low) := fun h => by
  simp only [Instr.wellFormed, decide_eq_true_eq] at h
  simp only [encodeNat]
  omega

theorem illegalHi24 (low : Nat) : Statement (.illegalHi24 low) := fun h => by
  simp only [Instr.wellFormed, decide_eq_true_eq] at h
  simp only [encodeNat]
  omega

theorem illegalHi23 (low : Nat) : Statement (.illegalHi23 low) := fun h => by
  simp only [Instr.wellFormed, decide_eq_true_eq] at h
  simp only [encodeNat]
  omega

theorem illegalHi22 (low : Nat) : Statement (.illegalHi22 low) := fun h => by
  simp only [Instr.wellFormed, decide_eq_true_eq] at h
  simp only [encodeNat]
  omega

theorem illegalHi21 (low : Nat) : Statement (.illegalHi21 low) := fun h => by
  simp only [Instr.wellFormed, decide_eq_true_eq] at h
  simp only [encodeNat]
  omega

theorem illegalHi20 (low : Nat) : Statement (.illegalHi20 low) := fun h => by
  simp only [Instr.wellFormed, decide_eq_true_eq] at h
  simp only [encodeNat]
  omega

theorem illegalHi19 (low : Nat) : Statement (.illegalHi19 low) := fun h => by
  simp only [Instr.wellFormed, decide_eq_true_eq] at h
  simp only [encodeNat]
  omega

theorem illegalHi18 (low : Nat) : Statement (.illegalHi18 low) := fun h => by
  simp only [Instr.wellFormed, decide_eq_true_eq] at h
  simp only [encodeNat]
  omega

theorem illegalHi17 (low : Nat) : Statement (.illegalHi17 low) := fun h => by
  simp only [Instr.wellFormed, decide_eq_true_eq] at h
  simp only [encodeNat]
  omega

theorem illegalHi16 (low : Nat) : Statement (.illegalHi16 low) := fun h => by
  simp only [Instr.wellFormed, decide_eq_true_eq] at h
  simp only [encodeNat]
  omega

theorem illegalHi15 (low : Nat) : Statement (.illegalHi15 low) := fun h => by
  simp only [Instr.wellFormed, decide_eq_true_eq] at h
  simp only [encodeNat]
  omega

theorem illegalHi14 (low : Nat) : Statement (.illegalHi14 low) := fun h => by
  simp only [Instr.wellFormed, decide_eq_true_eq] at h
  simp only [encodeNat]
  omega

theorem illegalHi13 (low : Nat) : Statement (.illegalHi13 low) := fun h => by
  simp only [Instr.wellFormed, decide_eq_true_eq] at h
  simp only [encodeNat]
  omega

theorem illegalHi12 (low : Nat) : Statement (.illegalHi12 low) := fun h => by
  simp only [Instr.wellFormed, decide_eq_true_eq] at h
  simp only [encodeNat]
  omega

theorem illegalHi11 (low : Nat) : Statement (.illegalHi11 low) := fun h => by
  simp only [Instr.wellFormed, decide_eq_true_eq] at h
  simp only [encodeNat]
  omega

theorem illegalHi10 (low : Nat) : Statement (.illegalHi10 low) := fun h => by
  simp only [Instr.wellFormed, decide_eq_true_eq] at h
  simp only [encodeNat]
  omega

theorem illegalHi9 (low : Nat) : Statement (.illegalHi9 low) := fun h => by
  simp only [Instr.wellFormed, decide_eq_true_eq] at h
  simp only [encodeNat]
  omega

theorem illegalHi8 (low : Nat) : Statement (.illegalHi8 low) := fun h => by
  simp only [Instr.wellFormed, decide_eq_true_eq] at h
  simp only [encodeNat]
  omega

theorem illegalHi7 (low : Nat) : Statement (.illegalHi7 low) := fun h => by
  simp only [Instr.wellFormed, decide_eq_true_eq] at h
  simp only [encodeNat]
  omega

theorem illegalHi6 (low : Nat) : Statement (.illegalHi6 low) := fun h => by
  simp only [Instr.wellFormed, decide_eq_true_eq] at h
  simp only [encodeNat]
  omega

theorem illegalHi5 (low : Nat) : Statement (.illegalHi5 low) := fun h => by
  simp only [Instr.wellFormed, decide_eq_true_eq] at h
  simp only [encodeNat]
  omega

theorem illegalHi4 (low : Nat) : Statement (.illegalHi4 low) := fun h => by
  simp only [Instr.wellFormed, decide_eq_true_eq] at h
  simp only [encodeNat]
  omega

end EncodeFits

end Sys2Proof.Laws
end

