-- ==== Sys2Proof/Laws/Records.lean ====
section
/-! SUPPORT. The record layouts (spec/30_encoding.md R66 to R68): a record that fits its widths has each
field at its place, packing undoes unpacking, and what a buffer holds fits under the invariant. -/

namespace Sys2Proof.Machine

/-- A field of `w` bits below a field of `x` bits. -/
theorem field_below {a b w x : Nat} (ha : a < 2 ^ w) (hb : b < 2 ^ x) :
    a + 2 ^ w * b < 2 ^ (w + x) ∧ (a + 2 ^ w * b) % 2 ^ w = a ∧ (a + 2 ^ w * b) / 2 ^ w = b := by
  refine ⟨?_, by rw [Nat.add_mul_mod_self_left, Nat.mod_eq_of_lt ha], by
    rw [Nat.add_mul_div_left _ _ (two_pow_pos' w), Nat.div_eq_of_lt ha, Nat.zero_add]⟩
  calc a + 2 ^ w * b < 2 ^ w * (b + 1) := by rw [Nat.mul_add]; omega
    _ ≤ 2 ^ w * 2 ^ x := Nat.mul_le_mul_left _ hb
    _ = _ := (Nat.pow_add ..).symm

theorem div_two_pow_add (v m n : Nat) : v / 2 ^ (m + n) = v / 2 ^ m / 2 ^ n := by
  rw [Nat.pow_add, Nat.div_div_eq_div_mul]

theorem toNat_lt_two_pow_one (b : Bool) : b.toNat < 2 ^ 1 := by cases b <;> decide

/-! ### The fields of a packed record -/

theorem packNode_layout {p : Params} {r : NodeRec} (h : r.fits p) : NodeLayout p (packNode p r) r := by
  obtain ⟨h1, h2, h3, h4⟩ := h
  have a4 := field_below h3 h4
  have a3 := field_below h2 a4.1
  have a2 := field_below h1 a3.1
  have a1 := field_below (toNat_lt_two_pow_one r.kind) a2.1
  have e : packNode p r = r.kind.toNat + 2 ^ 1 *
      (r.sym + 2 ^ p.symW * (r.left + 2 ^ p.nidxW * (r.right + 2 ^ p.nidxW * r.weight))) := rfl
  rw [e]
  refine ⟨?_, ?_, ?_, ?_, ?_, ?_⟩
  · rw [show Space.node.width p = 1 + (p.symW + (p.nidxW + (p.nidxW + p.wtW))) by
      simp only [Space.width]; omega]
    exact a1.1
  · rw [Nat.testBit_eq_decide_div_mod_eq]
    cases r.kind <;> simp
  · rw [fieldOf, a1.2.2, a2.2.1]
  · rw [fieldOf, Nat.add_comm p.symW 1, div_two_pow_add, a1.2.2, a2.2.2, a3.2.1]
  · rw [fieldOf, show p.symW + p.nidxW + 1 = 1 + p.symW + p.nidxW by omega, div_two_pow_add,
      div_two_pow_add, a1.2.2, a2.2.2, a3.2.2, a4.2.1]
  · rw [fieldOf, show p.symW + 2 * p.nidxW + 1 = 1 + p.symW + p.nidxW + p.nidxW by omega,
      div_two_pow_add, div_two_pow_add, div_two_pow_add, a1.2.2, a2.2.2, a3.2.2, a4.2.2,
      Nat.mod_eq_of_lt h4]

theorem packCode_layout {p : Params} {r : CodeRec} (h : r.fits p) : CodeLayout p (packCode p r) r := by
  have a := field_below h.1 h.2
  refine ⟨a.1, ?_, fun k _ => ?_⟩
  · rw [fieldOf, Nat.pow_zero, Nat.div_one]
    exact a.2.1
  · rw [packCode, Nat.add_comm p.clenW k, ← Nat.testBit_div_two_pow, a.2.2]

theorem packTag_layout {p : Params} {r : TagRec} (h : r.fits p) : TagLayout p (packTag p r) r := by
  obtain ⟨h1, h2, h3⟩ := h
  have a3 := field_below (toNat_lt_two_pow_one r.hasLit) h3
  have a2 := field_below h2 a3.1
  have a1 := field_below h1 a2.1
  have e : packTag p r = r.dist + 2 ^ p.idxW * (r.len + 2 ^ p.idxW * (r.hasLit.toNat + 2 ^ 1 * r.lit)) := rfl
  rw [e]
  refine ⟨?_, ?_, ?_, ?_, ?_⟩
  · rw [show Space.tags.width p = p.idxW + (p.idxW + (1 + p.symW)) by simp only [Space.width]; omega]
    exact a1.1
  · rw [fieldOf, Nat.pow_zero, Nat.div_one, a1.2.1]
  · rw [fieldOf, a1.2.2, a2.2.1]
  · rw [Nat.testBit_eq_decide_div_mod_eq, show 2 * p.idxW = p.idxW + p.idxW by omega, div_two_pow_add,
      a1.2.2, a2.2.2]
    cases r.hasLit <;> simp
  · rw [fieldOf, show 2 * p.idxW + 1 = p.idxW + p.idxW + 1 by omega, div_two_pow_add, div_two_pow_add,
      a1.2.2, a2.2.2, a3.2.2, Nat.mod_eq_of_lt h3]

/-! ### Packing undoes unpacking -/

theorem packCode_unpackCode {p : Params} {v : Nat} (h : v < 2 ^ Space.ct.width p) :
    packCode p (unpackCode p v) = v := by
  have hb : v / 2 ^ p.clenW < 2 ^ p.codeMax := by
    rw [Nat.div_lt_iff_lt_mul (two_pow_pos' _), Nat.mul_comm, ← Nat.pow_add]
    exact h
  simp only [packCode, unpackCode, Nat.mod_eq_of_lt hb]
  exact Nat.mod_add_div v _

theorem packTag_unpackTag {p : Params} {v : Nat} (h : v < 2 ^ Space.tags.width p) :
    packTag p (unpackTag p v) = v := by
  have hl : v / 2 ^ (2 * p.idxW + 1) < 2 ^ p.symW := by
    rw [Nat.div_lt_iff_lt_mul (two_pow_pos' _), Nat.mul_comm, ← Nat.pow_add]
    exact h
  have hb : (v.testBit (2 * p.idxW)).toNat + 2 * (v / 2 ^ (2 * p.idxW + 1)) = v / 2 ^ p.idxW / 2 ^ p.idxW := by
    rw [div_two_pow_add, Nat.testBit_eq_decide_div_mod_eq, show 2 * p.idxW = p.idxW + p.idxW by omega,
      div_two_pow_add]
    rcases Nat.mod_two_eq_zero_or_one (v / 2 ^ p.idxW / 2 ^ p.idxW) with e | e <;> simp [e] <;> omega
  simp only [packTag, unpackTag, Nat.mod_eq_of_lt hl, hb, Nat.mod_add_div]

/-! ### What a buffer holds -/

theorem nodeAt_fits {s : State} (h : s.contentsOk) (k : Nat) (hf : s.node.fill = none) :
    (s.nodeAt k).fits s.cfg := by
  unfold State.nodeAt
  cases hc : s.node.get? k with
  | none =>
    exact ⟨Nat.mod_lt _ (two_pow_pos' _), Nat.mod_lt _ (two_pow_pos' _), Nat.mod_lt _ (two_pow_pos' _),
      Nat.mod_lt _ (two_pow_pos' _)⟩
  | some r => exact (within_get? h.2.2.2.1 hc).resolve_right (by simp [hf])

theorem codeRecAt_fits {s : State} (h : s.contentsOk) (a : Nat)
    (hf : s.ct.fill = none ∨ s.ct.fill = some CodeRec.absent) : (s.codeRecAt a).fits s.cfg := by
  unfold State.codeRecAt
  cases hc : s.ct.get? a with
  | none => exact ⟨two_pow_pos' _, Nat.mod_lt _ (two_pow_pos' _)⟩
  | some r =>
    rcases within_get? h.2.2.2.2.1 hc with hr | hr
    · exact hr
    · rcases hf with hf | hf <;> rw [hf] at hr <;> cases hr
      exact ⟨two_pow_pos' _, two_pow_pos' _⟩

end Sys2Proof.Machine
end

