-- ==== Sys2Proof/Tests/Slice0.lean ====
section
/-! SUPPORT. The model's own tests: words written out from the opcode table, ill-formed terms refused,
single steps against the vectors of spec/95_test_vectors.md, and for every statement with hypotheses a
witness that meets them. -/

namespace Sys2Proof.Tests

open Sys2Proof.Machine

/-! ### Helpers -/

def tiny : Params := { symW := 2, nMax := 15, bMax := 64 }

/-- Idle after reset, with small buffers. -/
def small : State := { State.reset with cfg := tiny }

def contents {α : Type} (xs : List α) : Memory α := { cells := indexedFrom 0 xs, fill := none, gen := 1 }

def withSin (xs : List Nat) (s : State) : State :=
  { s with sin := contents xs, sinLen := BitVec.ofNat 32 xs.length }

def withBits (bs : List Bool) (s : State) : State :=
  { s with bits := contents bs, bitLen := BitVec.ofNat 32 bs.length }

def withBytes (bs : List Byte) (s : State) : State :=
  { s with bytes := contents bs, byteLen := BitVec.ofNat 32 bs.length }

def withTags (ts : List TagRec) (s : State) : State :=
  { s with tags := contents ts, tagLen := BitVec.ofNat 32 ts.length }

/-- Counts by rising symbol. -/
def withCounts (cs : List (Nat × Nat)) (s : State) : State :=
  { s with ft := { cells := cs, fill := some 0, gen := 1 } }

/-- Codes by rising symbol, every other symbol absent. -/
def withCodes (cs : List (Nat × List Bool)) (s : State) : State :=
  { s with ct := { cells := cs.map fun c => (c.1, CodeRec.ofCode c.2), fill := some CodeRec.absent, gen := 1 } }

def withTree (nodes : List NodeRec) (s : State) : State :=
  { s with node := contents nodes
           nnodes := BitVec.ofNat 32 nodes.length
           root := BitVec.ofNat 32 (nodes.length - 1) }

/-- The bit sequence of a number, `n` bits, most significant first. -/
def bitsOf (n v : Nat) : List Bool := (List.range n).map fun i => v.testBit (n - 1 - i)

def after (o : Host.Outcome State Fault Refusal) : Option State :=
  match o with
  | .next t => some t
  | .fault _ => none
  | .refused _ => none

/-- One step with the command word `w` placed. -/
def runWord (w : Nat) (s : State) : Option State := after (step (s.withFetchWord 32 w))

/-- "abracadabra" in ASCII. -/
def abracadabra : List Nat := [97, 98, 114, 97, 99, 97, 100, 97, 98, 114, 97]

/-- The code table of vector H2. -/
def tableH2 : List (Nat × List Bool) :=
  [(97, bitsOf 1 0), (98, bitsOf 3 6), (99, bitsOf 3 4), (100, bitsOf 3 5), (114, bitsOf 3 7)]

/-- A small input, its counts, its tree (by hand from R84: 1 and 2 merge first, then node 3 of weight 2
comes before leaf 0 of weight 3), its codes and its bits. -/
def input : List Nat := [0, 1, 0, 0, 2]
def counts : List (Nat × Nat) := [(0, 3), (1, 1), (2, 1)]
def tree : List NodeRec :=
  [.leaf 0 3, .leaf 1 1, .leaf 2 1, .internal 1 2 2, .internal 3 0 5]
def table : List (Nat × List Bool) := [(0, [true]), (1, [false, false]), (2, [false, true])]
def coded : List Bool := [true, false, false, true, true, false, true]

/-- A small state with everything in it. -/
def full : State :=
  { withTags [⟨0, 0, true, 1⟩, ⟨1, 3, true, 2⟩]
      (withBytes [0x01#8, 0x9A#8] (withBits coded (withCodes table (withTree tree
        (withCounts counts (withSin input small)))))) with win := 5 }

/-- `full` with HENC running. -/
def busy : State := acceptCommand 5 full

/-! ### Decoding: each row's word written out (spec/30_encoding.md R62, R63, R73) -/

theorem test_decode_freq : decode 0b00000000000000000000000000000001#32 = .freq := by decide
theorem test_decode_build : decode 0b00000000000000000000000000000010#32 = .build := by decide
theorem test_decode_codes : decode 0b00000000000000000000000000000011#32 = .codes := by decide
theorem test_decode_enc : decode 0b00000000000000000000000000000100#32 = .enc := by decide
theorem test_decode_henc : decode 0b00000000000000000000000000000101#32 = .henc := by decide
theorem test_decode_pack : decode 0b00000000000000000000000000000110#32 = .pack := by decide
theorem test_decode_unpack : decode 0b00000000000000000000000000000111#32 = .unpack := by decide
theorem test_decode_hdec : decode 0b00000000000000000000000000001000#32 = .hdec := by decide
theorem test_decode_lzc : decode 0b00000000000000000000000000001001#32 = .lzc := by decide
theorem test_decode_lzd : decode 0b00000000000000000000000000001010#32 = .lzd := by decide
theorem test_decode_illegal0 : decode 0b00000000000000000000000000000000#32 = .illegal0 := by decide
theorem test_decode_illegalB : decode 0b00000000000000000000000000001011#32 = .illegalB := by decide
theorem test_decode_illegalC : decode 0b00000000000000000000000000001100#32 = .illegalC := by decide
theorem test_decode_illegalD : decode 0b00000000000000000000000000001101#32 = .illegalD := by decide
theorem test_decode_illegalE : decode 0b00000000000000000000000000001110#32 = .illegalE := by decide
theorem test_decode_illegalF : decode 0b00000000000000000000000000001111#32 = .illegalF := by decide
theorem test_decode_illegalHi31 : decode 0b10101010101010101010101010101011#32 = .illegalHi31 0x2AAAAAAB := by decide
theorem test_decode_illegalHi30 : decode 0b01101010101010101010101010101011#32 = .illegalHi30 0x2AAAAAAB := by decide
theorem test_decode_illegalHi29 : decode 0b00101010101010101010101010101011#32 = .illegalHi29 0xAAAAAAB := by decide
theorem test_decode_illegalHi28 : decode 0b00011010101010101010101010101011#32 = .illegalHi28 0xAAAAAAB := by decide
theorem test_decode_illegalHi27 : decode 0b00001010101010101010101010101011#32 = .illegalHi27 0x2AAAAAB := by decide
theorem test_decode_illegalHi26 : decode 0b00000110101010101010101010101011#32 = .illegalHi26 0x2AAAAAB := by decide
theorem test_decode_illegalHi25 : decode 0b00000010101010101010101010101011#32 = .illegalHi25 0xAAAAAB := by decide
theorem test_decode_illegalHi24 : decode 0b00000001101010101010101010101011#32 = .illegalHi24 0xAAAAAB := by decide
theorem test_decode_illegalHi23 : decode 0b00000000101010101010101010101011#32 = .illegalHi23 0x2AAAAB := by decide
theorem test_decode_illegalHi22 : decode 0b00000000011010101010101010101011#32 = .illegalHi22 0x2AAAAB := by decide
theorem test_decode_illegalHi21 : decode 0b00000000001010101010101010101011#32 = .illegalHi21 0xAAAAB := by decide
theorem test_decode_illegalHi20 : decode 0b00000000000110101010101010101011#32 = .illegalHi20 0xAAAAB := by decide
theorem test_decode_illegalHi19 : decode 0b00000000000010101010101010101011#32 = .illegalHi19 0x2AAAB := by decide
theorem test_decode_illegalHi18 : decode 0b00000000000001101010101010101011#32 = .illegalHi18 0x2AAAB := by decide
theorem test_decode_illegalHi17 : decode 0b00000000000000101010101010101011#32 = .illegalHi17 0xAAAB := by decide
theorem test_decode_illegalHi16 : decode 0b00000000000000011010101010101011#32 = .illegalHi16 0xAAAB := by decide
theorem test_decode_illegalHi15 : decode 0b00000000000000001010101010101011#32 = .illegalHi15 0x2AAB := by decide
theorem test_decode_illegalHi14 : decode 0b00000000000000000110101010101011#32 = .illegalHi14 0x2AAB := by decide
theorem test_decode_illegalHi13 : decode 0b00000000000000000010101010101011#32 = .illegalHi13 0xAAB := by decide
theorem test_decode_illegalHi12 : decode 0b00000000000000000001101010101011#32 = .illegalHi12 0xAAB := by decide
theorem test_decode_illegalHi11 : decode 0b00000000000000000000101010101011#32 = .illegalHi11 0x2AB := by decide
theorem test_decode_illegalHi10 : decode 0b00000000000000000000011010101011#32 = .illegalHi10 0x2AB := by decide
theorem test_decode_illegalHi9 : decode 0b00000000000000000000001010101011#32 = .illegalHi9 0xAB := by decide
theorem test_decode_illegalHi8 : decode 0b00000000000000000000000110101011#32 = .illegalHi8 0xAB := by decide
theorem test_decode_illegalHi7 : decode 0b00000000000000000000000010101011#32 = .illegalHi7 0x2B := by decide
theorem test_decode_illegalHi6 : decode 0b00000000000000000000000001101011#32 = .illegalHi6 0x2B := by decide
theorem test_decode_illegalHi5 : decode 0b00000000000000000000000000101011#32 = .illegalHi5 0xB := by decide
theorem test_decode_illegalHi4 : decode 0b00000000000000000000000000011011#32 = .illegalHi4 0xB := by decide

theorem test_decodeTableWord_hdec : decodeTableWord 32 0x8 = some .hdec := by decide
theorem test_decodeTableWord_wider : decodeTableWord 33 0x8 = none := by decide
theorem test_decodeTableWord_large : decodeTableWord 32 (2 ^ 32) = none := by decide

/-! ### WellFormed: a field wider than its bits is refused (R73) -/

theorem test_illFormed_illegalHi31 : (Instr.illegalHi31 (2 ^ 31)).wellFormed = false := by decide
theorem test_illFormed_illegalHi30 : (Instr.illegalHi30 (2 ^ 30)).wellFormed = false := by decide
theorem test_illFormed_illegalHi29 : (Instr.illegalHi29 (2 ^ 29)).wellFormed = false := by decide
theorem test_illFormed_illegalHi28 : (Instr.illegalHi28 (2 ^ 28)).wellFormed = false := by decide
theorem test_illFormed_illegalHi27 : (Instr.illegalHi27 (2 ^ 27)).wellFormed = false := by decide
theorem test_illFormed_illegalHi26 : (Instr.illegalHi26 (2 ^ 26)).wellFormed = false := by decide
theorem test_illFormed_illegalHi25 : (Instr.illegalHi25 (2 ^ 25)).wellFormed = false := by decide
theorem test_illFormed_illegalHi24 : (Instr.illegalHi24 (2 ^ 24)).wellFormed = false := by decide
theorem test_illFormed_illegalHi23 : (Instr.illegalHi23 (2 ^ 23)).wellFormed = false := by decide
theorem test_illFormed_illegalHi22 : (Instr.illegalHi22 (2 ^ 22)).wellFormed = false := by decide
theorem test_illFormed_illegalHi21 : (Instr.illegalHi21 (2 ^ 21)).wellFormed = false := by decide
theorem test_illFormed_illegalHi20 : (Instr.illegalHi20 (2 ^ 20)).wellFormed = false := by decide
theorem test_illFormed_illegalHi19 : (Instr.illegalHi19 (2 ^ 19)).wellFormed = false := by decide
theorem test_illFormed_illegalHi18 : (Instr.illegalHi18 (2 ^ 18)).wellFormed = false := by decide
theorem test_illFormed_illegalHi17 : (Instr.illegalHi17 (2 ^ 17)).wellFormed = false := by decide
theorem test_illFormed_illegalHi16 : (Instr.illegalHi16 (2 ^ 16)).wellFormed = false := by decide
theorem test_illFormed_illegalHi15 : (Instr.illegalHi15 (2 ^ 15)).wellFormed = false := by decide
theorem test_illFormed_illegalHi14 : (Instr.illegalHi14 (2 ^ 14)).wellFormed = false := by decide
theorem test_illFormed_illegalHi13 : (Instr.illegalHi13 (2 ^ 13)).wellFormed = false := by decide
theorem test_illFormed_illegalHi12 : (Instr.illegalHi12 (2 ^ 12)).wellFormed = false := by decide
theorem test_illFormed_illegalHi11 : (Instr.illegalHi11 (2 ^ 11)).wellFormed = false := by decide
theorem test_illFormed_illegalHi10 : (Instr.illegalHi10 (2 ^ 10)).wellFormed = false := by decide
theorem test_illFormed_illegalHi9 : (Instr.illegalHi9 (2 ^ 9)).wellFormed = false := by decide
theorem test_illFormed_illegalHi8 : (Instr.illegalHi8 (2 ^ 8)).wellFormed = false := by decide
theorem test_illFormed_illegalHi7 : (Instr.illegalHi7 (2 ^ 7)).wellFormed = false := by decide
theorem test_illFormed_illegalHi6 : (Instr.illegalHi6 (2 ^ 6)).wellFormed = false := by decide
theorem test_illFormed_illegalHi5 : (Instr.illegalHi5 (2 ^ 5)).wellFormed = false := by decide
theorem test_illFormed_illegalHi4 : (Instr.illegalHi4 (2 ^ 4)).wellFormed = false := by decide

/-! ### Steps, with their results from spec/95_test_vectors.md -/

/-- H2: the counts of "abracadabra", and G15's status. -/
theorem test_freq_H2 : (runWord 1 (withSin abracadabra State.reset)).map (fun t =>
    (t.status.word, [97, 98, 99, 100, 114, 120].map t.countAt)) =
      some (0x00001002#32, [5, 2, 1, 1, 2, 0]) := by decide

/-- H13: empty input sets `EMPTY` (G15). -/
theorem test_freq_H13 : (runWord 1 (withCounts counts State.reset)).map (fun t =>
    (t.status.word, t.countAt 0)) = some (0x0000100A#32, 0) := by decide

/-- H2: the arena as records. -/
theorem test_build_H2 : (runWord 2 (withCounts [(97, 5), (98, 2), (99, 1), (100, 1), (114, 2)]
    State.reset)).map (fun t => (t.nnodes, t.root, (List.range 9).map fun k => packNode t.cfg (t.nodeAt k))) =
      some (9, 8, [0x280000C2, 0x100000C4, 0x080000C6, 0x080000C8, 0x100000E4, 0x100C0401, 0x20100201,
        0x30180A01, 0x581C0001]) := by decide

/-- Section 2.1: no symbol present. -/
theorem test_build_empty : (runWord 2 State.reset).map (fun t => (t.status.word, t.errInfo, t.nnodes)) =
    some (0x00002216#32, 0, 0) := by decide

/-- H8: the codes of the arena of "aaaabbbccd". -/
theorem test_codes_H8 : (runWord 3 (withTree [.leaf 97 4, .leaf 98 3, .leaf 99 2, .leaf 100 1,
    .internal 3 2 3, .internal 1 4 6, .internal 0 5 10] State.reset)).map (fun t =>
      (t.status.word, [97, 98, 99, 100].map t.codeOf, (t.codeRecAt 101).len)) =
    some (0x00003002#32, [bitsOf 1 0, bitsOf 2 2, bitsOf 3 7, bitsOf 3 6], 0) := by decide

/-- H1: a single leaf has the code "0". -/
theorem test_codes_H1 : (runWord 3 (withTree [.leaf 97 4] State.reset)).map (fun t =>
    packCode t.cfg (t.codeRecAt 97)) = some 0x001 := by decide

/-- E1. -/
theorem test_enc_E1 : (runWord 4 (withCodes tableH2 (withSin abracadabra State.reset))).map (fun t =>
    (t.status.word, t.bitSequence)) = some (0x00004002#32, bitsOf 23 0b01101110100010101101110) := by decide

/-- E2. -/
theorem test_enc_E2 : (runWord 4 (withCodes tableH2 (withSin [97, 98, 122] State.reset))).map (fun t =>
    (t.status.word, t.errInfo, t.bitLen)) = some (0x00004426#32, 2, 0) := by decide

/-- H2, P2: HENC on "abracadabra". -/
theorem test_henc_H2 : (runWord 5 (withSin abracadabra State.reset)).map (fun t =>
    (t.status.word, t.bitSequence, t.nnodes, [97, 98, 99, 100, 114].map fun a => packCode t.cfg (t.codeRecAt a))) =
      some (0x00005002#32, bitsOf 23 0b01101110100010101101110, 9, [0x001, 0x303, 0x103, 0x503, 0x703]) := by
  decide

/-- H13: HENC on the empty input. -/
theorem test_henc_H13 : (runWord 5 (withTree [.leaf 97 4] (withBits [true] State.reset))).map (fun t =>
    (t.status.word, t.nnodes, t.bitLen, (t.codeRecAt 97).len)) = some (0x0000500A#32, 0, 0, 0) := by decide

/-- K4. -/
theorem test_pack_K4 : (runWord 6 (withBits (bitsOf 9 0b101100101) State.reset)).map State.byteSequence =
    some [0x07#8, 0xB2#8, 0x80#8] := by decide

/-- K1. -/
theorem test_pack_K1 : (runWord 6 State.reset).map (fun t => (t.status.word, t.byteSequence)) =
    some (0x0000600A#32, [0x00#8]) := by decide

/-- Q5. -/
theorem test_unpack_Q5 : (runWord 7 (withBytes [0x07#8, 0xFF#8] State.reset)).map (fun t =>
    (t.status.word, t.bitSequence)) = some (0x00007002#32, [true]) := by decide

/-- Q9. -/
theorem test_unpack_Q9 : (runWord 7 (withBytes [0x03#8] State.reset)).map (fun t =>
    (t.status.word, t.errInfo)) = some (0x00007756#32, 2) := by decide

/-- X1. -/
theorem test_hdec_X1 : (runWord 8 (withCodes tableH2 (withBits (bitsOf 23 0b01101110100010101101110)
    State.reset))).map (fun t => (t.status.word, t.outputSymbols)) =
      some (0x00008002#32, abracadabra) := by decide

/-- X6. -/
theorem test_hdec_X6 : (runWord 8 (withCodes tableH2 (withBits (bitsOf 5 0b01101) State.reset))).map
    (fun t => (t.status.word, t.errInfo, t.soutLen)) = some (0x00008536#32, 4, 0) := by decide

/-- L3: the window clips. -/
theorem test_lzc_L3 : (runWord 9 { withSin abracadabra State.reset with win := 4 }).map State.tagSequence =
    some [⟨0, 0, true, 97⟩, ⟨0, 0, true, 98⟩, ⟨0, 0, true, 114⟩, ⟨3, 1, true, 99⟩, ⟨2, 1, true, 100⟩,
      ⟨2, 1, true, 98⟩, ⟨0, 0, true, 114⟩, ⟨3, 1, false, 0⟩] := by decide

/-- L14: a match that wraps over its source, then a literal. -/
theorem test_lzc_L14 : (runWord 9 { withSin [97, 88, 97, 88, 97, 88, 97, 89] State.reset with win := 20 }).map
    State.tagSequence = some [⟨0, 0, true, 97⟩, ⟨0, 0, true, 88⟩, ⟨2, 5, true, 89⟩] := by decide

/-- Z8. -/
theorem test_lzd_Z8 : (runWord 10 (withTags [⟨0, 0, true, 97⟩, ⟨1, 3, false, 0⟩, ⟨4, 2, true, 122⟩]
    State.reset)).map (fun t => (t.status.word, t.outputSymbols)) =
      some (0x0000A002#32, [97, 97, 97, 97, 97, 97, 122]) := by decide

/-- Z3: the distance is checked although the length is 0. -/
theorem test_lzd_Z3 : (runWord 10 (withTags [⟨0, 0, true, 97⟩, ⟨2, 0, true, 98⟩] State.reset)).map
    (fun t => (t.status.word, t.errInfo, t.soutLen)) = some (0x0000A946#32, 1, 0) := by decide

/-- P6: CMDW 0x0000000C completes at once, and the write of WIN right after it takes effect. -/
theorem test_illegal_P6 : (after (step { small with inputs := [.regWrite 0 0x0000000C, .regWrite 3 1] })).bind
    (fun t => (after (step t)).map fun u => (t.status.word, t.errInfo, u.win)) =
      some (0x0000C086, 0x0000000C, 1) := by decide

/-- G4: an illegal word leaves the counts alone. -/
theorem test_illegal_G4 : (runWord 0x11 (withCounts [(97, 5)] State.reset)).map (fun t =>
    (t.status.word, t.errInfo, t.countAt 97)) = some (0x00001086#32, 0x11, 5) := by decide

/-- G5. -/
theorem test_illegal_G5 : (runWord 0x80000009 State.reset).map (fun t => (t.status.word, t.errInfo)) =
    some (0x00009086#32, 0x80000009) := by decide

/-- G14: `REG.STATUS` while HENC runs. -/
theorem test_status_G14 : (after (step { busy with inputs := [.regRead 1] })).map State.lastRead =
    some (.reg 0x00005001#32) := by decide

/-- P3: the record of `TAGS[0]` at the host port. -/
theorem test_bufRead_P3 : (after (step { withTags [⟨0, 0, true, 97⟩] State.reset with
    inputs := [.bufRead .tags 0] })).map State.lastRead = some (.elem 0xC300000000) := by decide

/-- P5: the record of tag (1,1,-) written by the host. -/
theorem test_bufWrite_P5 : (after (step { State.reset with
    inputs := [.bufWrite .tags 1 0x0000010001] })).map (fun t => t.tagAt 1) = some ⟨1, 1, false, 0⟩ := by decide

/-! ### Witnesses of the hypotheses of the statements -/

theorem full_inv : full.Inv :=
  ⟨by decide, by decide, by decide, by decide, by decide, by decide⟩

theorem busy_inv : busy.Inv :=
  ⟨by decide, by decide, by decide, by decide, by decide, by decide⟩

theorem witness_DecodeEncodeRoundTrip : Instr.lzc.wellFormed = true ∧
    (Instr.illegalHi31 (2 ^ 31 - 1)).wellFormed = true ∧ (Instr.illegalHi4 15).wellFormed = true := by decide

theorem witness_OpcodeSelectsCommand : (0xA, Instr.lzd) ∈ opcodeMap ∧ decode 0xA#32 = .lzd ∧
    decode 0x1A#32 ≠ .lzd := by decide

theorem witness_StepRunsDecodedCommand : busy.status.busy = true ∧ busy.inputs = [] ∧
    ({ busy with inputs := [.complete, .regRead 1] } : State).inputs = .complete :: [.regRead 1] := by decide

theorem witness_AcceptedWriteStartsCommand : busy.status.busy = true ∧ full.status.busy = false ∧
    ({ full with inputs := [.regWrite 0 0xB] } : State).inputs = .regWrite 0 0xB :: [] ∧
    isCommand (decode 0xB) = false ∧ isCommand (decode 0xA) = true := by decide

theorem witness_BusyHostAccess : busy.status.busy = true ∧ busy.statusOk ∧
    ({ busy with inputs := [.regWrite 4 3] } : State).inputs = .regWrite 4 3 :: [] ∧
    ({ busy with inputs := [.bufWrite .sin 14 1] } : State).inputs = .bufWrite .sin 14 1 :: [] ∧
    ({ busy with inputs := [.regRead 1] } : State).inputs = .regRead 1 :: [] ∧
    ({ busy with inputs := [.regRead 2] } : State).inputs = .regRead 2 :: [] ∧
    ({ busy with inputs := [.regRead 3] } : State).inputs = .regRead 3 :: [] ∧
    ({ busy with inputs := [.bufRead .ct 0] } : State).inputs = .bufRead .ct 0 :: [] := by decide

theorem witness_AccessesThatNameNothing : 10 < 11 ∧ 10 ∈ [1, 2, 5, 9, 10] ∧
    Space.capacity full.cfg .sin ≤ 15 ∧ ¬ Space.capacity full.cfg .sin ≤ 14 ∧
    ({ full with inputs := [.regWrite 11 1] } : State).inputs = .regWrite 11 1 :: [] ∧
    ({ full with inputs := [.regWrite 10 1] } : State).inputs = .regWrite 10 1 :: [] ∧
    ({ full with inputs := [.bufWrite .sin 15 1] } : State).inputs = .bufWrite .sin 15 1 :: [] ∧
    ({ full with inputs := [.bufWrite .node 0 1] } : State).inputs = .bufWrite .node 0 1 :: [] ∧
    ({ full with inputs := [.bufWrite (.absent 0) 0 1] } : State).inputs = .bufWrite (.absent 0) 0 1 :: [] ∧
    ({ full with inputs := [.regRead 11] } : State).inputs = .regRead 11 :: [] ∧
    ({ full with inputs := [.bufRead .sin 15] } : State).inputs = .bufRead .sin 15 :: [] ∧
    ({ full with inputs := [.bufRead (.absent 0) 0] } : State).inputs = .bufRead (.absent 0) 0 :: [] ∧
    ({ full with inputs := [.regRead 0] } : State).inputs = .regRead 0 :: [] := by decide

theorem witness_IdleRegisterAccess : full.status.busy = false := by decide

/-- Each host-writable buffer, its last element, its greatest value; each buffer, its last element read. -/
theorem witness_WrittenElementReadsBack : full.status.busy = false ∧
    (∀ b ∈ [Space.sin, .ft, .ct, .bits, .bytes, .tags], b.capacity full.cfg - 1 < b.capacity full.cfg ∧
      2 ^ b.width full.cfg - 1 < 2 ^ b.width full.cfg) ∧
    (∀ b ∈ [Space.sout, .node], b.capacity full.cfg - 1 < b.capacity full.cfg) ∧
    ({ full with inputs := [.bufRead .node 6] } : State).inputs = .bufRead .node 6 :: [] := by decide

/-- The records of R66, R67 and R68's examples, at the default widths. -/
theorem test_recordLayouts :
    NodeLayout Params.defaults 0x280000C2 (.leaf 0x61 5) ∧
      NodeLayout Params.defaults 0x581C0001 (.internal 0 7 11) ∧
      TagLayout Params.defaults 0xC700010003 ⟨3, 1, true, 0x63⟩ ∧
      fieldOf 0x303 0 Params.defaults.clenW = 3 := by decide

theorem witness_HostCannotWriteProtected : Event.bufWrite .node 0 1 ≠ .reset ∧
    Event.bufWrite .node 0 1 ≠ .complete ∧ (after (step { full with inputs := [.bufWrite .node 0 1] })).isSome ∧
    (after (step { full with inputs := [.regWrite 5 7] })).isSome := by decide

theorem witness_ResetEvent : ({ busy with inputs := [.reset, .regRead 1] } : State).inputs =
    .reset :: [.regRead 1] := by decide

theorem witness_RunStatementRunsCommand :
    ({ full with inputs := scriptEvents full.cfg (ScriptStmt.run 1 2) ++ [] } : State).status.busy = false ∧
    scriptEvents full.cfg (ScriptStmt.run 1 2) =
      [.regWrite 0 1, .regRead 1, .regRead 1, .complete, .regRead 1] := by decide

theorem witness_LoadSinPlacesSymbols : full.cfg.wf ∧ full.status.busy = false ∧
    input.length ≤ full.cfg.nMax ∧ (∀ a ∈ input, a < 2 ^ full.cfg.symW) ∧
    (List.replicate 15 3).length ≤ full.cfg.nMax ∧ (∀ a ∈ List.replicate 15 3, a < 2 ^ full.cfg.symW) := by
  decide

theorem witness_StepKeepsInvariant : busy.Inv ∧ (after (step busy)).isSome = true :=
  ⟨busy_inv, by decide⟩

theorem witness_StepNeverStops : busy.Inv := busy_inv

theorem witness_CommandsReadNoFlag :
    ({ busy.status with err := true, empty := true } : Status).op = busy.status.op ∧
      ({ busy.status with err := true, empty := true } : Status) ≠ busy.status := by decide

/-- Elements at the length and above differ from those of `full`. -/
theorem witness_ElementsBeyondLengthAreIgnored :
    (∀ j < full.sinLen.toNat, ({ full with sin := full.sin.set 5 3 }).sinAt j = full.sinAt j) ∧
    (∀ j < full.bitLen.toNat, ({ full with bits := full.bits.set 7 true }).bitAt j = full.bitAt j) ∧
    (∀ j < full.byteLen.toNat, ({ full with bytes := full.bytes.set 2 0xFF }).byteAt j = full.byteAt j) ∧
    (∀ j < full.tagLen.toNat,
      ({ full with tags := full.tags.set 2 ⟨1, 1, false, 0⟩ }).tagAt j = full.tagAt j) ∧
    (∀ k < full.nnodes.toNat,
      ({ full with node := full.node.set 5 (.leaf 3 9) }).nodeAt k = full.nodeAt k) ∧
    Entity.symbolSeq ∉ destinations .enc ∧ Entity.symbolSeq ∈ destinations .hdec ∧
    Entity.bitSeq ∉ destinations .pack ∧ Entity.bitSeq ∈ destinations .henc ∧
    (full.bits.set 0 false).gen = full.bits.gen ∧ (full.node.set 0 (.leaf 3 9)).gen = full.node.gen := by decide

/-- From `full` these commands complete; with a source too long, or none, they report an error. -/
theorem witness_TableCommandsFrame :
    (∀ i ∈ [Instr.freq, .build, .codes], (after (exec i full)).isSome = true) ∧
    (after (exec .freq { full with sinLen := 16 })).isSome = true ∧
    (∀ i ∈ [Instr.build, .codes], (after (exec i small)).isSome = true) := by decide

theorem witness_StreamCommandsFrame :
    (∀ i ∈ [Instr.enc, .henc, .pack, .unpack, .hdec], (after (exec i full)).isSome = true) ∧
    (∀ i ∈ [Instr.enc, .henc], (after (exec i { full with sinLen := 16 })).isSome = true) ∧
    (∀ i ∈ [Instr.pack, .hdec], (after (exec i { full with bitLen := 65 })).isSome = true) ∧
    (after (exec .unpack small)).isSome = true := by decide

theorem witness_Lz77CommandsFrame :
    (∀ i ∈ [Instr.lzc, .lzd], (after (exec i full)).isSome = true) ∧
    (after (exec .lzc { full with sinLen := 16 })).isSome = true ∧
    (after (exec .lzd { full with tagLen := 16 })).isSome = true := by decide

theorem witness_EveryCommandEndsDone : (after (exec .unpack full)).isSome = true := by decide

theorem witness_EmptyFlagSaysSourceEmpty :
    (after (exec .freq full)).map (·.status.err) = some false ∧
    (after (exec .freq small)).map (·.status.err) = some false := by decide

theorem witness_AbortEmptiesDestinations :
    (after (exec .henc { full with sinLen := 16 })).map (·.status.err) = some true ∧
    Entity.codeTable ∈ destinations .henc := by decide

theorem witness_OnlyListedErrorsOccur : full.Inv ∧
    (after (exec .hdec (withBits [false] full))).map (·.status.err) = some true := ⟨full_inv, by decide⟩

/-- Each clause at the first length that is too long, and the zero window at the last length that is not. -/
theorem witness_ParameterChecks :
    full.cfg.nMax < ({ full with sinLen := 16 } : State).sinLen.toNat ∧
    full.cfg.bMax < ({ full with bitLen := 65 } : State).bitLen.toNat ∧
    full.cfg.byMax < ({ full with byteLen := 10 } : State).byteLen.toNat ∧
    full.cfg.tMax < ({ full with tagLen := 16 } : State).tagLen.toNat ∧
    ({ full with sinLen := 15, win := 0 } : State).sinLen.toNat ≤ full.cfg.nMax ∧
    (after (exec .build small)).isSome = true := by decide

theorem witness_IllegalInstructionReports : isCommand .illegal0 = false ∧
    isCommand (.illegalHi31 9) = false ∧ isCommand (.illegalHi4 15) = false := by decide

theorem witness_IllegalWordWrittenWhileIdle : full.status.busy = false ∧
    ({ full with inputs := [.regWrite 0 0x11, .regWrite 3 1] } : State).inputs =
      .regWrite 0 0x11 :: [.regWrite 3 1] ∧
    (0x00000011#32).extractLsb' 4 28 ≠ 0#28 ∧
    ((0x0000000F#32).extractLsb' 0 4).toNat ∈ [0, 0xB, 0xC, 0xD, 0xE, 0xF] := by
  decide

theorem witness_FreqCountsSymbols : full.sinLen.toNat ≤ full.cfg.nMax ∧
    (withSin (List.replicate 15 3) small).sinLen.toNat ≤ small.cfg.nMax ∧
    ∀ a ∈ full.inputSymbols, a < full.cfg.alphabet := by decide

theorem witness_BuildMakesTree : full.cfg.wf ∧ full.presentSymbols ≠ [] := by decide

theorem witness_BuildMergesLightestFirst : full.cfg.wf ∧ full.presentSymbols ≠ [] ∧
    (after (exec .build full)).map (·.nnodes) = some 5 := by decide

theorem witness_BuildOfOneOrNoSymbol : (withCounts [(3, 15)] small).presentSymbols = [3] ∧
    ∀ a < small.cfg.alphabet, small.countAt a = 0 := by decide

theorem witness_CodesFollowPaths : full.cfg.wf ∧ full.treeOk ∧ full.nnodes ≠ 0 := by decide

theorem witness_SingleLeafCodeIsZero : (withTree [.leaf 3 15] small).cfg.wf ∧
    (withTree [.leaf 3 15] small).treeOk ∧ (withTree [.leaf 3 15] small).nnodes = 1 := by decide

theorem witness_SingleLeafCodeIsZero_other : full.cfg.wf ∧ full.treeOk ∧ full.nnodes ≠ 0 ∧
    full.nnodes ≠ 1 := by decide

theorem witness_CodesWithoutTree : small.nnodes = 0 := by decide

theorem witness_CodeTableIsPrefixFree : full.cfg.wf ∧ full.treeOk ∧ full.nnodes ≠ 0 ∧
    (after (exec .codes full)).isSome = true := by decide

theorem witness_EncConcatenatesCodes : full.cfg.wf ∧ full.sinLen.toNat ≤ full.cfg.nMax ∧
    (∀ a ∈ full.inputSymbols, (full.codeRecAt a).len ≠ 0) ∧
    (full.inputSymbols.flatMap full.codeOf).length ≤ full.cfg.bMax := by decide

/-- A code of 3 bits three times over, and room for 8 bits. -/
def crowded : State :=
  withSin [1, 1, 1] (withCodes [(1, [true, true, true])] { small with cfg := { tiny with bMax := 8 } })

/-- The first bad symbol has no entry; the first bad symbol's code, of 3 bits, does not fit in 8. -/
theorem witness_EncReportsFirstBadSymbol :
    (withSin [0, 1, 3] full).inputSymbols = [0, 1] ++ 3 :: [] ∧
    (∀ a ∈ [0, 1], ((withSin [0, 1, 3] full).codeRecAt a).len ≠ 0) ∧
    ([0, 1].flatMap (withSin [0, 1, 3] full).codeOf).length ≤ full.cfg.bMax ∧
    ((withSin [0, 1, 3] full).codeRecAt 3).len = 0 ∧
    crowded.sinLen.toNat ≤ crowded.cfg.nMax ∧ crowded.inputSymbols = [1, 1] ++ 1 :: [] ∧
    (crowded.codeRecAt 1).len ≠ 0 ∧ ([1, 1].flatMap crowded.codeOf).length ≤ crowded.cfg.bMax ∧
    crowded.cfg.bMax < ([1, 1].flatMap crowded.codeOf).length + (crowded.codeRecAt 1).len := by decide

/-- Eight symbols of one bit each, and room for eight bits. -/
def fitting : State := withSin [0, 1, 0, 1, 0, 1, 0, 1] { small with cfg := { tiny with bMax := 8 } }

/-- Nine symbols of one bit each, and room for eight bits. -/
def overflowing : State := withSin [0, 1, 0, 1, 0, 1, 0, 1, 0] { small with cfg := { tiny with bMax := 8 } }

theorem fitting_inv : fitting.Inv :=
  ⟨by decide, by decide, by decide, by decide, by decide, by decide⟩

theorem overflowing_inv : overflowing.Inv :=
  ⟨by decide, by decide, by decide, by decide, by decide, by decide⟩

theorem witness_HencEncodesInput : fitting.Inv ∧ fitting.sinLen ≠ 0 ∧ fitting.sinLen.toNat ≤ fitting.cfg.nMax ∧
    (fitting.inputSymbols.flatMap fitting.tableOfInput.codeOf).length = fitting.cfg.bMax :=
  ⟨fitting_inv, by decide⟩

/-- The four commands that HENC stands for, in turn. -/
def chain (s : State) : Option State :=
  (((after (exec .freq s)).bind fun s => after (exec .build s)).bind fun s =>
    after (exec .codes s)).bind fun s => after (exec .enc s)

theorem witness_HencIsTheChain : full.Inv ∧ full.sinLen ≠ 0 ∧
    (chain full).map (fun s => (s.status.err, s.bitSequence)) = some (false, coded) := ⟨full_inv, by decide⟩

/-- The ninth code does not fit. -/
theorem witness_HencIsTheChain_error : overflowing.Inv ∧ overflowing.sinLen ≠ 0 ∧
    (after (exec .freq overflowing)).map (·.status.err) = some false ∧
    (chain overflowing).map (fun s => (s.status.err, s.errInfo)) = some (true, 8) :=
  ⟨overflowing_inv, by decide⟩

theorem witness_HencOfEmptyInput : small.sinLen = 0 := by decide

theorem witness_PackFramesBits : full.cfg.wf ∧ full.bitLen.toNat ≤ full.cfg.bMax ∧
    (withBits (List.replicate 64 true) small).bitLen.toNat ≤ small.cfg.bMax := by decide

theorem witness_PackGuarantees : full.cfg.wf ∧ full.bitLen.toNat ≤ full.cfg.bMax ∧ small.cfg.wf ∧
    small.bitLen.toNat ≤ small.cfg.bMax := by decide

theorem witness_PackUnpackRoundTrip : full.cfg.wf ∧ full.bitLen.toNat ≤ full.cfg.bMax ∧
    (after (exec .unpack full)).map (·.status.err) = some false ∧
    (after (exec .unpack (withBytes [0x07#8, 0xFF#8] full))).map (·.status.err) = some false := by decide

theorem witness_UnpackExpandsPayload : full.cfg.wf ∧ full.byteLen.toNat ≤ full.cfg.byMax ∧
    full.byteLen ≠ 0 ∧ (full.byteAt 0).toNat ≤ 7 ∧ (full.byteAt 0).toNat ≤ 8 * (full.byteLen.toNat - 1) ∧
    ((withBytes [0x07#8, 0xFF#8] full).byteAt 0).toNat ≤ 7 := by decide

theorem witness_UnpackRejectsBadFrames : full.byteLen.toNat ≤ full.cfg.byMax ∧ small.byteLen = 0 ∧
    7 < ((withBytes [0x08#8, 0x00#8] small).byteAt 0).toNat ∧
    ((withBytes [0x01#8] small).byteAt 0).toNat ≤ 7 ∧
    8 * ((withBytes [0x01#8] small).byteLen.toNat - 1) < ((withBytes [0x01#8] small).byteAt 0).toNat := by decide

theorem full_firstMatch : ∀ a ∈ [0, 1, 2], FirstMatch full.cfg.alphabet full.codeOf a := by decide

theorem witness_HdecDecodesCodes : full.cfg.wf ∧ full.bitLen.toNat ≤ full.cfg.bMax ∧
    input.length ≤ full.cfg.nMax ∧ (∀ a ∈ input, FirstMatch full.cfg.alphabet full.codeOf a) ∧
    full.bitSequence = input.flatMap full.codeOf := by decide

/-- X13, X14: with a table that is not prefix-free, 'a' is the first match and 'b' is none. -/
theorem witness_FirstMatch_nonconforming :
    FirstMatch 4 (withCodes [(1, [false]), (2, [false])] small).codeOf 1 ∧
    ¬ FirstMatch 4 (withCodes [(1, [false]), (2, [false])] small).codeOf 2 := by decide

theorem witness_FirstMatch_shadowed :
    ¬ FirstMatch 4 (withCodes [(1, [false]), (2, [false, true])] small).codeOf 2 := by decide

/-- X9: the code "0" alone, and the bits "01". -/
def unmatched : State := withBits [false, true] (withCodes [(0, [false])] small)

/-- A proper prefix of an entry left over; a bit that begins no entry left over. -/
theorem witness_HdecUnfinishedCandidate :
    (withBits [true, false] full).bitLen.toNat ≤ full.cfg.bMax ∧ [0].length ≤ full.cfg.nMax ∧
    (∀ a ∈ [0], FirstMatch full.cfg.alphabet full.codeOf a) ∧
    (withBits [true, false] full).bitSequence = [0].flatMap full.codeOf ++ [false] ∧
    (∀ a < full.cfg.alphabet, full.codeOf a ≠ [] → ¬ full.codeOf a <+: [false]) ∧
    (∃ a < full.cfg.alphabet, [false] <+: full.codeOf a) := by decide

theorem witness_HdecUnfinishedCandidate_mismatch : unmatched.bitLen.toNat ≤ unmatched.cfg.bMax ∧
    unmatched.bitSequence = [0].flatMap unmatched.codeOf ++ [true] ∧
    (∀ a ∈ [0], FirstMatch unmatched.cfg.alphabet unmatched.codeOf a) ∧
    (∀ a < unmatched.cfg.alphabet, unmatched.codeOf a ≠ [] → ¬ unmatched.codeOf a <+: [true]) ∧
    ∀ a < unmatched.cfg.alphabet, ¬ [true] <+: unmatched.codeOf a := by decide

/-- Room for two symbols, and the bits of three. -/
def cramped : State := withBits [true, false, false, true, true] { full with cfg := { tiny with nMax := 2 } }

theorem witness_HdecCapacity : cramped.bitLen.toNat ≤ cramped.cfg.bMax ∧ [0, 1].length = cramped.cfg.nMax ∧
    (∀ b ∈ [0, 0, 1], FirstMatch cramped.cfg.alphabet cramped.codeOf b) ∧
    cramped.bitSequence = [0, 1].flatMap cramped.codeOf ++ cramped.codeOf 0 ++ [true] := by decide

theorem witness_HuffmanRoundTrip : full.Inv ∧ (after (exec .henc full)).map (·.status.err) = some false :=
  ⟨full_inv, by decide⟩

theorem witness_LzcEmitsGreedyTags : full.cfg.wf ∧ full.sinLen.toNat ≤ full.cfg.nMax ∧ full.win ≠ 0 ∧
    ({ withSin (List.replicate 15 1) small with win := 1 } : State).sinLen.toNat ≤ small.cfg.nMax := by decide

theorem witness_MatchLengthIsCommonRun : 0 < 1 ∧ 1 + 5 ≤ [97, 97, 97, 97, 97, 97].length ∧
    5 ≤ matchLength [97, 97, 97, 97, 97, 97] 1 0 := by decide

theorem witness_LzcTagGuarantees : full.cfg.wf ∧ full.sinLen.toNat ≤ full.cfg.nMax ∧ full.win ≠ 0 ∧
    (after (exec .lzc full)).isSome = true ∧ full.sinLen ≠ 0 := by decide

theorem witness_LzdReplaysTags : full.cfg.wf ∧ full.tagLen.toNat ≤ full.cfg.tMax ∧
    TagsOk full.cfg.nMax full.tagSequence := by decide

/-- The second of three tags is malformed (Z3). -/
def badTags : State := withTags [⟨0, 0, true, 1⟩, ⟨2, 0, true, 2⟩, ⟨0, 0, true, 1⟩] small

/-- A distance one above the output's length; distance 0 with a length. -/
theorem witness_LzdRejectsMalformedTags :
    badTags.tagLen.toNat ≤ badTags.cfg.tMax ∧
    badTags.tagSequence = [⟨0, 0, true, 1⟩] ++ ⟨2, 0, true, 2⟩ :: [⟨0, 0, true, 1⟩] ∧
    TagsOk badTags.cfg.nMax [⟨0, 0, true, 1⟩] ∧
    TagRec.malformed ⟨2, 0, true, 2⟩ (produced [⟨0, 0, true, 1⟩]) ∧
    TagRec.malformed ⟨0, 3, true, 2⟩ (produced [⟨0, 0, true, 1⟩]) ∧
    ¬ TagRec.malformed ⟨1, 1, false, 0⟩ (produced [⟨0, 0, true, 1⟩]) := by decide

/-- The second tag makes 16 symbols of output. -/
def longTags : State := withTags [⟨0, 0, true, 1⟩, ⟨1, 14, true, 2⟩] small

/-- Output of 15 symbols fits, one more does not. -/
theorem witness_LzdCapacity :
    longTags.tagLen.toNat ≤ longTags.cfg.tMax ∧
    longTags.tagSequence = [⟨0, 0, true, 1⟩] ++ ⟨1, 14, true, 2⟩ :: [] ∧
    TagsOk longTags.cfg.nMax [⟨0, 0, true, 1⟩] ∧
    ¬ TagRec.malformed ⟨1, 14, true, 2⟩ (produced [⟨0, 0, true, 1⟩]) ∧
    longTags.cfg.nMax < produced [⟨0, 0, true, 1⟩] + 14 + true.toNat ∧
    TagsOk tiny.nMax [⟨0, 0, true, 1⟩, ⟨1, 14, false, 0⟩] := by decide

theorem witness_Lz77RoundTrip : full.cfg.wf ∧ full.sinLen.toNat ≤ full.cfg.nMax ∧ full.win ≠ 0 := by decide

end Sys2Proof.Tests
end

section
/-! The errors a command's body raises: the pairs of an error and its stage
(spec/60_exceptions.md R141, R142). -/

namespace Sys2Proof.Machine

/-- Every error that `b` raises is one of the pairs of a kind and a stage in `ps`. -/
def Raises {α : Type} (ps : List (ErrorKind × BitVec 4)) (b : Body α) : Prop :=
  ∀ e, b = .error (.raised e) → (e.kind, e.stage) ∈ ps

section Rules

variable {α β : Type} {ps qs : List (ErrorKind × BitVec 4)}

theorem raises_ok (x : α) : Raises ps (.ok x : Body α) := fun _ he => by cases he

theorem raises_fault (f : Fault) : Raises ps (.error (.fault f) : Body α) := fun _ he => by cases he

theorem raises_raise {k : ErrorKind} {st : BitVec 4} (h : (k, st) ∈ ps) (n : Nat) :
    Raises ps (raise k st n : Body α) := fun _ he => by
  cases he
  exact h

theorem Raises.mono {b : Body α} (h : Raises ps b) (hs : ps ⊆ qs) : Raises qs b :=
  fun e he => hs (h e he)

/-- What ends a part of a body ends the body. -/
theorem Raises.of_error {x : Body α} {e : Stop} (h : Raises ps x) (hx : x = .error e) :
    Raises ps (.error e : Body β) := fun e' he => h e' (by
  cases he
  exact hx)

end Rules

variable (s : State)

theorem freqBody_raises : Raises [(.badParam, 1)] (freqBody s) := by
  unfold freqBody
  split
  · exact raises_raise (by decide) _
  · exact raises_ok _

theorem buildBody_raises : Raises [(.emptyInput, 2)] (buildBody s) := by
  unfold buildBody
  split
  · exact raises_raise (by decide) _
  · exact raises_ok _

theorem codesBody_raises : Raises [(.emptyInput, 3)] (codesBody s) := by
  unfold codesBody
  split
  · exact raises_raise (by decide) _
  · split
    · exact raises_ok _
    · exact raises_fault _

theorem encScan_raises (ct : Nat → CodeRec) (cap j m : Nat) (S : List Nat) :
    Raises [(.alphabetMismatch, 4), (.capacity, 4)] (encScan ct cap j m S) := by
  obtain ⟨bs, h⟩ | ⟨k, i, rfl | rfl, h⟩ := encScan_cases (ct := ct) (cap := cap) j m S <;> rw [h]
  · exact raises_ok _
  · exact raises_raise (by decide) _
  · exact raises_raise (by decide) _

theorem encBody_raises : Raises [(.badParam, 4), (.alphabetMismatch, 4), (.capacity, 4)] (encBody s) := by
  unfold encBody
  split
  · exact raises_raise (by decide) _
  · split
    · exact raises_ok _
    · next e he => exact ((encScan_raises _ _ _ _ _).of_error he).mono (List.subset_cons_self ..)

/-- HENC can raise only what the four bodies it runs can. In a state of the block less occurs (R98). -/
theorem hencBody_raises : Raises [(.badParam, 1), (.emptyInput, 2), (.emptyInput, 3), (.badParam, 4),
    (.alphabetMismatch, 4), (.capacity, 4)] (hencBody s) := by
  unfold hencBody
  split
  · next e he => exact ((freqBody_raises s).of_error he).mono (by decide)
  · next s1 _ =>
    split
    · exact raises_ok _
    · split
      · next e he => exact ((buildBody_raises s1).of_error he).mono (by decide)
      · next s2 _ =>
        split
        · next e he => exact ((codesBody_raises s2).of_error he).mono (by decide)
        · next s3 _ => exact (encBody_raises s3).mono (by decide)

theorem packBody_raises : Raises [(.badParam, 6)] (packBody s) := by
  unfold packBody
  split
  · exact raises_raise (by decide) _
  · exact raises_ok _

theorem unpackBody_raises : Raises [(.badParam, 7), (.badFrame, 7)] (unpackBody s) := by
  unfold unpackBody
  split_ifs
  · exact raises_raise (by decide) _
  · exact raises_raise (by decide) _
  · exact raises_raise (by decide) _
  · exact raises_raise (by decide) _
  · exact raises_ok _

theorem hdecScan_raises (ct : Nat → CodeRec) (count cap i st : Nat) (acc : List Bool) (out : List Nat)
    (bs : List Bool) : Raises [(.corruptStream, 5), (.alphabetMismatch, 5), (.capacity, 5)]
      (hdecScan ct count cap i st acc out bs) := by
  obtain ⟨o, h⟩ | ⟨k, n, rfl | rfl | rfl, h⟩ :=
    hdecScan_cases (ct := ct) (count := count) (cap := cap) i st acc out bs <;> rw [h]
  · exact raises_ok _
  · exact raises_raise (by decide) _
  · exact raises_raise (by decide) _
  · exact raises_raise (by decide) _

theorem hdecBody_raises : Raises [(.badParam, 5), (.corruptStream, 5), (.alphabetMismatch, 5),
    (.capacity, 5)] (hdecBody s) := by
  unfold hdecBody
  split
  · exact raises_raise (by decide) _
  · split
    · exact raises_ok _
    · next e he =>
      exact ((hdecScan_raises _ _ _ _ _ _ _ _).of_error he).mono (List.subset_cons_self ..)

theorem lzcBody_raises : Raises [(.badParam, 8)] (lzcBody s) := by
  unfold lzcBody
  split_ifs
  · exact raises_raise (by decide) _
  · exact raises_raise (by decide) _
  · exact raises_ok _

theorem lzdScan_raises (cap j : Nat) (out : List Nat) (ts : List TagRec) :
    Raises [(.malformedTag, 9), (.capacity, 9)] (lzdScan cap j out ts) := by
  obtain ⟨o, h⟩ | ⟨k, n, rfl | rfl, h⟩ := lzdScan_cases cap j out ts <;> rw [h]
  · exact raises_ok _
  · exact raises_raise (by decide) _
  · exact raises_raise (by decide) _

theorem lzdBody_raises : Raises [(.badParam, 9), (.malformedTag, 9), (.capacity, 9)] (lzdBody s) := by
  unfold lzdBody
  split
  · exact raises_raise (by decide) _
  · split
    · exact raises_ok _
    · next e he => exact ((lzdScan_raises _ _ _ _).of_error he).mono (List.subset_cons_self ..)

variable {s}

theorem Raises.stage_le {α : Type} {ps : List (ErrorKind × BitVec 4)} {b : Body α} {e : CmdError}
    (h : Raises ps b) (hp : ∀ p ∈ ps, p.2.toNat ≤ 9) (he : b = .error (.raised e)) :
    e.stage.toNat ≤ 9 :=
  hp _ (h e he)

/-- The stages are those of R141. -/
theorem body_stage_le {i : Instr} {e : CmdError} (h : bodyOf i s = .error (.raised e)) :
    e.stage.toNat ≤ 9 := by
  cases i
  case freq => exact (freqBody_raises s).stage_le (by decide) h
  case build => exact (buildBody_raises s).stage_le (by decide) h
  case codes => exact (codesBody_raises s).stage_le (by decide) h
  case enc => exact (encBody_raises s).stage_le (by decide) h
  case henc => exact (hencBody_raises s).stage_le (by decide) h
  case pack => exact (packBody_raises s).stage_le (by decide) h
  case unpack => exact (unpackBody_raises s).stage_le (by decide) h
  case hdec => exact (hdecBody_raises s).stage_le (by decide) h
  case lzc => exact (lzcBody_raises s).stage_le (by decide) h
  case lzd => exact (lzdBody_raises s).stage_le (by decide) h
  all_goals
    exact (raises_raise (ps := [(.illegalCommand, 0)]) (by decide) _).stage_le (by decide) h

end Sys2Proof.Machine
end

section
/-! The invariant is kept by every event: the status by acceptance, completion and abort, the data by
the host's writes, the bodies and the reset. -/

namespace Sys2Proof.Machine

variable {s : State}

/-! ### `REG.STATUS` -/

theorem errorKind_code_range (k : ErrorKind) : 1 ≤ k.code.toNat ∧ k.code.toNat ≤ 8 := by
  cases k <;> decide

theorem statusOk_acceptCommand (v : Word) (s : State) : (acceptCommand v s).statusOk := by
  simp [State.statusOk, Status.accepted, Status.cleared]

theorem statusOk_completeCommand (empty : Bool) (s : State) : (completeCommand empty s).statusOk := by
  simp [State.statusOk, Status.completed, Status.cleared]

theorem statusOk_raiseError (dests : List Entity) (s : State) {e : CmdError} (he : e.stage.toNat ≤ 9) :
    (raiseError dests e s).statusOk := by
  simpa [State.statusOk, Status.aborted, Status.cleared, he] using errorKind_code_range e.kind

theorem statusOk_resetBlock (s : State) : (resetBlock s).statusOk := by
  simp [State.statusOk, Status.cleared]

/-! ### Commands -/

/-- The end of a command, in either way, leaves the invariant's part about the data as it found it, and
a status of R15 whatever the status was. -/
theorem exec_inv {i : Instr} {t : State} (hd : s.dataOk) (h : exec i s = .next t) : t.Inv := by
  rw [inv_iff]
  obtain ⟨u, hu, rfl⟩ | ⟨e, he, rfl⟩ := exec_next h
  · exact ⟨dataOk_completeCommand (dataOk_body hd hu) _, statusOk_completeCommand _ _⟩
  · exact ⟨dataOk_raiseError hd _ _, statusOk_raiseError _ _ (body_stage_le he)⟩

theorem startCommand_inv (hd : s.dataOk) (v : Word) : (startCommand v s).Inv := by
  rw [inv_iff]
  obtain ⟨-, e⟩ | ⟨-, e⟩ := startCommand_cases v s <;> rw [e]
  · exact ⟨hd, statusOk_acceptCommand v s⟩
  · exact ⟨hd, statusOk_raiseError [] _ (Nat.zero_le 9)⟩

/-! ### The host port -/

theorem unpackCode_fits (p : Params) (v : Nat) : (unpackCode p v).fits p :=
  ⟨Nat.mod_lt _ (two_pow_pos' _), Nat.mod_lt _ (two_pow_pos' _)⟩

theorem unpackTag_fits (p : Params) (v : Nat) : (unpackTag p v).fits p :=
  ⟨Nat.mod_lt _ (two_pow_pos' _), Nat.mod_lt _ (two_pow_pos' _), Nat.mod_lt _ (two_pow_pos' _)⟩

/-- A write of one element below the capacity, cut to the element's width (R45, R49). -/
theorem dataOk_writeElement (h : s.dataOk) {b : Space} {i : Nat} (hi : i < b.capacity s.cfg) (v : Nat) :
    (writeElement b i v s).dataOk := by
  obtain ⟨hp, hm, hc, hl, ht⟩ := h
  obtain ⟨a1, a2, a3, a4, a5, a6, a7, a8, fills⟩ := hm
  obtain ⟨c1, c2, c3, c4, c5, c6, c7, c8⟩ := hc
  cases b with
  | sin =>
    exact ⟨hp, ⟨set_wf a1 _ _, a2, a3, a4, a5, a6, a7, a8, fills⟩,
      ⟨within_set c1 hi (Nat.mod_lt _ (two_pow_pos' _)), c2, c3, c4, c5, c6, c7, c8⟩, hl, ht⟩
  | ft =>
    exact ⟨hp, ⟨a1, a2, set_wf a3 _ _, a4, a5, a6, a7, a8, fills⟩,
      ⟨c1, c2, within_set c3 hi (Nat.mod_lt _ (two_pow_pos' _)), c4, c5, c6, c7, c8⟩, hl, ht⟩
  | ct =>
    exact ⟨hp, ⟨a1, a2, a3, a4, set_wf a5 _ _, a6, a7, a8, fills⟩,
      ⟨c1, c2, c3, c4, within_set c5 hi (unpackCode_fits _ _), c6, c7, c8⟩, hl, ht⟩
  | bits =>
    exact ⟨hp, ⟨a1, a2, a3, a4, a5, set_wf a6 _ _, a7, a8, fills⟩,
      ⟨c1, c2, c3, c4, c5, within_set c6 hi trivial, c7, c8⟩, hl, ht⟩
  | bytes =>
    exact ⟨hp, ⟨a1, a2, a3, a4, a5, a6, set_wf a7 _ _, a8, fills⟩,
      ⟨c1, c2, c3, c4, c5, c6, within_set c7 hi trivial, c8⟩, hl, ht⟩
  | tags =>
    exact ⟨hp, ⟨a1, a2, a3, a4, a5, a6, a7, set_wf a8 _ _, fills⟩,
      ⟨c1, c2, c3, c4, c5, c6, c7, within_set c8 hi (unpackTag_fits _ _)⟩, hl, ht⟩
  | sout | node | absent k =>
    exact ⟨hp, ⟨a1, a2, a3, a4, a5, a6, a7, a8, fills⟩, ⟨c1, c2, c3, c4, c5, c6, c7, c8⟩, hl, ht⟩

theorem writeElement_status (b : Space) (i v : Nat) (s : State) :
    (writeElement b i v s).status = s.status ∧ (writeElement b i v s).errInfo = s.errInfo ∧
      (writeElement b i v s).cmdLatch = s.cmdLatch := by
  cases b <;> exact ⟨rfl, rfl, rfl⟩

theorem writeElement_inv (h : s.Inv) {b : Space} {i : Nat} (hi : i < b.capacity s.cfg) (v : Nat) :
    (writeElement b i v s).Inv := by
  obtain ⟨hd, hs⟩ := (inv_iff s).1 h
  obtain ⟨e1, e2, e3⟩ := writeElement_status b i v s
  refine (inv_iff _).2 ⟨dataOk_writeElement hd hi v, ?_⟩
  rw [State.statusOk, e1, e2, e3]
  exact hs

/-- Registers the host can write hold any value; only `REG.CMD` does more (R44, R60). -/
theorem writeRegister_inv (h : s.Inv) (n : Nat) (v : Word) : (writeRegister n v s).Inv := by
  unfold writeRegister
  split
  · exact startCommand_inv ((inv_iff s).1 h).1 v
  all_goals exact h

theorem hostRegRead_inv (h : s.Inv) (n : Nat) : (hostRegRead n s).Inv := by
  unfold hostRegRead
  split
  · exact h
  · exact h

theorem hostBufRead_inv (h : s.Inv) (b : Space) (i : Nat) : (hostBufRead b i s).Inv := by
  unfold hostBufRead
  split
  · exact h
  · exact h

/-- Whatever the block was doing, the state after a reset is one of the block (R160). -/
theorem resetBlock_inv (hp : s.cfg.wf) : (resetBlock s).Inv := by
  refine (inv_iff _).2 ⟨⟨hp, ?_, ?_, ?_, .inl ⟨rfl, rfl⟩⟩, statusOk_resetBlock s⟩
  · exact ⟨wipe_wf _, wipe_wf _, clearTo_wf _ _, wipe_wf _, wipe_wf _, wipe_wf _, wipe_wf _, wipe_wf _,
      rfl, rfl, rfl, rfl, .inl rfl, rfl, rfl, rfl⟩
  · exact ⟨within_wipe _ _ _, within_wipe _ _ _, within_clearTo _ _ _ _, within_wipe _ _ _,
      within_wipe _ _ _, within_wipe _ _ _, within_wipe _ _ _, within_wipe _ _ _⟩
  · exact ⟨Nat.zero_le _, fun _ hi => absurd hi (Nat.not_lt_zero _), Nat.zero_le _,
      fun _ hi => absurd hi (Nat.not_lt_zero _)⟩

theorem hostEvent_inv (h : s.Inv) (e : Event) : (hostEvent e s).Inv := by
  cases e with
  | regRead n => exact hostRegRead_inv h n
  | regWrite n v =>
    simp only [hostEvent, hostRegWrite]
    split
    · exact h
    · exact writeRegister_inv h n v
  | bufRead b i => exact hostBufRead_inv h b i
  | bufWrite b i v =>
    simp only [hostEvent, hostBufWrite]
    split
    · next hi => exact writeElement_inv h hi.2 v
    · exact h
  | reset => exact resetBlock_inv h.1
  | complete => exact h

/-- Settles O18: a step is one host event or the end of the running command, and each keeps the
invariant. -/
theorem stepKeepsInvariant : Obligations.StepKeepsInvariant := by
  unfold Obligations.StepKeepsInvariant
  intro s t h hstep
  obtain ⟨e, rest, -, -, rfl⟩ | ⟨rest, -, ⟨-, hexec⟩ | ⟨-, rfl⟩⟩ := step_next hstep
  · exact hostEvent_inv (s := { s with inputs := rest }) h e
  · exact exec_inv (s := { s with inputs := rest }) ((inv_iff s).1 h).1 hexec
  · exact h

/-- Settles O17: every buffer is empty and every register 0. -/
theorem resetSatisfiesInvariant : Obligations.ResetSatisfiesInvariant := by
  unfold Obligations.ResetSatisfiesInvariant
  have hcfg : State.reset.cfg.wf := by decide
  have hmemory : State.reset.memoryOk := by decide
  have hcontents : State.reset.contentsOk := by decide
  have hlengths : State.reset.lengthsOk := by decide
  exact ⟨hcfg, hmemory, hcontents, statusOk_resetBlock State.reset, hlengths, .inl ⟨rfl, rfl⟩⟩

end Sys2Proof.Machine
end

section
/-! What a command leaves behind in `REG.STATUS` and `REG.ERRINFO` (spec/10_state.md R15,
spec/60_exceptions.md R146, R147), and what it does not touch (spec/20_memory.md R47). -/

namespace Sys2Proof.Machine

/-- No command writes anything but its destinations, the status, the error detail and the latch. -/
theorem exec_kept {i : Instr} {s t : State} (h : exec i s = .next t) :
    SourcesKept s t ∧ ∀ e : Entity, e ∉ destinations i → e.kept s t := by
  obtain ⟨u, hu, rfl⟩ | ⟨e, -, rfl⟩ := exec_next h
  · have hc := body_changes hu
    exact ⟨hc.sources, fun e he => by cases e <;> exact hc.kept _ he⟩
  · exact raiseError_kept _ e s

/-- Settles O25: both ends of a command, completion and abort, write every field of `REG.STATUS` but
`OP`, which no body writes. -/
theorem everyCommandEndsDone : Obligations.EveryCommandEndsDone := by
  unfold Obligations.EveryCommandEndsDone
  intro i s t h
  obtain ⟨u, hu, rfl⟩ | ⟨e, -, rfl⟩ := exec_next h
  · have hop : u.status = s.status := (body_changes hu).status
    simp [Status.completed, Status.cleared, hop]
  · simp [Status.aborted, Status.cleared]

/-- Settles O26: without error a command has completed, with the flag that its completion is given. -/
theorem emptyFlagSaysSourceEmpty : Obligations.EmptyFlagSaysSourceEmpty := by
  unfold Obligations.EmptyFlagSaysSourceEmpty
  intro i s t h herr
  obtain ⟨u, -, rfl⟩ | ⟨e, -, rfl⟩ := exec_next h
  · rfl
  · exact absurd herr (by simp [Status.aborted])

end Sys2Proof.Machine
end

section
/-! The registers at the host port (spec/10_state.md R14, R15, R37; spec/20_memory.md R44, R49). -/

namespace Sys2Proof.Machine

/-- A read of a register whose value is specified returns it and changes nothing else (R44). -/
theorem step_regRead {s : State} {n : Nat} {v : Word} (h : readRegister? n s = some v)
    (rest : List Event) : step { s with inputs := .regRead n :: rest } =
      .next { s with inputs := rest, lastRead := .reg v } := by
  have hr : readRegister? n { s with inputs := rest } = some v := h
  rw [step_of_event rfl (by simp)]
  simp only [hostEvent, hostRegRead, hr]

/-- A write while idle is the write of the register (R44). -/
theorem step_regWrite {s : State} (h : s.status.busy = false) (n : Nat) (v : Word)
    (rest : List Event) : step { s with inputs := .regWrite n v :: rest } =
      .next (writeRegister n v { s with inputs := rest }) := by
  rw [step_of_event rfl (by simp)]
  simp only [hostEvent, hostRegWrite, h, Bool.false_eq_true, if_false]

/-- What registers 1 to 10 read while idle (R14). -/
theorem readRegister?_idle {s : State} (h : s.status.busy = false) :
    ∀ c ∈ [(1, s.status.word), (2, s.errInfo), (3, s.win), (4, s.sinLen), (5, s.soutLen), (6, s.bitLen),
        (7, s.byteLen), (8, s.tagLen), (9, s.nnodes), (10, s.root)],
      readRegister? c.1 s = some c.2 := by
  simp [readRegister?, h]

/-- Settles O9: each access is one event of an idle block. -/
theorem idleRegisterAccess : Obligations.IdleRegisterAccess := by
  unfold Obligations.IdleRegisterAccess
  intro s rest h
  have write := fun n v => step_regWrite h n v rest
  exact ⟨write 3, write 4, write 6, write 7, write 8,
    fun c hc => step_regRead (readRegister?_idle h c hc) rest⟩

/-- Settles O12: the fields are those that `State.reset` is written with. -/
theorem resetState : Obligations.ResetState := by
  unfold Obligations.ResetState
  have hregs : State.reset.status.word = 0x00000000#32 := by decide
  have hidle : step { State.reset with inputs := [.complete] } = .next State.reset := rfl
  exact ⟨hregs, rfl, rfl, rfl, rfl, rfl, rfl, rfl, rfl, rfl, fun _ => rfl, fun _ => rfl,
    fun _ => ⟨rfl, rfl, rfl, rfl, rfl, rfl, rfl⟩, hidle⟩

/-- The four flags are the lowest bits (R15). -/
theorem getLsbD_statusWord (st : Status) : st.word.getLsbD 0 = st.busy ∧ st.word.getLsbD 1 = st.done ∧
    st.word.getLsbD 2 = st.err ∧ st.word.getLsbD 3 = st.empty := by
  simp only [Status.word, BitVec.getLsbD_append, BitVec.getLsbD_ofBool]
  simp

/-- The fields above the four flags lie in `OP`, `STAGE` and `ERRCODE` (R15). -/
theorem extractLsb'_statusWord (st : Status) {start : Nat} (len : Nat) (h : 4 ≤ start) :
    st.word.extractLsb' start len = (0#16 ++ st.op ++ st.stage ++ st.errCode).extractLsb' (start - 4) len := by
  have hflags : start - 1 - 1 - 1 - 1 = start - 4 := by omega
  unfold Status.word
  rw [BitVec.extractLsb'_append_eq_of_le (by omega), BitVec.extractLsb'_append_eq_of_le (by omega),
    BitVec.extractLsb'_append_eq_of_le (by omega), BitVec.extractLsb'_append_eq_of_le (by omega), hflags]

/-- Settles O14: `Status.word` is the concatenation of its fields, so each field is a slice of it. -/
theorem statusWordLayout : Obligations.StatusWordLayout := by
  unfold Obligations.StatusWordLayout
  intro st
  obtain ⟨hbusy, hdone, herr, hempty⟩ := getLsbD_statusWord st
  refine ⟨hbusy, hdone, herr, hempty, ?_, ?_, ?_, ?_⟩
  · rw [extractLsb'_statusWord st _ (by decide)]
    exact BitVec.extractLsb'_append_eq_right
  · rw [extractLsb'_statusWord st _ (by decide), BitVec.extractLsb'_append_eq_of_le (by decide)]
    exact BitVec.extractLsb'_append_eq_right
  · rw [extractLsb'_statusWord st _ (by decide), BitVec.extractLsb'_append_eq_of_le (by decide),
      BitVec.extractLsb'_append_eq_of_le (by decide)]
    exact BitVec.extractLsb'_append_eq_right
  · rw [extractLsb'_statusWord st _ (by decide), BitVec.extractLsb'_append_eq_of_le (by decide),
      BitVec.extractLsb'_append_eq_of_le (by decide)]
    exact BitVec.extractLsb'_append_eq_left

end Sys2Proof.Machine
end

section
/-! What a command depends on (spec/10_state.md R13, R26; spec/20_memory.md R47). A state is laid over
with another status and other buffer contents; a command that finds its sources below their lengths as
they were does the same, and leaves what it was laid over with everywhere but in its destinations. -/

namespace Sys2Proof.Machine

/-- A status, and contents for the five sequence buffers and the arena. -/
structure Overlay where
  status : Status
  sin : Memory Nat
  sout : Memory Nat
  node : Memory NodeRec
  bits : Memory Bool
  bytes : Memory Byte
  tags : Memory TagRec

/-- `s` with the status and the contents of `o`. -/
def State.over (s : State) (o : Overlay) : State :=
  { s with status := o.status, sin := o.sin, sout := o.sout, node := o.node, bits := o.bits
           bytes := o.bytes, tags := o.tags }

/-- The status and the contents that `s` has. -/
def State.overlay (s : State) : Overlay :=
  { status := s.status, sin := s.sin, sout := s.sout, node := s.node, bits := s.bits
    bytes := s.bytes, tags := s.tags }

/-- `o` with the contents that `t` has in the entities `dests`. -/
def Overlay.rewritten (o : Overlay) (dests : List Entity) (t : State) : Overlay :=
  { o with sout := if .symbolSeq ∈ dests then t.sout else o.sout
           node := if .tree ∈ dests then t.node else o.node
           bits := if .bitSeq ∈ dests then t.bits else o.bits
           bytes := if .byteSeq ∈ dests then t.bytes else o.bytes
           tags := if .tagSeq ∈ dests then t.tags else o.tags }

/-- The contents of the destinations of `i` are as often replaced in `o` as in `s` (log 3). -/
structure SameGen (i : Instr) (s : State) (o : Overlay) : Prop where
  sout : .symbolSeq ∈ destinations i → o.sout.gen = s.sout.gen
  node : .tree ∈ destinations i → o.node.gen = s.node.gen
  bits : .bitSeq ∈ destinations i → o.bits.gen = s.bits.gen
  bytes : .byteSeq ∈ destinations i → o.bytes.gen = s.bytes.gen
  tags : .tagSeq ∈ destinations i → o.tags.gen = s.tags.gen

/-- Under `o` the entities that `i` can read are those of `s`: each buffer that is no destination of
`i` agrees below its length. -/
structure SameSources (i : Instr) (s : State) (o : Overlay) : Prop where
  sin : ∀ j < s.sinLen.toNat, (s.over o).sinAt j = s.sinAt j
  node : .tree ∉ destinations i → ∀ k < s.nnodes.toNat, (s.over o).nodeAt k = s.nodeAt k
  bits : .bitSeq ∉ destinations i → ∀ j < s.bitLen.toNat, (s.over o).bitAt j = s.bitAt j
  bytes : .byteSeq ∉ destinations i → ∀ j < s.byteLen.toNat, (s.over o).byteAt j = s.byteAt j
  tags : .tagSeq ∉ destinations i → ∀ j < s.tagLen.toNat, (s.over o).tagAt j = s.tagAt j

theorem rewrite_congr {α : Type} {m m' : Memory α} (h : m.gen = m'.gen) (xs : List α) :
    m.rewrite xs = m'.rewrite xs := by
  simp [Memory.rewrite, h]

theorem wipe_congr {α : Type} {m m' : Memory α} (h : m.gen = m'.gen) : m.wipe = m'.wipe := by
  simp [Memory.wipe, h]

/-! ### The computations read no more than the sources -/

theorem walkTree_congr {node node' : Nat → NodeRec} {count : Nat} (h : ∀ k < count, node k = node' k)
    (fuel k : Nat) (path : List Bool) :
    walkTree node count fuel k path = walkTree node' count fuel k path := by
  induction fuel generalizing k path with
  | zero => rfl
  | succ fuel ih =>
    by_cases hk : k < count
    · simp only [walkTree, h k hk, ih]
    · simp [walkTree, Nat.not_lt.1 hk]

theorem treeCodes_congr {node node' : Nat → NodeRec} {count : Nat} (h : ∀ k < count, node k = node' k)
    (root : Nat) : treeCodes node count root = treeCodes node' count root := by
  by_cases hr : root < count
  · simp only [treeCodes, h root hr, walkTree_congr h]
  · simp [treeCodes, Nat.not_lt.1 hr]

theorem packBits_congr {bit bit' : Nat → Bool} {m : Nat} (h : ∀ i < m, bit i = bit' i) :
    packBits bit m = packBits bit' m := by
  have hbit (i : Nat) : (decide (i < m) && bit i) = (decide (i < m) && bit' i) := by
    by_cases hi : i < m
    · rw [h i hi]
    · simp [hi]
  simp only [packBits, hbit]

theorem unpackBits_congr {byte byte' : Nat → Byte} {len : Nat} (h : ∀ j < len, byte j = byte' j) {m : Nat}
    (hm : m ≤ 8 * (len - 1)) : unpackBits byte m = unpackBits byte' m := by
  refine List.map_congr_left fun i hi => ?_
  have := List.mem_range.1 hi
  rw [h (1 + i / 8) (by omega)]

theorem sequence_congr {α : Type} {f g : Nat → α} {n : Nat} (h : ∀ j < n, f j = g j) :
    (List.range n).map f = (List.range n).map g :=
  List.map_congr_left fun j hj => h j (List.mem_range.1 hj)

/-! ### The bodies -/

section Bodies

variable (s : State) (o : Overlay)

@[simp] theorem over_cfg : (s.over o).cfg = s.cfg := rfl
@[simp] theorem over_win : (s.over o).win = s.win := rfl
@[simp] theorem over_sinLen : (s.over o).sinLen = s.sinLen := rfl
@[simp] theorem over_bitLen : (s.over o).bitLen = s.bitLen := rfl
@[simp] theorem over_byteLen : (s.over o).byteLen = s.byteLen := rfl
@[simp] theorem over_tagLen : (s.over o).tagLen = s.tagLen := rfl
@[simp] theorem over_nnodes : (s.over o).nnodes = s.nnodes := rfl
@[simp] theorem over_root : (s.over o).root = s.root := rfl
@[simp] theorem over_ft : (s.over o).ft = s.ft := rfl
@[simp] theorem over_codeRecAt : (s.over o).codeRecAt = s.codeRecAt := rfl
@[simp] theorem over_presentSymbols : (s.over o).presentSymbols = s.presentSymbols := rfl
@[simp] theorem over_leafNodes : leafNodes (s.over o) = leafNodes s := rfl

theorem writeFreqTable_over (m : Memory Nat) :
    writeFreqTable m (s.over o) = (writeFreqTable m s).over o := rfl

theorem writeCodeTable_over (codes : List (Nat × List Bool)) :
    writeCodeTable codes (s.over o) = (writeCodeTable codes s).over o := rfl

variable {s o}

theorem writeTree_over (hg : o.node.gen = s.node.gen) (nodes : List NodeRec) :
    writeTree nodes (s.over o) = (writeTree nodes s).over { o with node := (writeTree nodes s).node } := by
  rw [writeTree_node, ← rewrite_congr hg]
  rfl

theorem writeBits_over (hg : o.bits.gen = s.bits.gen) (bs : List Bool) :
    writeBits bs (s.over o) = (writeBits bs s).over { o with bits := (writeBits bs s).bits } := by
  rw [writeBits_bits, ← rewrite_congr hg]
  rfl

theorem writeBytes_over (hg : o.bytes.gen = s.bytes.gen) (bs : List Byte) :
    writeBytes bs (s.over o) = (writeBytes bs s).over { o with bytes := (writeBytes bs s).bytes } := by
  rw [writeBytes_bytes, ← rewrite_congr hg]
  rfl

theorem writeTags_over (hg : o.tags.gen = s.tags.gen) (ts : List TagRec) :
    writeTags ts (s.over o) = (writeTags ts s).over { o with tags := (writeTags ts s).tags } := by
  rw [writeTags_tags, ← rewrite_congr hg]
  rfl

theorem writeSymbols_over (hg : o.sout.gen = s.sout.gen) (xs : List Nat) :
    writeSymbols xs (s.over o) = (writeSymbols xs s).over { o with sout := (writeSymbols xs s).sout } := by
  rw [writeSymbols_sout, ← rewrite_congr hg]
  rfl

theorem emptyTree_over (hg : o.node.gen = s.node.gen) :
    emptyEntity (s.over o) .tree =
      (emptyEntity s .tree).over { o with node := (emptyEntity s .tree).node } := by
  rw [emptyTree_node, ← wipe_congr hg]
  rfl

theorem emptyBitSeq_over (hg : o.bits.gen = s.bits.gen) : emptyEntity (s.over o) .bitSeq =
    (emptyEntity s .bitSeq).over { o with bits := (emptyEntity s .bitSeq).bits } := by
  rw [emptyBitSeq_bits, ← wipe_congr hg]
  rfl

theorem emptyByteSeq_over (hg : o.bytes.gen = s.bytes.gen) : emptyEntity (s.over o) .byteSeq =
    (emptyEntity s .byteSeq).over { o with bytes := (emptyEntity s .byteSeq).bytes } := by
  rw [emptyByteSeq_bytes, ← wipe_congr hg]
  rfl

theorem emptyTagSeq_over (hg : o.tags.gen = s.tags.gen) : emptyEntity (s.over o) .tagSeq =
    (emptyEntity s .tagSeq).over { o with tags := (emptyEntity s .tagSeq).tags } := by
  rw [emptyTagSeq_tags, ← wipe_congr hg]
  rfl

theorem emptySymbolSeq_over (hg : o.sout.gen = s.sout.gen) : emptyEntity (s.over o) .symbolSeq =
    (emptyEntity s .symbolSeq).over { o with sout := (emptyEntity s .symbolSeq).sout } := by
  rw [emptySymbolSeq_sout, ← wipe_congr hg]
  rfl

theorem freqBody_over (hsin : ∀ j < s.sinLen.toNat, (s.over o).sinAt j = s.sinAt j) :
    freqBody (s.over o) = (freqBody s).map (·.over o) := by
  have hsym : (s.over o).inputSymbols = s.inputSymbols := sequence_congr hsin
  simp only [freqBody, hsym, over_cfg, over_sinLen, over_ft, writeFreqTable_over]
  split
  · rfl
  · rfl

theorem buildBody_over (hg : o.node.gen = s.node.gen) :
    buildBody (s.over o) = (buildBody s).map fun u => u.over { o with node := u.node } := by
  simp only [buildBody, over_leafNodes, writeTree_over hg]
  split
  · rfl
  · rfl

theorem codesBody_over (hnode : ∀ k < s.nnodes.toNat, (s.over o).nodeAt k = s.nodeAt k) :
    codesBody (s.over o) = (codesBody s).map (·.over o) := by
  simp only [codesBody, over_nnodes, over_root, treeCodes_congr hnode, writeCodeTable_over]
  split
  · rfl
  · split
    · rfl
    · rfl

theorem encBody_over (hsin : ∀ j < s.sinLen.toNat, (s.over o).sinAt j = s.sinAt j)
    (hg : o.bits.gen = s.bits.gen) :
    encBody (s.over o) = (encBody s).map fun u => u.over { o with bits := u.bits } := by
  have hsym : (s.over o).inputSymbols = s.inputSymbols := sequence_congr hsin
  simp only [encBody, hsym, over_cfg, over_sinLen, over_codeRecAt, writeBits_over hg]
  split
  · rfl
  · split
    · rfl
    · rfl

theorem nothingToEncode_over (hn : o.node.gen = s.node.gen) (hb : o.bits.gen = s.bits.gen) :
    nothingToEncode (s.over o) = (nothingToEncode s).over
      { o with node := (nothingToEncode s).node, bits := (nothingToEncode s).bits } := by
  show _ = (nothingToEncode s).over { o with node := s.node.wipe, bits := s.bits.wipe }
  rw [← wipe_congr hn, ← wipe_congr hb]
  rfl

/-- The four bodies of HENC in turn: each finds its sources as its own statement asks. -/
theorem hencBody_over (hsin : ∀ j < s.sinLen.toNat, (s.over o).sinAt j = s.sinAt j)
    (hn : o.node.gen = s.node.gen) (hb : o.bits.gen = s.bits.gen) :
    hencBody (s.over o) = (hencBody s).map fun u => u.over { o with node := u.node, bits := u.bits } := by
  unfold hencBody
  rw [freqBody_over hsin]
  cases h1 : freqBody s with
  | error e => rfl
  | ok s1 =>
    obtain ⟨-, e1⟩ := freqBody_cases h1
    have hn1 : o.node.gen = s1.node.gen := by rw [e1]; exact hn
    have hb1 : o.bits.gen = s1.bits.gen := by rw [e1]; exact hb
    simp only [Except.map]
    by_cases hp : s1.presentSymbols = []
    · rw [if_pos hp, if_pos (show (s1.over o).presentSymbols = [] from hp), nothingToEncode_over hn1 hb1]
    rw [if_neg hp, if_neg (show (s1.over o).presentSymbols ≠ [] from hp), buildBody_over hn1]
    cases h2 : buildBody s1 with
    | error e => rfl
    | ok s2 =>
      obtain ⟨-, e2⟩ := buildBody_cases h2
      simp only [Except.map]
      rw [codesBody_over fun _ _ => rfl]
      cases h3 : codesBody s2 with
      | error e => rfl
      | ok s3 =>
        obtain ⟨-, codes, e3⟩ := codesBody_cases h3
        have hsin3 : ∀ j < s3.sinLen.toNat,
            (s3.over { o with node := s2.node }).sinAt j = s3.sinAt j := by
          subst e3 e2 e1
          exact hsin
        have hb3 : o.bits.gen = s3.bits.gen := by
          subst e3 e2
          exact hb1
        simp only [Except.map]
        rw [encBody_over hsin3 hb3]
        cases h4 : encBody s3 with
        | error e => rfl
        | ok u =>
          obtain ⟨-, bs, -, e4⟩ := encBody_cases h4
          have hnode : u.node = s2.node := by rw [e4, e3]; rfl
          simp only [Except.map, hnode]

theorem packBody_over (hbits : ∀ j < s.bitLen.toNat, (s.over o).bitAt j = s.bitAt j)
    (hg : o.bytes.gen = s.bytes.gen) :
    packBody (s.over o) = (packBody s).map fun u => u.over { o with bytes := u.bytes } := by
  simp only [packBody, over_cfg, over_bitLen, packBits_congr hbits, writeBytes_over hg]
  split
  · rfl
  · rfl

theorem unpackBody_over (hbytes : ∀ j < s.byteLen.toNat, (s.over o).byteAt j = s.byteAt j)
    (hg : o.bits.gen = s.bits.gen) :
    unpackBody (s.over o) = (unpackBody s).map fun u => u.over { o with bits := u.bits } := by
  by_cases hlen : s.byteLen.toNat = 0
  · simp only [unpackBody, over_cfg, over_byteLen, hlen, if_true]
    split
    · rfl
    · rfl
  · have hheader : (s.over o).byteAt 0 = s.byteAt 0 := hbytes 0 (by omega)
    have hbits (k : Nat) := unpackBits_congr hbytes (Nat.sub_le (8 * (s.byteLen.toNat - 1)) k)
    simp only [unpackBody, over_cfg, over_byteLen, hheader, hbits, writeBits_over hg]
    split_ifs
    · rfl
    · rfl
    · rfl
    · rfl

theorem hdecBody_over (hbits : ∀ j < s.bitLen.toNat, (s.over o).bitAt j = s.bitAt j)
    (hg : o.sout.gen = s.sout.gen) :
    hdecBody (s.over o) = (hdecBody s).map fun u => u.over { o with sout := u.sout } := by
  have hseq : (s.over o).bitSequence = s.bitSequence := sequence_congr hbits
  simp only [hdecBody, hseq, over_cfg, over_bitLen, over_codeRecAt, writeSymbols_over hg]
  split
  · rfl
  · split
    · rfl
    · rfl

theorem lzcBody_over (hsin : ∀ j < s.sinLen.toNat, (s.over o).sinAt j = s.sinAt j)
    (hg : o.tags.gen = s.tags.gen) :
    lzcBody (s.over o) = (lzcBody s).map fun u => u.over { o with tags := u.tags } := by
  have hsym : (s.over o).inputSymbols = s.inputSymbols := sequence_congr hsin
  simp only [lzcBody, hsym, over_cfg, over_sinLen, over_win, writeTags_over hg]
  split_ifs
  · rfl
  · rfl
  · rfl

theorem lzdBody_over (htags : ∀ j < s.tagLen.toNat, (s.over o).tagAt j = s.tagAt j)
    (hg : o.sout.gen = s.sout.gen) :
    lzdBody (s.over o) = (lzdBody s).map fun u => u.over { o with sout := u.sout } := by
  have hseq : (s.over o).tagSequence = s.tagSequence := sequence_congr htags
  simp only [lzdBody, hseq, over_cfg, over_tagLen, writeSymbols_over hg]
  split
  · rfl
  · split
    · rfl
    · rfl

end Bodies

/-! ### The commands -/

section Commands

variable {i : Instr} {s : State} {o : Overlay}

/-- On the state laid over, a body does what it does on `s`; the contents of `o` stay, but for the
destinations. -/
theorem body_over (h : SameSources i s o) (hg : SameGen i s o) :
    bodyOf i (s.over o) = (bodyOf i s).map fun u => u.over (o.rewritten (destinations i) u) := by
  cases i
  case freq => exact freqBody_over h.sin
  case build => exact buildBody_over (hg.node (by decide))
  case codes => exact codesBody_over (h.node (by decide))
  case enc => exact encBody_over h.sin (hg.bits (by decide))
  case henc => exact hencBody_over h.sin (hg.node (by decide)) (hg.bits (by decide))
  case pack => exact packBody_over (h.bits (by decide)) (hg.bytes (by decide))
  case unpack => exact unpackBody_over (h.bytes (by decide)) (hg.bits (by decide))
  case hdec => exact hdecBody_over (h.bits (by decide)) (hg.sout (by decide))
  case lzc => exact lzcBody_over h.sin (hg.tags (by decide))
  case lzd => exact lzdBody_over (h.tags (by decide)) (hg.sout (by decide))
  all_goals rfl

theorem emptyEntities_over (hg : SameGen i s o) :
    emptyEntities (destinations i) (s.over o) = (emptyEntities (destinations i) s).over
      (o.rewritten (destinations i) (emptyEntities (destinations i) s)) := by
  cases i
  case build => exact emptyTree_over (hg.node (by decide))
  case enc | unpack => exact emptyBitSeq_over (hg.bits (by decide))
  case henc =>
    have hn : o.node.gen = s.node.gen := hg.node (by decide)
    have hb : o.bits.gen = s.bits.gen := hg.bits (by decide)
    show emptyEntity (emptyEntity (emptyEntity
      ((emptyEntity s .freqTable).over o) .tree) .codeTable) .bitSeq = _
    rw [emptyTree_over (s := emptyEntity s .freqTable) hn]
    exact emptyBitSeq_over (s := emptyEntity (emptyEntity (emptyEntity s .freqTable) .tree) .codeTable)
      (o := { o with node := s.node.wipe }) hb
  case pack => exact emptyByteSeq_over (hg.bytes (by decide))
  case lzc => exact emptyTagSeq_over (hg.tags (by decide))
  case hdec | lzd => exact emptySymbolSeq_over (hg.sout (by decide))
  all_goals rfl

/-- Of the status only `OP` counts where a command completes. -/
theorem completeCommand_over (hop : o.status.op = s.status.op) (empty : Bool) :
    completeCommand empty (s.over o) =
      (completeCommand empty s).over { o with status := (completeCommand empty s).status } := by
  have hstatus : o.status.completed empty = s.status.completed empty := by simp only [Status.completed, hop]
  rw [completeCommand_status, ← hstatus]
  rfl

/-- Of the status only `OP` counts where a command aborts. -/
theorem raiseError_over (hg : SameGen i s o) (hop : o.status.op = s.status.op) (e : CmdError) :
    raiseError (destinations i) e (s.over o) = (raiseError (destinations i) e s).over
      { o.rewritten (destinations i) (raiseError (destinations i) e s) with
        status := (raiseError (destinations i) e s).status } := by
  have hstatus : o.status.aborted e = s.status.aborted e := by simp only [Status.aborted, hop]
  rw [raiseError_status, ← hstatus, raiseError, emptyEntities_over hg]
  rfl

theorem primarySourceEmpty_over : primarySourceEmpty i (s.over o) = primarySourceEmpty i s := by
  cases i <;> rfl

/-- A command does on the state laid over what it does on `s`: the status it ends with is the same, and
the contents of `o` stay, but for the destinations. -/
theorem exec_over (h : SameSources i s o) (hg : SameGen i s o) (hop : o.status.op = s.status.op) :
    exec i (s.over o) = mapNext
      (fun t => t.over { o.rewritten (destinations i) t with status := t.status }) (exec i s) := by
  rw [exec_eq_finishCommand, exec_eq_finishCommand, body_over h hg, primarySourceEmpty_over]
  cases hb : bodyOf i s with
  | ok u =>
    have hopu : o.status.op = u.status.op := by rw [hop, (body_changes hb).status]
    exact congrArg Host.Outcome.next
      (completeCommand_over (s := u) (o := o.rewritten (destinations i) u) hopu _)
  | error stop =>
    cases stop with
    | fault f => rfl
    | raised e => exact congrArg Host.Outcome.next (raiseError_over hg hop e)

/-- What a command leaves is what it found, but for its destinations and the status. -/
theorem over_rewritten_overlay {t : State} (h : exec i s = .next t) :
    t.over { s.overlay.rewritten (destinations i) t with status := t.status } = t := by
  obtain ⟨⟨-, -, -, hsin, -⟩, hkept⟩ := exec_kept h
  have hsout : (if .symbolSeq ∈ destinations i then t.sout else s.sout) = t.sout :=
    ite_eq_left_iff.2 fun hd => (hkept _ hd).2.1.symm
  have hnode : (if .tree ∈ destinations i then t.node else s.node) = t.node :=
    ite_eq_left_iff.2 fun hd => (hkept _ hd).2.2.1.symm
  have hbits : (if .bitSeq ∈ destinations i then t.bits else s.bits) = t.bits :=
    ite_eq_left_iff.2 fun hd => (hkept _ hd).2.1.symm
  have hbytes : (if .byteSeq ∈ destinations i then t.bytes else s.bytes) = t.bytes :=
    ite_eq_left_iff.2 fun hd => (hkept _ hd).2.1.symm
  have htags : (if .tagSeq ∈ destinations i then t.tags else s.tags) = t.tags :=
    ite_eq_left_iff.2 fun hd => (hkept _ hd).2.1.symm
  simp only [State.over, State.overlay, Overlay.rewritten, ← hsin, hsout, hnode, hbits, hbytes, htags]

theorem mapNext_congr {f g : State → State} {r : Host.Outcome State Fault Refusal}
    (h : ∀ t, r = .next t → f t = g t) : mapNext f r = mapNext g r := by
  cases r with
  | next t => exact congrArg Host.Outcome.next (h t rfl)
  | fault _ => rfl
  | refused _ => rfl

@[simp] theorem mapNext_id (r : Host.Outcome State Fault Refusal) : mapNext (fun t => t) r = r := by
  cases r <;> rfl

/-- `f` says what laying `o` over the outcome changes in it. -/
theorem exec_over_eq_mapNext {f : State → State} (h : SameSources i s o) (hg : SameGen i s o)
    (hop : o.status.op = s.status.op)
    (hf : ∀ t : State, t.over { o.rewritten (destinations i) t with status := t.status } =
      f (t.over { s.overlay.rewritten (destinations i) t with status := t.status })) :
    exec i (s.over o) = mapNext f (exec i s) := by
  rw [exec_over h hg hop]
  refine mapNext_congr fun t ht => ?_
  rw [hf, over_rewritten_overlay ht]

theorem sameSources_overlay (i : Instr) (s : State) : SameSources i s s.overlay where
  sin _ _ := rfl
  node _ _ _ := rfl
  bits _ _ _ := rfl
  bytes _ _ _ := rfl
  tags _ _ _ := rfl

theorem sameGen_overlay (i : Instr) (s : State) : SameGen i s s.overlay where
  sout _ := rfl
  node _ := rfl
  bits _ := rfl
  bytes _ := rfl
  tags _ := rfl

/-- Settles O20: `st` is laid over `s` and nothing else. -/
theorem commandsReadNoFlag : Obligations.CommandsReadNoFlag := by
  unfold Obligations.CommandsReadNoFlag
  intro i s st hop
  have h := exec_over_eq_mapNext (f := fun t => t) (o := { s.overlay with status := st })
    { sameSources_overlay i s with } { sameGen_overlay i s with } hop fun _ => rfl
  exact h.trans (mapNext_id _)

theorem exec_with_sin {m : Memory Nat} (h : ∀ j < s.sinLen.toNat, ({ s with sin := m }).sinAt j = s.sinAt j) :
    exec i { s with sin := m } = mapNext (fun t => { t with sin := m }) (exec i s) :=
  exec_over_eq_mapNext (o := { s.overlay with sin := m })
    { sameSources_overlay i s with sin := h } { sameGen_overlay i s with } rfl fun _ => rfl

theorem exec_with_sout_kept {m : Memory Nat} (hd : Entity.symbolSeq ∉ destinations i) :
    exec i { s with sout := m } = mapNext (fun t => { t with sout := m }) (exec i s) :=
  exec_over_eq_mapNext (o := { s.overlay with sout := m }) { sameSources_overlay i s with }
    { sameGen_overlay i s with sout := fun h => absurd h hd } rfl fun t => by
    simp only [State.over, Overlay.rewritten, hd, if_false]

theorem exec_with_sout_replaced {m : Memory Nat} (hd : Entity.symbolSeq ∈ destinations i)
    (hg : m.gen = s.sout.gen) : exec i { s with sout := m } = exec i s :=
  (exec_over_eq_mapNext (o := { s.overlay with sout := m }) { sameSources_overlay i s with }
    { sameGen_overlay i s with sout := fun _ => hg } rfl fun t => by
    simp only [State.over, Overlay.rewritten, hd, if_true]).trans (mapNext_id _)

theorem exec_with_bits_kept {m : Memory Bool} (hd : Entity.bitSeq ∉ destinations i)
    (h : ∀ j < s.bitLen.toNat, ({ s with bits := m }).bitAt j = s.bitAt j) :
    exec i { s with bits := m } = mapNext (fun t => { t with bits := m }) (exec i s) :=
  exec_over_eq_mapNext (o := { s.overlay with bits := m }) { sameSources_overlay i s with bits := fun _ => h }
    { sameGen_overlay i s with bits := fun h => absurd h hd } rfl fun t => by
    simp only [State.over, Overlay.rewritten, hd, if_false]

theorem exec_with_bits_replaced {m : Memory Bool} (hd : Entity.bitSeq ∈ destinations i)
    (hg : m.gen = s.bits.gen) : exec i { s with bits := m } = exec i s :=
  (exec_over_eq_mapNext (o := { s.overlay with bits := m })
    { sameSources_overlay i s with bits := fun h => absurd hd h }
    { sameGen_overlay i s with bits := fun _ => hg } rfl fun t => by
    simp only [State.over, Overlay.rewritten, hd, if_true]).trans (mapNext_id _)

theorem exec_with_bytes_kept {m : Memory Byte} (hd : Entity.byteSeq ∉ destinations i)
    (h : ∀ j < s.byteLen.toNat, ({ s with bytes := m }).byteAt j = s.byteAt j) :
    exec i { s with bytes := m } = mapNext (fun t => { t with bytes := m }) (exec i s) :=
  exec_over_eq_mapNext (o := { s.overlay with bytes := m }) { sameSources_overlay i s with bytes := fun _ => h }
    { sameGen_overlay i s with bytes := fun h => absurd h hd } rfl fun t => by
    simp only [State.over, Overlay.rewritten, hd, if_false]

theorem exec_with_bytes_replaced {m : Memory Byte} (hd : Entity.byteSeq ∈ destinations i)
    (hg : m.gen = s.bytes.gen) : exec i { s with bytes := m } = exec i s :=
  (exec_over_eq_mapNext (o := { s.overlay with bytes := m })
    { sameSources_overlay i s with bytes := fun h => absurd hd h }
    { sameGen_overlay i s with bytes := fun _ => hg } rfl fun t => by
    simp only [State.over, Overlay.rewritten, hd, if_true]).trans (mapNext_id _)

theorem exec_with_tags_kept {m : Memory TagRec} (hd : Entity.tagSeq ∉ destinations i)
    (h : ∀ j < s.tagLen.toNat, ({ s with tags := m }).tagAt j = s.tagAt j) :
    exec i { s with tags := m } = mapNext (fun t => { t with tags := m }) (exec i s) :=
  exec_over_eq_mapNext (o := { s.overlay with tags := m }) { sameSources_overlay i s with tags := fun _ => h }
    { sameGen_overlay i s with tags := fun h => absurd h hd } rfl fun t => by
    simp only [State.over, Overlay.rewritten, hd, if_false]

theorem exec_with_tags_replaced {m : Memory TagRec} (hd : Entity.tagSeq ∈ destinations i)
    (hg : m.gen = s.tags.gen) : exec i { s with tags := m } = exec i s :=
  (exec_over_eq_mapNext (o := { s.overlay with tags := m })
    { sameSources_overlay i s with tags := fun h => absurd hd h }
    { sameGen_overlay i s with tags := fun _ => hg } rfl fun t => by
    simp only [State.over, Overlay.rewritten, hd, if_true]).trans (mapNext_id _)

theorem exec_with_node_kept {m : Memory NodeRec} (hd : Entity.tree ∉ destinations i)
    (h : ∀ k < s.nnodes.toNat, ({ s with node := m }).nodeAt k = s.nodeAt k) :
    exec i { s with node := m } = mapNext (fun t => { t with node := m }) (exec i s) :=
  exec_over_eq_mapNext (o := { s.overlay with node := m }) { sameSources_overlay i s with node := fun _ => h }
    { sameGen_overlay i s with node := fun h => absurd h hd } rfl fun t => by
    simp only [State.over, Overlay.rewritten, hd, if_false]

theorem exec_with_node_replaced {m : Memory NodeRec} (hd : Entity.tree ∈ destinations i)
    (hg : m.gen = s.node.gen) : exec i { s with node := m } = exec i s :=
  (exec_over_eq_mapNext (o := { s.overlay with node := m })
    { sameSources_overlay i s with node := fun h => absurd hd h }
    { sameGen_overlay i s with node := fun _ => hg } rfl fun t => by
    simp only [State.over, Overlay.rewritten, hd, if_true]).trans (mapNext_id _)

end Commands

/-- Settles O21: each of the six buffers is laid over `s` alone. -/
theorem elementsBeyondLengthAreIgnored : Obligations.ElementsBeyondLengthAreIgnored := by
  unfold Obligations.ElementsBeyondLengthAreIgnored
  exact ⟨fun s m h i => exec_with_sin h,
    fun s m i => ⟨exec_with_sout_kept, exec_with_sout_replaced⟩,
    fun s m i => ⟨fun h hd => exec_with_bits_kept hd h, exec_with_bits_replaced⟩,
    fun s m i => ⟨fun h hd => exec_with_bytes_kept hd h, exec_with_bytes_replaced⟩,
    fun s m i => ⟨fun h hd => exec_with_tags_kept hd h, exec_with_tags_replaced⟩,
    fun s m i => ⟨fun h hd => exec_with_node_kept hd h, exec_with_node_replaced⟩⟩

end Sys2Proof.Machine
end

section
/-! A step that completes a command, and that no state of the block is stuck: the walk of CODES, the one
place where the model could stop, ends in every well-formed tree (spec/20_memory.md R52,
spec/70_reset_and_hazards.md R171; log 9). -/

namespace Sys2Proof.Machine

variable {s : State}

/-! ### The completion step -/

/-- The event `complete` is the completion event of R52. -/
theorem step_of_complete {rest : List Event} (h : s.inputs = .complete :: rest) :
    step s = runCommand { s with inputs := rest } := by
  simp only [step, advance, h]

/-- So is the end of the events (log 5). -/
theorem step_of_no_event (h : s.inputs = []) : step s = runCommand s := by
  simp only [step, advance, h]

theorem runCommand_of_busy (h : s.status.busy = true) : runCommand s = exec (decode s.cmdLatch) s := by
  simp only [runCommand, h, if_true, currentInstr]

theorem runCommand_of_idle (h : s.status.busy = false) : runCommand s = .next s := by
  simp only [runCommand, h, Bool.false_eq_true, if_false]

theorem withFetchWord_32 (s : State) (w : Nat) : s.withFetchWord 32 w = loadCommand (BitVec.ofNat 32 w) s := by
  have hw : BitVec.ofNat 32 (w % 2 ^ 32) = BitVec.ofNat 32 w := BitVec.eq_of_toNat_eq (by simp)
  rw [State.withFetchWord, hw]

/-- Settles O5: while busy the next event is the completion, in whichever of its forms it comes. -/
theorem stepRunsDecodedCommand : Obligations.StepRunsDecodedCommand := by
  unfold Obligations.StepRunsDecodedCommand
  refine ⟨fun s rest hb hi => ?_, fun s hb hi => ?_, fun s w => ?_⟩
  · rw [step_of_complete hi]
    exact runCommand_of_busy (s := { s with inputs := rest }) hb
  · rw [step_of_no_event hi, runCommand_of_busy hb]
  · rw [withFetchWord_32, step_of_complete (rest := s.inputs) rfl]
    exact runCommand_of_busy (s := acceptCommand (BitVec.ofNat 32 w) s) rfl

/-! ### No fault -/

section NoFault

variable {f : Fault}

theorem freqBody_ne_fault : freqBody s ≠ .error (.fault f) := fun h => by
  unfold freqBody at h
  split at h <;> cases h

theorem buildBody_ne_fault : buildBody s ≠ .error (.fault f) := fun h => by
  unfold buildBody at h
  split at h <;> cases h

/-- The walk ends: R21 makes the arena a tree. -/
theorem codesBody_ne_fault (ht : s.treeOk) : codesBody s ≠ .error (.fault f) := fun h => by
  by_cases hn : s.nnodes = 0
  · rw [codesBody, if_pos hn] at h
    cases h
  · obtain ⟨codes, hc, -⟩ := codesBody_ok ht hn
    cases hc.symm.trans h

theorem encScan_ne_fault {ct : Nat → CodeRec} {cap j m : Nat} {S : List Nat} :
    encScan ct cap j m S ≠ .error (.fault f) := fun h => by
  obtain ⟨bs, hs⟩ | ⟨k, i, -, hs⟩ := encScan_cases (ct := ct) (cap := cap) j m S <;> cases hs.symm.trans h

theorem encBody_ne_fault : encBody s ≠ .error (.fault f) := fun h => by
  unfold encBody at h
  split at h
  · cases h
  · split at h
    · cases h
    · next e he =>
      cases h
      exact encScan_ne_fault he

/-- The tree that the CODES of HENC walks over is the one its BUILD has just made (R86, R98). -/
theorem hencBody_ne_fault (hd : s.dataOk) : hencBody s ≠ .error (.fault f) := fun h => by
  unfold hencBody at h
  split at h
  · next e he =>
    cases h
    exact freqBody_ne_fault he
  · next s1 h1 =>
    have d1 : s1.dataOk := dataOk_body (i := .freq) hd h1
    split at h
    · cases h
    · split at h
      · next e he =>
        cases h
        exact buildBody_ne_fault he
      · next s2 h2 =>
        obtain ⟨-, -, -, -, htree⟩ : s2.dataOk := dataOk_body (i := .build) d1 h2
        split at h
        · next e he =>
          cases h
          exact codesBody_ne_fault htree he
        · exact encBody_ne_fault h

theorem packBody_ne_fault : packBody s ≠ .error (.fault f) := fun h => by
  unfold packBody at h
  split at h <;> cases h

theorem unpackBody_ne_fault : unpackBody s ≠ .error (.fault f) := fun h => by
  unfold unpackBody at h
  split_ifs at h <;> cases h

theorem hdecBody_ne_fault : hdecBody s ≠ .error (.fault f) := fun h => by
  unfold hdecBody at h
  split at h
  · cases h
  · split at h
    · cases h
    · next e he =>
      cases h
      obtain ⟨o, hs⟩ | ⟨k, n, -, hs⟩ := hdecScan_cases (ct := s.codeRecAt) (count := s.cfg.alphabet)
        (cap := s.cfg.nMax) 0 0 [] [] s.bitSequence <;> cases hs.symm.trans he

theorem lzcBody_ne_fault : lzcBody s ≠ .error (.fault f) := fun h => by
  unfold lzcBody at h
  split_ifs at h <;> cases h

theorem lzdBody_ne_fault : lzdBody s ≠ .error (.fault f) := fun h => by
  unfold lzdBody at h
  split at h
  · cases h
  · split at h
    · cases h
    · next e he =>
      cases h
      obtain ⟨o, hs⟩ | ⟨k, n, -, hs⟩ := lzdScan_cases s.cfg.nMax 0 [] s.tagSequence <;>
        cases hs.symm.trans he

theorem body_ne_fault (hd : s.dataOk) (i : Instr) : bodyOf i s ≠ .error (.fault f) := by
  cases i
  case freq => exact freqBody_ne_fault
  case build => exact buildBody_ne_fault
  case codes =>
    obtain ⟨-, -, -, -, htree⟩ := hd
    exact codesBody_ne_fault htree
  case enc => exact encBody_ne_fault
  case henc => exact hencBody_ne_fault hd
  case pack => exact packBody_ne_fault
  case unpack => exact unpackBody_ne_fault
  case hdec => exact hdecBody_ne_fault
  case lzc => exact lzcBody_ne_fault
  case lzd => exact lzdBody_ne_fault
  all_goals exact fun h => by cases h

end NoFault

/-- A command ends in completion or abort: the third end of a body does not occur. -/
theorem exec_answers (h : s.dataOk) (i : Instr) : ∃ t, exec i s = .next t := by
  rw [exec_eq_finishCommand]
  match hb : bodyOf i s with
  | .ok u => exact ⟨_, rfl⟩
  | .error (.raised e) => exact ⟨_, rfl⟩
  | .error (.fault f) => exact absurd hb (body_ne_fault h i)

theorem runCommand_answers (h : s.dataOk) : ∃ t, runCommand s = .next t := by
  cases hb : s.status.busy
  · exact ⟨s, runCommand_of_idle hb⟩
  · rw [runCommand_of_busy hb]
    exact exec_answers h _

/-- Settles O19: host events always answer, and a completion does because no body stops the model in a
state of the block. -/
theorem stepNeverStops : Obligations.StepNeverStops := by
  unfold Obligations.StepNeverStops
  intro s h
  have hd : s.dataOk := ((inv_iff s).1 h).1
  match hi : s.inputs with
  | [] =>
    rw [step_of_no_event hi]
    exact runCommand_answers hd
  | e :: rest =>
    by_cases hc : e = .complete
    · subst hc
      rw [step_of_complete hi]
      exact runCommand_answers (s := { s with inputs := rest }) hd
    · exact ⟨_, step_of_event hi hc⟩

end Sys2Proof.Machine
end

section
/-! The frames of the commands (spec/20_memory.md R47). -/

namespace Sys2Proof.Machine

/-- Settles O22: what `exec_kept` says of every instruction, for the commands that make the tables. -/
theorem tableCommandsFrame : Obligations.TableCommandsFrame := by
  unfold Obligations.TableCommandsFrame
  exact fun _ _ _ _ h => exec_kept h

/-- Settles O23: `exec_kept`, for the commands on bits, bytes and codes. -/
theorem streamCommandsFrame : Obligations.StreamCommandsFrame := by
  unfold Obligations.StreamCommandsFrame
  exact fun _ _ _ _ h => exec_kept h

/-- Settles O24: `exec_kept`, for the commands on tags. -/
theorem lz77CommandsFrame : Obligations.Lz77CommandsFrame := by
  unfold Obligations.Lz77CommandsFrame
  exact fun _ _ _ _ h => exec_kept h

end Sys2Proof.Machine
end

section
/-! The host operations (spec/20_memory.md R44): what each can do in an idle and in a busy block, where it
names nothing, and what none of them writes (R45, R46, R49). -/

namespace Sys2Proof.Machine

variable (s : State)

/-! ### Reads -/

theorem hostRegRead_of_specified {n : Nat} {v : Word} (h : readRegister? n s = some v) :
    hostRegRead n s = { s with lastRead := .reg v } := by
  simp only [hostRegRead, h]

/-- A register read returns some value and changes nothing else but the model's own counter (log 4). -/
theorem hostRegRead_cases (n : Nat) :
    ∃ v k, hostRegRead n s = { s with lastRead := .reg v, readCount := k } := by
  unfold hostRegRead
  split
  · exact ⟨_, s.readCount, rfl⟩
  · exact ⟨_, _, rfl⟩

/-- So does a buffer read. -/
theorem hostBufRead_cases (b : Space) (i : Nat) :
    ∃ v k, hostBufRead b i s = { s with lastRead := .elem v, readCount := k } := by
  unfold hostBufRead
  split
  · exact ⟨_, s.readCount, rfl⟩
  · exact ⟨_, _, rfl⟩

variable {s}

theorem hostBufRead_idle (h : s.status.busy = false) {b : Space} {i : Nat} (hi : i < b.capacity s.cfg) :
    hostBufRead b i s = { s with lastRead := .elem (elementValue b i s) } := by
  rw [hostBufRead, if_pos ⟨h, hi⟩]

/-! ### Writes -/

theorem hostRegWrite_busy (h : s.status.busy = true) (n : Nat) (v : Word) : hostRegWrite n v s = s := by
  rw [hostRegWrite, if_pos h]

theorem hostBufWrite_busy (h : s.status.busy = true) (b : Space) (i v : Nat) : hostBufWrite b i v s = s := by
  rw [hostBufWrite, if_neg (by simp [h])]

theorem hostBufWrite_idle (h : s.status.busy = false) {b : Space} {i : Nat} (hi : i < b.capacity s.cfg)
    (v : Nat) : hostBufWrite b i v s = writeElement b i v s := by
  rw [hostBufWrite, if_pos ⟨h, hi⟩]

/-- The registers a write ignores (R45, R49). -/
theorem writeRegister_ignored {n : Nat} (h : 10 < n ∨ n ∈ [1, 2, 5, 9, 10]) (v : Word) :
    writeRegister n v s = s := by
  simp only [List.mem_cons, List.not_mem_nil, or_false] at h
  unfold writeRegister
  split
  case h_7 => rfl
  all_goals omega

theorem hostRegWrite_ignored {n : Nat} (h : 10 < n ∨ n ∈ [1, 2, 5, 9, 10]) (v : Word) :
    hostRegWrite n v s = s := by
  unfold hostRegWrite
  split
  · rfl
  · exact writeRegister_ignored h v

/-- The elements a write ignores (R45, R49). -/
theorem hostBufWrite_ignored {b : Space} {i : Nat} (h : b.capacity s.cfg ≤ i ∨ b = .sout ∨ b = .node)
    (v : Nat) : hostBufWrite b i v s = s := by
  unfold hostBufWrite
  split
  · next hi =>
    rcases h with h | rfl | rfl
    · omega
    · rfl
    · rfl
  · rfl

/-! ### While busy (R46) -/

/-- `REG.STATUS` of a running command: `BUSY` and the opcode `v[3:0]` (R15). -/
theorem word_accepted (v : Word) : (Status.accepted v).word = 0#16 ++ v.extractLsb' 0 4 ++ 1#12 := by
  have layout : ∀ op : BitVec 4, ({ Status.cleared with busy := true, op := op } : Status).word =
      0#16 ++ op ++ 1#12 := by decide
  rw [← BitVec.setWidth_eq_extractLsb' (by decide)]
  exact layout _

/-- Settles O7: a busy block ignores writes, and its status is that of the accepted command. -/
theorem busyHostAccess : Obligations.BusyHostAccess := by
  unfold Obligations.BusyHostAccess
  intro s rest hb hs
  obtain ⟨hstatus, herr⟩ := hs.1 hb
  refine ⟨fun n v hi => ?_, fun b i v hi => ?_, fun hi => ?_, fun hi => ?_, fun n _ _ hi => ?_,
    fun b i hi => ?_⟩ <;> rw [step_of_event hi (by simp), hostEvent]
  · rw [hostRegWrite_busy (by exact hb)]
  · rw [hostBufWrite_busy (by exact hb)]
  · rw [hostRegRead_of_specified _ rfl, hstatus, word_accepted]
  · rw [hostRegRead_of_specified _ rfl, herr]
  · obtain ⟨v, k, e⟩ := hostRegRead_cases { s with inputs := rest } n
    exact ⟨v, k, by rw [e]⟩
  · obtain ⟨v, k, e⟩ := hostBufRead_cases { s with inputs := rest } b i
    exact ⟨v, k, by rw [e]⟩

/-! ### Accesses that name nothing (R45) -/

/-- Cutting `v` to `W` bits leaves the fields below `W`. -/
theorem fieldOf_mod {lo w W : Nat} (h : lo + w ≤ W) (v : Nat) : fieldOf (v % 2 ^ W) lo w = fieldOf v lo w := by
  refine Nat.eq_of_testBit_eq fun k => ?_
  simp only [fieldOf, Nat.testBit_mod_two_pow, Nat.testBit_div_two_pow]
  by_cases hk : k < w
  · simp [show k + lo < W by omega]
  · simp [hk]

theorem unpackCode_mod (p : Params) (v : Nat) : unpackCode p (v % 2 ^ Space.ct.width p) = unpackCode p v := by
  have hlen := fieldOf_mod (lo := 0) (w := p.clenW) (W := Space.ct.width p) (by simp [Space.width]) v
  have hbits := fieldOf_mod (lo := p.clenW) (w := p.codeMax) (W := Space.ct.width p) le_rfl v
  simp only [fieldOf, Nat.pow_zero, Nat.div_one] at hlen hbits
  simp only [unpackCode, hlen, hbits]

theorem unpackTag_mod (p : Params) (v : Nat) : unpackTag p (v % 2 ^ Space.tags.width p) = unpackTag p v := by
  have hw : Space.tags.width p = 2 * p.idxW + 1 + p.symW := rfl
  have hdist := fieldOf_mod (lo := 0) (w := p.idxW) (W := Space.tags.width p) (by omega) v
  have hlen := fieldOf_mod (lo := p.idxW) (w := p.idxW) (W := Space.tags.width p) (by omega) v
  have hlit := fieldOf_mod (lo := 2 * p.idxW + 1) (w := p.symW) (W := Space.tags.width p) (by omega) v
  have hflag : (v % 2 ^ Space.tags.width p).testBit (2 * p.idxW) = v.testBit (2 * p.idxW) := by
    simp [Nat.testBit_mod_two_pow, show 2 * p.idxW < Space.tags.width p by omega]
  simp only [fieldOf, Nat.pow_zero, Nat.div_one] at hdist hlen hlit
  simp only [unpackTag, hdist, hlen, hflag, hlit]

/-- A written value is taken to have the element's width (R45). -/
theorem writeElement_mod (b : Space) (i v : Nat) :
    writeElement b i (v % 2 ^ b.width s.cfg) s = writeElement b i v s := by
  cases b with
  | sin | ft => simp only [writeElement, Space.width, Nat.mod_mod]
  | ct => simp only [writeElement, unpackCode_mod]
  | bits => simp [writeElement, Space.width]
  | bytes =>
    have : BitVec.ofNat 8 (v % 2 ^ 8) = BitVec.ofNat 8 v := BitVec.eq_of_toNat_eq (by simp)
    simp only [writeElement, Space.width, this]
  | tags => simp only [writeElement, unpackTag_mod]
  | sout | node | absent k => rfl

theorem hostBufWrite_mod (b : Space) (i v : Nat) :
    hostBufWrite b i (v % 2 ^ b.width s.cfg) s = hostBufWrite b i v s := by
  unfold hostBufWrite
  rw [writeElement_mod]

/-- Settles O8: each access is one host event, and the block ignores it or answers a read alone. -/
theorem accessesThatNameNothing : Obligations.AccessesThatNameNothing := by
  unfold Obligations.AccessesThatNameNothing
  intro s rest
  have write : ∀ b i v, b.capacity s.cfg ≤ i ∨ b = .sout ∨ b = .node →
      s.inputs = .bufWrite b i v :: rest → step s = .next { s with inputs := rest } := fun b i v h hi => by
    rw [step_of_event hi (by simp), hostEvent, hostBufWrite_ignored (by exact h)]
  have read : ∀ b i, s.inputs = .bufRead b i :: rest →
      ∃ v k, step s = .next { s with inputs := rest, lastRead := .elem v, readCount := k } := fun b i hi => by
    obtain ⟨v, k, e⟩ := hostBufRead_cases { s with inputs := rest } b i
    exact ⟨v, k, by rw [step_of_event hi (by simp), hostEvent, e]⟩
  refine ⟨fun n v h hi => ?_, write, fun k i v => write _ i v (.inl (Nat.zero_le i)), fun n _ hi => ?_,
    fun b i _ => read b i, fun k i => read _ i, fun hi => ?_, fun b i v => ?_⟩
  · rw [step_of_event hi (by simp), hostEvent, hostRegWrite_ignored h]
  · obtain ⟨v, k, e⟩ := hostRegRead_cases { s with inputs := rest } n
    exact ⟨v, k, by rw [step_of_event hi (by simp), hostEvent, e]⟩
  · rw [step_of_event hi (by simp), hostEvent, hostRegRead_of_specified _ rfl]
  · rw [step_of_event rfl (by simp), step_of_event rfl (by simp), hostEvent, hostEvent]
    exact congrArg _ (hostBufWrite_mod (s := { s with inputs := rest }) b i v).symm

end Sys2Proof.Machine
end

section
/-! An element written reads back and no other changes (spec/20_memory.md R43, R44), and what the host can
never write (R49). -/

namespace Sys2Proof.Machine

variable {s : State} {i j : Nat}

/-! ### An element after one element of its buffer was written -/

theorem getD_get?_set {α : Type} [DecidableEq α] (m : Memory α) (a d : α) :
    ((m.set i a).get? j).getD d = if j = i then a else (m.get? j).getD d := by
  rw [get?_set]
  split <;> rfl

theorem sinAt_set (a : Nat) :
    ({ s with sin := s.sin.set i a } : State).sinAt j = if j = i then a else s.sinAt j :=
  getD_get?_set ..

theorem countAt_set (n : Nat) :
    ({ s with ft := s.ft.set i n } : State).countAt j = if j = i then n else s.countAt j :=
  getD_get?_set ..

theorem codeRecAt_set (r : CodeRec) :
    ({ s with ct := s.ct.set i r } : State).codeRecAt j = if j = i then r else s.codeRecAt j :=
  getD_get?_set ..

theorem bitAt_set (b : Bool) :
    ({ s with bits := s.bits.set i b } : State).bitAt j = if j = i then b else s.bitAt j :=
  getD_get?_set ..

theorem byteAt_set (b : Byte) :
    ({ s with bytes := s.bytes.set i b } : State).byteAt j = if j = i then b else s.byteAt j :=
  getD_get?_set ..

theorem tagAt_set (t : TagRec) :
    ({ s with tags := s.tags.set i t } : State).tagAt j = if j = i then t else s.tagAt j :=
  getD_get?_set ..

/-- A value of the element's width, written, is what the element reads as (R44). -/
theorem elementValue_writeElement_same {b : Space} {v : Nat}
    (hb : b ∈ [Space.sin, .ft, .ct, .bits, .bytes, .tags]) (hv : v < 2 ^ b.width s.cfg) :
    elementValue b i (writeElement b i v s) = v := by
  cases b with
  | sin =>
    simp only [elementValue, writeElement, sinAt_set, if_true]
    exact Nat.mod_eq_of_lt hv
  | ft =>
    simp only [elementValue, writeElement, countAt_set, if_true]
    exact Nat.mod_eq_of_lt hv
  | ct => simp only [elementValue, writeElement, codeRecAt_set, if_true, packCode_unpackCode hv]
  | bits =>
    simp only [elementValue, writeElement, bitAt_set, if_true]
    have h2 : v < 2 := hv
    interval_cases v <;> rfl
  | bytes =>
    simp only [elementValue, writeElement, byteAt_set, if_true, BitVec.toNat_ofNat]
    exact Nat.mod_eq_of_lt hv
  | tags => simp only [elementValue, writeElement, tagAt_set, if_true, packTag_unpackTag hv]
  | sout | node | absent k => simp at hb

/-- Every other element of every buffer reads as before: each buffer's elements are read from it alone. -/
theorem elementValue_writeElement_other {b c : Space} (h : c ≠ b ∨ j ≠ i) (v : Nat) :
    elementValue c j (writeElement b i v s) = elementValue c j s := by
  have hj : c = b → j ≠ i := fun e => h.resolve_left (not_not_intro e)
  cases b with
  | sin =>
    cases c with
    | sin => simp only [elementValue, writeElement, sinAt_set, hj rfl, if_false]
    | _ => rfl
  | ft =>
    cases c with
    | ft => simp only [elementValue, writeElement, countAt_set, hj rfl, if_false]
    | _ => rfl
  | ct =>
    cases c with
    | ct => simp only [elementValue, writeElement, codeRecAt_set, hj rfl, if_false]
    | _ => rfl
  | bits =>
    cases c with
    | bits => simp only [elementValue, writeElement, bitAt_set, hj rfl, if_false]
    | _ => rfl
  | bytes =>
    cases c with
    | bytes => simp only [elementValue, writeElement, byteAt_set, hj rfl, if_false]
    | _ => rfl
  | tags =>
    cases c with
    | tags => simp only [elementValue, writeElement, tagAt_set, hj rfl, if_false]
    | _ => rfl
  | sout | node | absent k => rfl

/-- A host write of an element writes no register (R43). -/
theorem writeElement_registers (b : Space) (v : Nat) :
    (writeElement b i v s).status = s.status ∧ (writeElement b i v s).errInfo = s.errInfo ∧
      (writeElement b i v s).win = s.win ∧ (writeElement b i v s).sinLen = s.sinLen ∧
      (writeElement b i v s).soutLen = s.soutLen ∧ (writeElement b i v s).bitLen = s.bitLen ∧
      (writeElement b i v s).byteLen = s.byteLen ∧ (writeElement b i v s).tagLen = s.tagLen ∧
      (writeElement b i v s).nnodes = s.nnodes ∧ (writeElement b i v s).root = s.root ∧
      (writeElement b i v s).cfg = s.cfg ∧ (writeElement b i v s).inputs = s.inputs := by
  cases b <;> exact ⟨rfl, rfl, rfl, rfl, rfl, rfl, rfl, rfl, rfl, rfl, rfl, rfl⟩

theorem elementValue_inputs (b : Space) (es : List Event) :
    elementValue b i { s with inputs := es } = elementValue b i s := by
  cases b <;> rfl

/-! ### The steps -/

section Idle

variable {b : Space} {rest : List Event} (hb : s.status.busy = false) (hi : i < b.capacity s.cfg)
include hb hi

theorem step_bufRead_idle (h : s.inputs = .bufRead b i :: rest) :
    step s = .next { s with inputs := rest, lastRead := .elem (elementValue b i s) } := by
  rw [step_of_event h (by simp), hostEvent, hostBufRead_idle (by exact hb) (by exact hi), elementValue_inputs]

theorem step_bufWrite_idle {v : Nat} (h : s.inputs = .bufWrite b i v :: rest) :
    step s = .next (writeElement b i v { s with inputs := rest }) := by
  rw [step_of_event h (by simp), hostEvent, hostBufWrite_idle (by exact hb) (by exact hi)]

end Idle

/-- Settles O10: the read returns the element, the write is `writeElement`, and the records are those of
the layouts. -/
theorem writtenElementReadsBack : Obligations.WrittenElementReadsBack := by
  unfold Obligations.WrittenElementReadsBack
  refine ⟨fun s b i rest hb hi h => step_bufRead_idle hb hi h, fun s b i v rest hb hw hi hv h => ?_,
    fun s i => ⟨rfl, rfl, rfl, rfl, rfl⟩, fun s hs i => ?_⟩
  · obtain ⟨hstatus, herr, hwin, hsin, hsout, hbit, hbyte, htag, hnn, hroot, hcfg, hinputs⟩ :=
      writeElement_registers (s := { s with inputs := .bufRead b i :: rest }) (i := i) b v
    have hsame : elementValue b i (writeElement b i v { s with inputs := .bufRead b i :: rest }) = v :=
      elementValue_writeElement_same hw hv
    refine ⟨_, step_bufWrite_idle hb hi h, hsame,
      fun c j hne => (elementValue_writeElement_other hne v).trans (elementValue_inputs c _),
      hstatus, herr, hwin, hsin, hsout, hbit, hbyte, htag, hnn, hroot, hcfg, ?_⟩
    rw [step_bufRead_idle (by rw [hstatus]; exact hb) (by rw [hcfg]; exact hi) hinputs, hsame]
  · obtain ⟨-, hm, hc, -⟩ := hs
    obtain ⟨-, -, -, -, -, -, -, -, -, -, -, hnode, hct, -, -, htags⟩ := hm
    exact ⟨packNode_layout (nodeAt_fits hc i hnode), packCode_layout (codeRecAt_fits hc i hct),
      packTag_layout (tagAt_fits hc i htags)⟩

/-! ### What the host cannot write (R49) -/

/-- What only commands and the reset write reads as before. -/
def ProtectedKept (s t : State) : Prop :=
  t.sout = s.sout ∧ t.node = s.node ∧ t.soutLen = s.soutLen ∧ t.nnodes = s.nnodes ∧ t.root = s.root ∧
    (∀ i, t.soutAt i = s.soutAt i) ∧ ∀ k, t.nodeAt k = s.nodeAt k

theorem protectedKept_refl (s : State) : ProtectedKept s s :=
  ⟨rfl, rfl, rfl, rfl, rfl, fun _ => rfl, fun _ => rfl⟩

theorem protectedKept_startCommand (v : Word) : ProtectedKept s (startCommand v s) := by
  obtain ⟨-, e⟩ | ⟨-, e⟩ := startCommand_cases v s <;> rw [e] <;> exact protectedKept_refl s

theorem protectedKept_writeElement (b : Space) (i v : Nat) : ProtectedKept s (writeElement b i v s) := by
  cases b <;> exact protectedKept_refl s

/-- Only `REG.CMD` starts anything; the other registers the host can write are lengths and the window. -/
theorem writeRegister_keeps (n : Nat) (v : Word) : ProtectedKept s (writeRegister n v s) ∧
    (n ≠ 0 → (writeRegister n v s).status = s.status ∧ (writeRegister n v s).errInfo = s.errInfo) := by
  unfold writeRegister
  split
  · exact ⟨protectedKept_startCommand v, fun h => absurd rfl h⟩
  all_goals exact ⟨protectedKept_refl s, fun _ => ⟨rfl, rfl⟩⟩

theorem hostEvent_keeps {e : Event} (he : e ≠ .reset) : ProtectedKept s (hostEvent e s) ∧
    ((∀ v, e ≠ .regWrite 0 v) → (hostEvent e s).status = s.status ∧ (hostEvent e s).errInfo = s.errInfo) := by
  cases e with
  | regRead n =>
    obtain ⟨v, k, e⟩ := hostRegRead_cases s n
    rw [hostEvent, e]
    exact ⟨protectedKept_refl s, fun _ => ⟨rfl, rfl⟩⟩
  | regWrite n v =>
    rw [hostEvent, hostRegWrite]
    split
    · exact ⟨protectedKept_refl s, fun _ => ⟨rfl, rfl⟩⟩
    · obtain ⟨hk, hs⟩ := writeRegister_keeps (s := s) n v
      exact ⟨hk, fun h => hs fun hn => h v (by rw [hn])⟩
  | bufRead b i =>
    obtain ⟨v, k, e⟩ := hostBufRead_cases s b i
    rw [hostEvent, e]
    exact ⟨protectedKept_refl s, fun _ => ⟨rfl, rfl⟩⟩
  | bufWrite b i v =>
    rw [hostEvent, hostBufWrite]
    split
    · obtain ⟨hstatus, herr, -⟩ := writeElement_status b i v s
      exact ⟨protectedKept_writeElement b i v, fun _ => ⟨hstatus, herr⟩⟩
    · exact ⟨protectedKept_refl s, fun _ => ⟨rfl, rfl⟩⟩
  | reset => exact absurd rfl he
  | complete => exact ⟨protectedKept_refl s, fun _ => ⟨rfl, rfl⟩⟩

/-- Settles O11: the step of a host operation is its host event. -/
theorem hostCannotWriteProtected : Obligations.HostCannotWriteProtected := by
  unfold Obligations.HostCannotWriteProtected
  intro s t e rest hi hreset hcomplete hstep
  rw [step_of_event hi hcomplete] at hstep
  cases hstep
  obtain ⟨⟨h1, h2, h3, h4, h5, h6, h7⟩, hs⟩ := hostEvent_keeps (s := { s with inputs := rest }) hreset
  exact ⟨h1, h2, h3, h4, h5, h6, h7, hs⟩

end Sys2Proof.Machine
end

section
/-! PACK, bit by bit (spec/20_memory.md R41, spec/42_huffman_bitstream_encoder.md R100). -/

namespace Sys2Proof.Machine

variable {s : State}

theorem byteAt_writeBytes {bs : List Byte} {k : Nat} {b : Byte} (h : bs[k]? = some b) :
    (writeBytes bs s).byteAt k = b := by
  rw [State.byteAt, writeBytes_bytes, get?_rewrite, h]
  rfl

@[simp] theorem completeCommand_byteAt (e : Bool) (k : Nat) :
    (completeCommand e s).byteAt k = s.byteAt k := rfl

theorem exec_pack (h : s.bitLen.toNat ≤ s.cfg.bMax) :
    exec .pack s =
      .next (completeCommand (s.bitLen == 0) (writeBytes (packBits s.bitAt s.bitLen.toNat) s)) := by
  have hbody : bodyOf .pack s = .ok (writeBytes (packBits s.bitAt s.bitLen.toNat) s) := by
    rw [bodyOf, packBody, if_neg (by omega)]
  exact exec_of_ok hbody

/-- The frame of a bit sequence that fits `BITS` fits `BYTES`, and so its length fits the register. -/
theorem packBits_length_lt (hw : s.cfg.wf) (h : s.bitLen.toNat ≤ s.cfg.bMax) :
    (packBits s.bitAt s.bitLen.toNat).length < 2 ^ 32 := by
  obtain ⟨-, -, -, h8, -, -, hmax⟩ := hw
  have hfits := payload_le s.cfg h h8
  rw [packBits_length]
  simp only [Params.byMax] at hfits
  omega

/-- Bit `i` of the payload is bit `i` of the sequence, or a filler bit 0 at and above its end. -/
theorem packBits_payloadBit (bit : Nat → Bool) {m i : Nat} (hi : i < m + paddingCount m) :
    ∃ b, (packBits bit m)[1 + i / 8]? = some b ∧ b.getLsbD (7 - i % 8) = (decide (i < m) && bit i) := by
  have hlen := payload_length m
  refine ⟨_, packBits_payload bit m (by omega), ?_⟩
  have hindex : 8 * (i / 8) + (7 - (7 - i % 8)) = i := by omega
  rw [byteOf_getLsbD _ (by omega), hindex]

/-- Settles O45: PACK completes, and the frame it writes is `packBits`. -/
theorem packFramesBits : Obligations.PackFramesBits := by
  unfold Obligations.PackFramesBits
  intro s hw hm
  have hpad := paddingCount_le s.bitLen.toNat
  have hpayload := payload_length s.bitLen.toNat
  have hlen : (BitVec.ofNat 32 (packBits s.bitAt s.bitLen.toNat).length).toNat =
      1 + (s.bitLen.toNat + paddingCount s.bitLen.toNat) / 8 := by
    rw [toNat_ofNat_word (packBits_length_lt hw hm), packBits_length]
  refine ⟨_, exec_pack hm, ⟨rfl, rfl⟩, ?_, ?_, fun i hi => ?_⟩
  · rw [completeCommand_byteAt, byteAt_writeBytes (packBits_header _ _), BitVec.toNat_ofNat,
      Nat.mod_eq_of_lt (by omega), paddingCount]
  · rw [completeCommand_byteLen, writeBytes_byteLen, hlen]
    omega
  · rw [completeCommand_byteLen, writeBytes_byteLen, hlen] at hi
    obtain ⟨b, hb, hbit⟩ := packBits_payloadBit s.bitAt (m := s.bitLen.toNat) (i := i) (by omega)
    rw [completeCommand_byteAt, byteAt_writeBytes hb, hbit]

end Sys2Proof.Machine
end

section
/-! The words of the opcode table (spec/30_encoding.md R61 to R63, R73): every word is the word of the one
row it decodes to. -/

namespace Sys2Proof.Machine

/-! ### From the row to the word and back -/

/-- The word of a row with bit `k` as its highest set bit, and `low` below it, is read as that row (R73). -/
theorem decode_high {k low : Nat} (hk : 4 ≤ k) (h31 : k ≤ 31) (h : low < 2 ^ k) :
    decode (BitVec.ofNat 32 (2 ^ k + low)) = decodeHigh k (2 ^ k + low) := by
  have htop : 2 ^ k ≤ 2 ^ 31 := Nat.pow_le_pow_right (by decide) h31
  rw [decode, toNat_ofNat_word (by omega), Laws.decodeNat_of_high hk h]

/-- Settles O1: a row without operand is one closed word, and a row with one is told apart by the bit above
the operand. -/
theorem decodeEncodeRoundTrip : Obligations.DecodeEncodeRoundTrip := by
  unfold Obligations.DecodeEncodeRoundTrip
  intro i h
  cases i
  case freq | build | codes | enc | henc | pack | unpack | hdec | lzc | lzd => rfl
  case illegal0 | illegalB | illegalC | illegalD | illegalE | illegalF => rfl
  all_goals
    have hlow := of_decide_eq_true h
    rw [encode, encodeNat, decode_high (by decide) (by decide) hlow]
    simp only [decodeHigh, Nat.add_sub_cancel_left]

/-! ### From the word to the row and back -/

/-- The rows of the words below 16 (R62, R63). -/
theorem decodeLow_row : ∀ n < 2 ^ 4, (decodeLow n).wellFormed = true ∧ encodeNat (decodeLow n) = n := by
  decide

/-- The rows of the words whose highest set bit is bit `k` (R73). -/
theorem decodeHigh_row {k n : Nat} (hk : 4 ≤ k) (h31 : k ≤ 31) (hn : 2 ^ k ≤ n) (hn' : n < 2 ^ (k + 1)) :
    (decodeHigh k n).wellFormed = true ∧ encodeNat (decodeHigh k n) = n := by
  interval_cases k <;> simp only [decodeHigh, Instr.wellFormed, encodeNat, decide_eq_true_eq] <;> omega

theorem decodeNat_row {n : Nat} (h : n < 2 ^ 32) :
    (decodeNat n).wellFormed = true ∧ encodeNat (decodeNat n) = n := by
  unfold decodeNat
  split
  · next hlow => exact decodeLow_row n hlow
  · next hlow =>
    have hn : n ≠ 0 := by omega
    have hk : 4 ≤ Nat.log2 n := (Nat.le_log2 hn).2 (by omega)
    have h31 : Nat.log2 n < 32 := (Nat.log2_lt hn).2 h
    exact decodeHigh_row hk (by omega) (Nat.log2_self_le hn) Nat.lt_log2_self

/-- Settles O2: the row of a word is that of its highest set bit, or of its opcode where that lies in the
lowest four bits. -/
theorem everyWordIsOneRow : Obligations.EveryWordIsOneRow := by
  unfold Obligations.EveryWordIsOneRow
  intro v
  obtain ⟨hwf, hnum⟩ := decodeNat_row v.isLt
  exact ⟨hwf, by rw [encode, decode, hnum, BitVec.ofNat_toNat, BitVec.setWidth_eq]⟩

@[simp] theorem encode_decode (v : Word) : encode (decode v) = v := (everyWordIsOneRow v).2

/-- No other word is read as a row of the table (R73). -/
theorem decode_eq_iff {v : Word} {i : Instr} (h : i.wellFormed = true) : decode v = i ↔ v = encode i :=
  ⟨fun e => by rw [← e, encode_decode], fun e => by rw [e, decodeEncodeRoundTrip i h]⟩

/-! ### Opcodes (R62) -/

/-- The ten commands have no operand, and the opcode is the number of the word. -/
theorem opcodeMap_row : ∀ c ∈ opcodeMap,
    c.2.wellFormed = true ∧ encode c.2 = BitVec.ofNat 32 c.1 ∧ c.1 < 2 ^ 4 := by
  decide

/-- A word with the upper 28 bits 0 is its opcode. -/
theorem eq_ofNat_iff_opcode (v : Word) {n : Nat} (hn : n < 2 ^ 4) :
    v = BitVec.ofNat 32 n ↔ v.extractLsb' 4 28 = 0#28 ∧ (v.extractLsb' 0 4).toNat = n := by
  have hv : v.toNat < 2 ^ 32 := v.isLt
  rw [← BitVec.toNat_inj, ← BitVec.toNat_inj, toNat_ofNat_word (by omega), BitVec.extractLsb'_toNat,
    BitVec.extractLsb'_toNat, Nat.shiftRight_eq_div_pow, Nat.shiftRight_zero, BitVec.toNat_ofNat]
  omega

/-- Settles O3: a command is read from its own word only, and that word is the opcode. -/
theorem opcodeSelectsCommand : Obligations.OpcodeSelectsCommand := by
  unfold Obligations.OpcodeSelectsCommand
  intro v c hc
  obtain ⟨hwf, hword, hlt⟩ := opcodeMap_row c hc
  rw [decode_eq_iff hwf, hword, eq_ofNat_iff_opcode v hlt]

/-- Settles O4: each word is closed, and the decoder runs on it. -/
theorem sampleWordsDecode : Obligations.SampleWordsDecode := by
  unfold Obligations.SampleWordsDecode
  decide

end Sys2Proof.Machine
end

section
/-! Writes of `REG.CMD` (spec/30_encoding.md R60, R63): a command starts, and a word that encodes none is
reported in the step of its write. -/

namespace Sys2Proof.Machine

variable {s : State} {v : Word} {rest : List Event}

/-- The accepted state field by field: the opcode is `v[3:0]` (R15, R60). -/
theorem acceptCommand_eq (v : Word) (s : State) : acceptCommand v s =
    { s with status := { busy := true, done := false, err := false, empty := false,
                         errCode := 0, stage := 0, op := v.extractLsb' 0 4 }
             errInfo := 0
             cmdLatch := v } := by
  rw [← BitVec.setWidth_eq_extractLsb' (by decide)]
  rfl

/-- An idle block accepts every word written to `REG.CMD` (R60). -/
theorem step_writeCmd_idle (hb : s.status.busy = false) (hi : s.inputs = .regWrite 0 v :: rest) :
    step s = .next (startCommand v { s with inputs := rest }) := by
  have hwrite := step_regWrite hb 0 v rest
  rwa [← hi] at hwrite

theorem startCommand_of_command (h : isCommand (decode v) = true) (s : State) :
    startCommand v s = acceptCommand v s := if_pos h

theorem startCommand_of_illegal (h : isCommand (decode v) = false) (s : State) :
    startCommand v s = reportIllegal v (acceptCommand v s) := if_neg (by simp [h])

/-- A word that encodes no command is reported with its whole number (R63). -/
theorem exec_decode_of_illegal (h : isCommand (decode v) = false) (s : State) :
    exec (decode v) s = .next (reportIllegal v s) := by
  rw [exec_of_illegal h, encode_decode]

/-- Settles O30: an illegal instruction is `reportIllegal` of its word. -/
theorem illegalInstructionReports : Obligations.IllegalInstructionReports := by
  unfold Obligations.IllegalInstructionReports
  intro i s h
  rw [exec_of_illegal h]
  rfl

/-- A word with an upper bit set, or with an opcode of no command, encodes none (R62, R63). -/
theorem isCommand_decode_of_illegal
    (h : v.extractLsb' 4 28 ≠ 0#28 ∨ (v.extractLsb' 0 4).toNat ∈ [0, 0xB, 0xC, 0xD, 0xE, 0xF]) :
    isCommand (decode v) = false := by
  have hopcode : ∀ c ∈ opcodeMap, c.1 ∉ [0, 0xB, 0xC, 0xD, 0xE, 0xF] := by decide
  refine decide_eq_false fun hmem => ?_
  obtain ⟨c, hc, hdecode⟩ := List.mem_map.1 hmem
  obtain ⟨hupper, hlow⟩ := (opcodeSelectsCommand v c hc).1 hdecode.symm
  exact h.elim (absurd hupper) fun hbad => hopcode c hc (hlow ▸ hbad)

/-- Settles O31: the write is accepted, and the word is reported from the accepted state. -/
theorem illegalWordWrittenWhileIdle : Obligations.IllegalWordWrittenWhileIdle := by
  unfold Obligations.IllegalWordWrittenWhileIdle
  intro s v rest hb hi hv
  refine ⟨0, ?_⟩
  rw [step_writeCmd_idle hb hi, startCommand_of_illegal (isCommand_decode_of_illegal hv), acceptCommand_eq]
  rfl

/-- Settles O6: in an idle block the witness is the accepted state, from which a command runs at its
completion and an illegal word in the step of its write. -/
theorem acceptedWriteStartsCommand : Obligations.AcceptedWriteStartsCommand := by
  unfold Obligations.AcceptedWriteStartsCommand
  intro s v rest hi
  refine ⟨fun hb => ?_, fun hb => ?_⟩
  · rw [step_of_event hi (by simp), hostEvent, hostRegWrite_busy (by exact hb)]
  · have hstep := step_writeCmd_idle hb hi
    refine ⟨acceptCommand v { s with inputs := rest }, ⟨v, acceptCommand_eq _ _⟩, fun hcmd => ?_, fun hill => ?_⟩
    · rw [startCommand_of_command hcmd] at hstep
      refine ⟨hstep, ?_, step_regRead rfl []⟩
      rw [step_of_no_event rfl, runCommand_of_busy rfl, acceptCommand_cmdLatch]
    · rw [startCommand_of_illegal hill] at hstep
      exact ⟨by rw [hstep, exec_decode_of_illegal hill], _, hstep, ⟨rfl, rfl⟩, step_regRead rfl []⟩

end Sys2Proof.Machine
end

section
/-! Host scripts (spec/30_encoding.md R71, R72): RUN and LOAD SIN, event by event. -/

namespace Sys2Proof.Machine

/-! ### RUN -/

theorem scriptEvents_run (p : Params) (opcode polls : Nat) : scriptEvents p (ScriptStmt.run opcode polls) =
    .regWrite 0 (BitVec.ofNat 32 opcode) ::
      (List.replicate polls (.regRead 1) ++ [.complete, .regRead 1]) := by
  simp [scriptEvents, ScriptStmt.run, ScriptStmt.cmd, ScriptStmt.events]

/-- Reads of `REG.STATUS` change nothing but the value last read (R44, R46). -/
theorem run_polls (polls : Nat) (es : List Event) (s : State) : ∃ r, ∀ k,
    Host.Core.run Sys2Proof.core (polls + k) { s with inputs := List.replicate polls (.regRead 1) ++ es } =
      Host.Core.run Sys2Proof.core k { s with inputs := es, lastRead := r } := by
  induction polls generalizing s with
  | zero => exact ⟨s.lastRead, fun k => by rw [Nat.zero_add]; rfl⟩
  | succ polls ih =>
    obtain ⟨r, hr⟩ := ih { s with lastRead := .reg s.status.word }
    refine ⟨r, fun k => ?_⟩
    rw [Nat.succ_add, List.replicate_succ, List.cons_append, run_succ (step_regRead rfl _)]
    exact hr k

theorem startCommand_inputs (v : Word) (s : State) (es : List Event) :
    startCommand v { s with inputs := es } = { startCommand v s with inputs := es } := by
  unfold startCommand
  split <;> rfl

/-- After the write of a word and some reads, the completion is `exec` of what the word decodes to in the
accepted state: a command still runs, and an illegal word has been reported already (R60, R63). -/
theorem runCommand_startCommand (v : Word) (s : State) (es : List Event) (r : ReadValue) :
    runCommand { startCommand v s with inputs := es, lastRead := r } =
      exec (decode v) { acceptCommand v s with inputs := es, lastRead := r } := by
  obtain ⟨-, e⟩ | ⟨hill, e⟩ := startCommand_cases v s <;> rw [e]
  · exact runCommand_of_busy rfl
  · rw [runCommand_of_idle rfl, exec_decode_of_illegal hill]
    rfl

/-- Settles O15: the write, the polls, and the event `complete`. -/
theorem runStatementRunsCommand : Obligations.RunStatementRunsCommand := by
  unfold Obligations.RunStatementRunsCommand
  intro s opcode polls rest hb hi
  rw [scriptEvents_run, List.cons_append, List.append_assoc] at hi
  obtain ⟨r, hpolls⟩ := run_polls polls (.complete :: .regRead 1 :: rest)
    (startCommand (BitVec.ofNat 32 opcode) s)
  refine ⟨_, ⟨r, rfl⟩, ?_⟩
  rw [run_succ (step_writeCmd_idle hb hi), startCommand_inputs]
  exact (hpolls 1).trans ((run_one _).trans ((step_of_complete rfl).trans (runCommand_startCommand ..)))

/-! ### LOAD SIN -/

/-- `xs` written to the elements from `k` on, one after the other. -/
def Memory.setFrom {α : Type} [DecidableEq α] (m : Memory α) (k : Nat) : List α → Memory α
  | [] => m
  | x :: xs => (m.set k x).setFrom (k + 1) xs

theorem get?_setFrom {α : Type} [DecidableEq α] (m : Memory α) (xs : List α) (k i : Nat) :
    (m.setFrom k xs).get? i = if k ≤ i ∧ i < k + xs.length then xs[i - k]? else m.get? i := by
  induction xs generalizing m k with
  | nil =>
    rw [if_neg (by simp only [List.length_nil]; omega)]
    rfl
  | cons x xs ih =>
    rw [Memory.setFrom, ih, get?_set, List.length_cons]
    by_cases hik : i = k
    · subst hik
      rw [if_neg (by omega), if_pos rfl, if_pos (by omega), Nat.sub_self]
      rfl
    · by_cases hin : k + 1 ≤ i ∧ i < k + 1 + xs.length
      · rw [if_pos hin, if_pos (by omega), show i - k = i - (k + 1) + 1 by omega]
        rfl
      · rw [if_neg hin, if_neg hik, if_neg (by omega)]

/-- The writes of a load place the symbols one by one (R44, R72). -/
theorem run_putSin {xs : List Nat} {k : Nat} {es : List Event} {s : State} (n : Nat)
    (hb : s.status.busy = false) (hk : k + xs.length ≤ s.cfg.nMax) (hxs : ∀ x ∈ xs, x < 2 ^ s.cfg.symW)
    (hi : s.inputs = (indexedFrom k xs).map (fun c => .bufWrite .sin c.1 c.2) ++ es) :
    Host.Core.run Sys2Proof.core (xs.length + n) s =
      Host.Core.run Sys2Proof.core n { s with sin := s.sin.setFrom k xs, inputs := es } := by
  induction xs generalizing k s with
  | nil =>
    obtain rfl : s.inputs = es := hi
    rw [List.length_nil, Nat.zero_add]
    rfl
  | cons x xs ih =>
    rw [List.length_cons] at hk ⊢
    have hx : x % 2 ^ s.cfg.symW = x := Nat.mod_eq_of_lt (hxs x (List.mem_cons_self ..))
    have hkmax : k < Space.sin.capacity s.cfg := by
      simp only [Space.capacity]
      omega
    rw [Nat.succ_add, run_succ (step_bufWrite_idle hb hkmax hi), writeElement, hx]
    exact ih hb (by simp only; omega) (fun y hy => hxs y (List.mem_cons_of_mem _ hy)) rfl

/-- Settles O16: the writes of the symbols, and the write of their number. -/
theorem loadSinPlacesSymbols : Obligations.LoadSinPlacesSymbols := by
  unfold Obligations.LoadSinPlacesSymbols
  intro s symbols hw hb hlen hsym hi
  obtain ⟨-, -, -, -, -, hnMax, -⟩ := hw
  have hevents : s.inputs = (indexedFrom 0 symbols).map (fun c => .bufWrite .sin c.1 c.2) ++
      [.regWrite 4 (BitVec.ofNat 32 symbols.length)] := hi.trans (List.append_nil _)
  refine ⟨{ s with sin := s.sin.setFrom 0 symbols, sinLen := BitVec.ofNat 32 symbols.length, inputs := [] },
    ?_, rfl, ?_⟩
  · rw [run_putSin 1 hb (by omega) hsym hevents, run_one]
    exact step_regWrite (s := { s with sin := s.sin.setFrom 0 symbols }) hb 4 _ []
  · refine map_range_eq (toNat_ofNat_word (by omega)) fun i hi => ?_
    rw [State.sinAt, get?_setFrom, if_pos (by omega), Nat.sub_zero, List.getElem?_eq_getElem hi]
    rfl

end Sys2Proof.Machine
end

section
/-! FREQ and BUILD as whole commands (spec/40_huffman_tree_builder.md): what the counting pass and the merge
loop make, read from the state that the command leaves. -/

namespace Sys2Proof.Machine

variable {s : State}

/-! ### FREQ (R80) -/

theorem exec_freq (h : s.sinLen.toNat ≤ s.cfg.nMax) :
    exec .freq s = .next (completeCommand (s.sinLen == 0)
      (writeFreqTable (countInto (s.ft.clearTo 0) s.inputSymbols) s)) := by
  have hbody : bodyOf .freq s = .ok (writeFreqTable (countInto (s.ft.clearTo 0) s.inputSymbols) s) := by
    rw [bodyOf, freqBody, if_neg (by omega)]
  exact exec_of_ok hbody

/-- Every symbol below `n` is counted once. -/
theorem sum_range_count {xs : List Nat} {n : Nat} (h : ∀ a ∈ xs, a < n) :
    ((List.range n).map fun a => xs.count a).sum = xs.length := by
  have hcard := Multiset.sum_count_eq_card (s := Finset.range n) (m := (xs : Multiset Nat))
    fun a ha => Finset.mem_range.2 (h a ha)
  simp only [Multiset.coe_count, Multiset.coe_card] at hcard
  exact hcard

/-- Settles O32: the table FREQ leaves is the counts of the input, which sum to its length. -/
theorem freqCountsSymbols : Obligations.FreqCountsSymbols := by
  unfold Obligations.FreqCountsSymbols
  intro s hlen
  have hcount := countAt_freq s s.inputSymbols
  refine ⟨_, exec_freq hlen, ⟨rfl, rfl⟩, hcount, fun hsym => ?_⟩
  calc _ = ((List.range s.cfg.alphabet).map fun a => s.inputSymbols.count a).sum :=
        congrArg List.sum (List.map_congr_left fun a _ => hcount a)
    _ = s.sinLen.toNat := by rw [sum_range_count hsym, inputSymbols_length]

/-! ### BUILD (R82 to R86) -/

@[simp] theorem completeCommand_nodeAt (e : Bool) (k : Nat) :
    (completeCommand e s).nodeAt k = s.nodeAt k := rfl

theorem exec_build (h : s.presentSymbols ≠ []) :
    exec .build s = .next (completeCommand false (writeTree (buildArena (leafNodes s)) s)) :=
  exec_of_ok (i := .build) (buildBody_ok h)

theorem arena_length (h : s.presentSymbols ≠ []) :
    (buildArena (leafNodes s)).length = 2 * s.presentSymbols.length - 1 := by
  rw [buildArena_length (leafNodes_ne_nil.2 h), leafNodes_length]

/-- The root is the last node of the arena (R86). -/
theorem root_build (hw : s.cfg.wf) (h : s.presentSymbols ≠ []) :
    (writeTree (buildArena (leafNodes s)) s).root.toNat = (buildArena (leafNodes s)).length - 1 := by
  have hlen := nnodes_build hw h
  have hlt := (writeTree (buildArena (leafNodes s)) s).nnodes.isLt
  rw [writeTree_root, toNat_ofNat_word (by have := arena_length h; omega)]

/-- Settles O33: the arena is a tree, and `NODE` with its two registers holds it as it is. -/
theorem buildMakesTree : Obligations.BuildMakesTree := by
  unfold Obligations.BuildMakesTree
  intro s hw hp
  have hlen := arena_length hp
  have hpos := List.length_pos_iff.2 hp
  have hcount := nnodes_build hw hp
  have hroot := root_build hw hp
  refine ⟨_, exec_build hp, ⟨rfl, rfl⟩, hcount, ?_, fun j hj => ?_, ?_, ?_⟩
  · rw [completeCommand_root, completeCommand_nnodes, hroot, hcount, hlen]
  · rw [completeCommand_nodeAt, nodeAt_writeTree (by omega), arena_leaf hp hj]
    rfl
  · rw [completeCommand_root, completeCommand_nnodes, hroot, hcount, ← hlen]
    exact wfTree_congr (fun k hk => (nodeAt_writeTree hk).symm) (arena_wfTree hp)
  · rw [completeCommand_root, hroot, completeCommand_nodeAt, nodeAt_writeTree (by omega),
      arena_root_weight hp]

/-- Settles O34: every merge of the loop takes the two first trees of the collection (`MergeInv`). -/
theorem buildMergesLightestFirst : Obligations.BuildMergesLightestFirst := by
  unfold Obligations.BuildMergesLightestFirst
  intro s t hw hp hexec k hk hk'
  obtain rfl := Host.Outcome.next.inj ((exec_build hp).symm.trans hexec)
  obtain ⟨x, hx⟩ := buildArena_spec (leafNodes_ne_nil.2 hp)
  rw [completeCommand_nnodes, nnodes_build hw hp, ← arena_length hp] at hk
  rw [← leafNodes_length] at hk' ⊢
  have hnode : ∀ j ≤ k, arenaAt (buildArena (leafNodes s)) j =
      (completeCommand false (writeTree (buildArena (leafNodes s)) s)).nodeAt j :=
    fun j hj => (nodeAt_writeTree (by omega)).symm
  obtain ⟨hrec, hleft, hright, -, hweight⟩ := hx.inner k hk hk'
  refine ⟨?_, (mergesFirstTwo_congr hleft hright hnode).1 (hx.firstTwo k hk hk')⟩
  rw [← hnode k le_rfl, ← hnode _ hleft.le, ← hnode _ hright.le, ← hweight]
  exact hrec

theorem presentSymbols_eq_nil (h : ∀ a < s.cfg.alphabet, s.countAt a = 0) : s.presentSymbols = [] :=
  List.eq_nil_iff_forall_not_mem.2 fun a ha => by
    obtain ⟨hlt, hpos⟩ := mem_presentSymbols.1 ha
    exact absurd (h a hlt) hpos.ne'

/-- Settles O35: one leaf is merged with nothing, and no leaf is an error that empties the tree alone. -/
theorem buildOfOneOrNoSymbol : Obligations.BuildOfOneOrNoSymbol := by
  unfold Obligations.BuildOfOneOrNoSymbol
  refine ⟨fun s a ha => ?_, fun s h0 => ?_⟩
  · have hone : buildArena (leafNodes s) = [NodeRec.leaf a (s.countAt a)] := by
      rw [leafNodes, ha]
      rfl
    refine ⟨_, exec_build (by simp [ha]), ⟨rfl, rfl⟩, ?_⟩
    rw [hone]
    exact ⟨rfl, rfl, rfl⟩
  · obtain ⟨hexec, haborted⟩ := exec_aborted (i := .build) (buildBody_empty (presentSymbols_eq_nil h0))
    obtain ⟨hnnodes, hroot⟩ := raiseError_emptied [.tree] ⟨.emptyInput, 2, 0⟩ s .tree (by decide)
    obtain ⟨hft, hcounts⟩ := (exec_kept hexec).2 .freqTable (by decide)
    exact ⟨_, hexec, haborted, hnnodes, hroot, hft, hcounts⟩

end Sys2Proof.Machine
end

section
/-! CODES as a whole command (spec/41_huffman_code_table_gen.md), and what HENC leaves when it completes
(spec/42_huffman_bitstream_encoder.md R98), which writes the same table. -/

namespace Sys2Proof.Machine

variable {s : State}

/-! ### The entries of the table (R90) -/

theorem testBit_ofCode_of_le {c : List Bool} {k : Nat} (hk : (CodeRec.ofCode c).len ≤ k) :
    (CodeRec.ofCode c).bits.testBit k = false := by
  rw [CodeRec.ofCode, bitsNumber_testBit, List.getD_eq_default _ _ hk]

section Entries

variable {codes : List (Nat × List Bool)} (h : s.treeOk) (hn : s.nnodes ≠ 0)
  (hc : ∀ e, e ∈ codes ↔ ∃ j < (s.nnodes.toNat + 1) / 2, e.1 = (s.nodeAt j).sym ∧
    IsCodeOf s.nodeAt s.nnodes.toNat s.root.toNat j e.2)
include h hn hc

/-- The symbol of a leaf has the entry of the leaf's code. -/
theorem codeRecAt_leaf {j : Nat} (hj : j < (s.nnodes.toNat + 1) / 2) :
    ∃ c, IsCodeOf s.nodeAt s.nnodes.toNat s.root.toNat j c ∧
      (writeCodeTable codes s).codeRecAt (s.nodeAt j).sym = CodeRec.ofCode c := by
  obtain ⟨i, hi, hsym, c, hcode, hrec⟩ | ⟨hno, -⟩ := codeRecAt_codes h hn hc (s.nodeAt j).sym
  · obtain rfl := (treeOk_wfTree h hn).sym_inj hi hj hsym
    exact ⟨c, hcode, hrec⟩
  · exact absurd rfl (hno j hj)

theorem codeOf_leaf {j : Nat} (hj : j < (s.nnodes.toNat + 1) / 2) :
    IsCodeOf s.nodeAt s.nnodes.toNat s.root.toNat j ((writeCodeTable codes s).codeOf (s.nodeAt j).sym) := by
  obtain ⟨c, hcode, hrec⟩ := codeRecAt_leaf h hn hc hj
  rwa [State.codeOf, hrec, code_ofCode]

theorem codeRecAt_absent {a : Nat} (ha : ∀ j < (s.nnodes.toNat + 1) / 2, (s.nodeAt j).sym ≠ a) :
    (writeCodeTable codes s).codeRecAt a = { len := 0, bits := 0 } := by
  obtain ⟨j, hj, hsym, -⟩ | ⟨-, hrec⟩ := codeRecAt_codes h hn hc a
  · exact absurd hsym (ha j hj)
  · exact hrec

/-- CODES writes 0 above each code: an absent entry too is that of a code, the empty one. -/
theorem codeRecAt_testBit_of_le {a k : Nat} (hk : ((writeCodeTable codes s).codeRecAt a).len ≤ k) :
    ((writeCodeTable codes s).codeRecAt a).bits.testBit k = false := by
  obtain ⟨c, hrec⟩ : ∃ c, (writeCodeTable codes s).codeRecAt a = CodeRec.ofCode c := by
    obtain ⟨-, -, -, c, -, hrec⟩ | ⟨-, hrec⟩ := codeRecAt_codes h hn hc a
    · exact ⟨c, hrec⟩
    · exact ⟨[], hrec⟩
  rw [hrec] at hk ⊢
  exact testBit_ofCode_of_le hk

theorem codeRecAt_len_le {a : Nat} (ha : 0 < ((writeCodeTable codes s).codeRecAt a).len) :
    ((writeCodeTable codes s).codeRecAt a).len ≤ max 1 ((s.nnodes.toNat + 1) / 2 - 1) := by
  obtain ⟨j, hj, rfl⟩ := (codes_present h hn hc a).1 ha.ne'
  obtain ⟨c, hcode, hrec⟩ := codeRecAt_leaf h hn hc hj
  rw [hrec]
  exact ((treeOk_wfTree h hn).code_length hj hcode).2

end Entries

/-! ### CODES (R90 to R93) -/

/-- CODES on a tree completes, having written the codes of the leaves. -/
theorem exec_codes (h : s.treeOk) (hn : s.nnodes ≠ 0) :
    ∃ codes, exec .codes s = .next (completeCommand false (writeCodeTable codes s)) ∧
      ∀ e, e ∈ codes ↔ ∃ j < (s.nnodes.toNat + 1) / 2, e.1 = (s.nodeAt j).sym ∧
        IsCodeOf s.nodeAt s.nnodes.toNat s.root.toNat j e.2 := by
  obtain ⟨codes, hbody, hc⟩ := codesBody_ok h hn
  exact ⟨codes, exec_of_ok (i := .codes) hbody, hc⟩

/-- Settles O36: a leaf's entry is that of its code, every other entry is the empty code's. -/
theorem codesFollowPaths : Obligations.CodesFollowPaths := by
  unfold Obligations.CodesFollowPaths
  intro s _ ht hn
  obtain ⟨codes, hexec, hc⟩ := exec_codes ht hn
  exact ⟨_, hexec, ⟨rfl, rfl⟩, fun j hj => codeOf_leaf ht hn hc hj, fun a ha => codeRecAt_absent ht hn hc ha,
    fun a k hk => codeRecAt_testBit_of_le ht hn hc hk⟩

/-- Settles O37: `IsCodeOf` is the code "0" where the root is the only node, and the path elsewhere. -/
theorem singleLeafCodeIsZero : Obligations.SingleLeafCodeIsZero := by
  unfold Obligations.SingleLeafCodeIsZero
  refine fun s _ ht => ⟨fun h1 => ?_, fun hn h1 => ?_⟩
  · have hcount : s.nnodes.toNat = 1 := congrArg BitVec.toNat h1
    have hn : s.nnodes ≠ 0 := by rw [h1]; decide
    have hN : (s.nnodes.toNat + 1) / 2 = 1 := by omega
    obtain ⟨codes, hexec, hc⟩ := exec_codes ht hn
    obtain ⟨c, hcode, hrec⟩ := codeRecAt_leaf ht hn hc (j := 0) (by omega)
    obtain rfl : c = [false] := by rwa [IsCodeOf, if_pos hcount] at hcode
    refine ⟨_, hexec, ⟨rfl, rfl⟩, congrArg CodeRec.len hrec, ?_, ?_, fun a ha => ?_⟩
    · exact congrArg (fun r => r.bits.testBit 0) hrec
    · exact (congrArg CodeRec.code hrec).trans (code_ofCode _)
    · refine congrArg CodeRec.len (codeRecAt_absent ht hn hc fun j hj => ?_)
      obtain rfl : j = 0 := by omega
      exact ha.symm
  · have hcount : s.nnodes.toNat ≠ 1 := fun e => h1 (BitVec.eq_of_toNat_eq e)
    obtain ⟨codes, hexec, hc⟩ := exec_codes ht hn
    refine ⟨_, hexec, ⟨rfl, rfl⟩, fun j hj => ?_⟩
    have hcode := codeOf_leaf ht hn hc hj
    rwa [IsCodeOf, if_neg hcount] at hcode

/-- Settles O38: the check of R92 raises, and the abort empties the table. -/
theorem codesWithoutTree : Obligations.CodesWithoutTree := by
  unfold Obligations.CodesWithoutTree
  intro s hn
  have hbody : bodyOf .codes s = raise .emptyInput 3 0 := by rw [bodyOf, codesBody, if_pos hn]
  obtain ⟨hexec, haborted⟩ := exec_aborted hbody
  exact ⟨_, hexec, haborted, raiseError_emptied [.codeTable] _ s .codeTable (by decide)⟩

/-- Settles O39: in a well-formed tree no leaf lies on the path to another, and a path has fewer edges
than the tree has leaves. -/
theorem codeTableIsPrefixFree : Obligations.CodeTableIsPrefixFree := by
  unfold Obligations.CodeTableIsPrefixFree
  intro s t _ ht hn hexec
  obtain ⟨codes, hcodes, hc⟩ := exec_codes ht hn
  obtain rfl := Host.Outcome.next.inj (hcodes.symm.trans hexec)
  exact ⟨codes_wfCodeTable ht hn hc, fun a => Nat.pos_iff_ne_zero.trans (codes_present ht hn hc a),
    fun a ha => codeRecAt_len_le ht hn hc ha⟩

/-! ### HENC (R98) -/

theorem inputSymbols_of_sourcesKept {t : State} (h : SourcesKept s t) : t.inputSymbols = s.inputSymbols := by
  obtain ⟨-, -, hlen, -, hsin, -⟩ := h
  rw [State.inputSymbols, hlen, funext hsin]
  rfl

/-- ENC emits the codes of the input where every symbol has one and they fit `BITS` (R95). -/
theorem encBody_ok (hl : s.sinLen.toNat ≤ s.cfg.nMax) (hsym : ∀ a ∈ s.inputSymbols, (s.codeRecAt a).len ≠ 0)
    (hfit : (s.inputSymbols.flatMap s.codeOf).length ≤ s.cfg.bMax) :
    encBody s = .ok (writeBits (s.inputSymbols.flatMap s.codeOf) s) := by
  rw [encBody, if_neg (by omega), encScan_ok 0 0 _ hsym (by rwa [Nat.zero_add])]
  rfl

/-- The table that a body of CODES leaves has the code of each leaf of the tree that it leaves. -/
theorem codeOf_leaf_of_codesBody {u : State} (hu : codesBody s = .ok u) (h : u.treeOk) {j : Nat}
    (hj : j < (u.nnodes.toNat + 1) / 2) :
    IsCodeOf u.nodeAt u.nnodes.toNat u.root.toNat j (u.codeOf (u.nodeAt j).sym) := by
  obtain ⟨hn, codes, rfl⟩ := codesBody_cases hu
  have ht : s.treeOk := h
  obtain ⟨codes', hbody, hc⟩ := codesBody_ok ht hn
  rw [← Except.ok.inj (hbody.symm.trans hu)] at hj ⊢
  exact codeOf_leaf ht hn hc hj

/-- Settles O42: the ENC of HENC starts from the table of the input (`hencBody_chain`), which has a code
for each symbol of the input, so only the capacity of `BITS` could stop it. -/
theorem hencEncodesInput : Obligations.HencEncodesInput := by
  unfold Obligations.HencEncodesInput
  intro s hinv hne hl hfit
  have hdata := ((inv_iff s).1 hinv).1
  obtain ⟨s1, s2, u, h1, h2, h3, hbody, hdata', hn, hsrc, hcount, hconf, hpres⟩ := hencBody_chain hdata hl hne
  rw [tableOfInput_eq h1 h2 h3] at hfit ⊢
  obtain ⟨⟨-, -, -, -, -, -, hbits⟩, -, -, -, htree⟩ := hdata'
  have hin := inputSymbols_of_sourcesKept hsrc
  obtain ⟨hcfg, -, hlen, -⟩ := hsrc
  rw [← hin, ← hcfg] at hfit
  rw [encBody_ok (by rwa [hlen, hcfg]) (fun a ha => (hpres a).2 (hin ▸ ha)) hfit] at hbody
  have hstatus : u.status = s.status := (body_changes (i := .henc) hbody).status
  have hempty : primarySourceEmpty .henc s = false := beq_eq_false_iff_ne.2 hne
  have hexec := exec_of_ok (i := .henc) hbody
  rw [hempty] at hexec
  refine ⟨_, hexec, ⟨congrArg (Status.completed · false) hstatus, rfl⟩, hcount, ?_,
    fun j hj => codeOf_leaf_of_codesBody h3 htree hj, ?_, hpres, fun _ => rfl, ?_⟩
  · rw [← hcfg]
    exact treeOk_wfTree htree hn
  · rw [← hcfg]
    exact hconf
  · rw [← hin]
    exact bitSequence_writeBits (hfit.trans_lt hbits)

end Sys2Proof.Machine
end

section
/-! ENC and HENC as whole commands (spec/42_huffman_bitstream_encoder.md R95, R98), and PACK undone by
UNPACK (R101). -/

namespace Sys2Proof.Machine

variable {s : State}

/-! ### ENC (R95) -/

@[simp] theorem completeCommand_bitSequence (e : Bool) :
    (completeCommand e s).bitSequence = s.bitSequence := rfl

theorem exec_enc (hl : s.sinLen.toNat ≤ s.cfg.nMax) (hsym : ∀ a ∈ s.inputSymbols, (s.codeRecAt a).len ≠ 0)
    (hfit : (s.inputSymbols.flatMap s.codeOf).length ≤ s.cfg.bMax) :
    exec .enc s = .next (completeCommand (s.sinLen == 0) (writeBits (s.inputSymbols.flatMap s.codeOf) s)) :=
  exec_of_ok (i := .enc) (encBody_ok hl hsym hfit)

/-- Settles O40: the scan passes over every symbol, and the sum of the lengths fits the register. -/
theorem encConcatenatesCodes : Obligations.EncConcatenatesCodes := by
  unfold Obligations.EncConcatenatesCodes
  intro s hw hl hsym hfit
  obtain ⟨-, -, -, -, -, -, hmax⟩ := hw
  have hlt : (s.inputSymbols.flatMap s.codeOf).length < 2 ^ 32 := hfit.trans_lt hmax
  refine ⟨_, exec_enc hl hsym hfit, ⟨rfl, rfl⟩, ?_, ?_⟩
  · rw [completeCommand_bitSequence, bitSequence_writeBits hlt]
  · rw [completeCommand_bitLen, writeBits_bitLen, toNat_ofNat_word hlt]
    exact flatMap_codes_length s.codeRecAt s.inputSymbols

/-- A scan that ends in an error ends ENC. -/
theorem encBody_of_scan_raise (hl : s.sinLen.toNat ≤ s.cfg.nMax) {k : ErrorKind} {st : BitVec 4} {n : Nat}
    (h : encScan s.codeRecAt s.cfg.bMax 0 0 s.inputSymbols = raise k st n) : encBody s = raise k st n := by
  rw [encBody, if_neg (by omega), h]
  rfl

/-- What ENC leaves where its scan ends in an error (R146). -/
theorem exec_enc_aborted (hl : s.sinLen.toNat ≤ s.cfg.nMax) {k : ErrorKind} {st : BitVec 4} {n : Nat}
    (h : encScan s.codeRecAt s.cfg.bMax 0 0 s.inputSymbols = raise k st n) :
    ∃ t, exec .enc s = .next t ∧ Aborted s t k.code st (BitVec.ofNat 32 n) ∧ t.bitLen = 0 := by
  obtain ⟨hexec, haborted⟩ := exec_aborted (i := .enc) (encBody_of_scan_raise hl h)
  exact ⟨_, hexec, haborted, raiseError_emptied [.bitSeq] _ s .bitSeq (by decide)⟩

/-- Settles O41: the symbols before are passed over, so the scan ends at `b`, in one of the two ways. -/
theorem encReportsFirstBadSymbol : Obligations.EncReportsFirstBadSymbol := by
  unfold Obligations.EncReportsFirstBadSymbol
  intro s before after b hl hin hbefore hfit
  obtain ⟨hmismatch, hcapacity⟩ := encScan_error 0 0 before after b hbefore
    (cap := s.cfg.bMax) (by rwa [Nat.zero_add])
  simp only [← hin, Nat.zero_add] at hmismatch hcapacity
  exact ⟨fun hb => exec_enc_aborted hl (hmismatch hb), fun hb hcap => exec_enc_aborted hl (hcapacity hb hcap)⟩

/-! ### HENC (R98) -/

/-- FREQ counts nothing in an empty input. -/
theorem countAt_freq_of_empty (h : s.sinLen = 0) (a : Nat) :
    (writeFreqTable (countInto (s.ft.clearTo 0) s.inputSymbols) s).countAt a = 0 := by
  rw [countAt_freq, State.inputSymbols, h]
  rfl

/-- Settles O44: with every count 0 HENC takes the branch of an empty table. -/
theorem hencOfEmptyInput : Obligations.HencOfEmptyInput := by
  unfold Obligations.HencOfEmptyInput
  intro s h
  have hbody : hencBody s =
      .ok (nothingToEncode (writeFreqTable (countInto (s.ft.clearTo 0) s.inputSymbols) s)) := by
    rw [hencBody_eq (by simp [h]), if_pos (presentSymbols_eq_nil fun a _ => countAt_freq_of_empty h a)]
  have hempty : primarySourceEmpty .henc s = true := beq_iff_eq.2 h
  have hexec := exec_of_ok (i := .henc) hbody
  rw [hempty] at hexec
  exact ⟨_, hexec, ⟨rfl, rfl⟩, countAt_freq_of_empty h, rfl, rfl, fun _ => rfl, rfl⟩

/-! A body reads neither `REG.STATUS` nor `REG.ERRINFO`, so it does after the completion of the command
before it what it does after that command's body alone. -/

section AfterCompletion

variable (u : State) (e : Bool)

@[simp] theorem completeCommand_inputSymbols : (completeCommand e u).inputSymbols = u.inputSymbols := rfl
@[simp] theorem completeCommand_codeRecAt : (completeCommand e u).codeRecAt = u.codeRecAt := rfl
@[simp] theorem completeCommand_leafNodes : leafNodes (completeCommand e u) = leafNodes u := rfl

theorem buildBody_completeCommand :
    buildBody (completeCommand e u) = (buildBody u).map (completeCommand e) := by
  simp only [buildBody, completeCommand_leafNodes]
  split
  · rfl
  · rfl

theorem codesBody_completeCommand :
    codesBody (completeCommand e u) = (codesBody u).map (completeCommand e) := by
  have hnode : (completeCommand e u).nodeAt = u.nodeAt := rfl
  simp only [codesBody, hnode, completeCommand_nnodes, completeCommand_root]
  split
  · rfl
  · split
    · rfl
    · rfl

theorem encBody_completeCommand :
    encBody (completeCommand e u) = (encBody u).map (completeCommand e) := by
  by_cases hl : u.cfg.nMax < u.sinLen.toNat
  · rw [encBody, encBody, if_pos hl]
    exact if_pos hl
  · rw [encBody, encBody, if_neg hl]
    refine (if_neg hl).trans ?_
    rw [completeCommand_inputSymbols, completeCommand_codeRecAt, completeCommand_cfg]
    split
    · rfl
    · rfl

end AfterCompletion

/-- A command after the completion of another leaves what its body makes of the other's body. -/
theorem exec_completeCommand {i : Instr} {u v t : State} {e : Bool}
    (h : bodyOf i (completeCommand e u) = (bodyOf i u).map (completeCommand e)) (hv : bodyOf i u = .ok v)
    (ht : exec i (completeCommand e u) = .next t) : t = completeCommand (primarySourceEmpty i u) v := by
  have hempty : primarySourceEmpty i (completeCommand e u) = primarySourceEmpty i u := by cases i <;> rfl
  rw [hv] at h
  rw [exec_of_ok h, hempty] at ht
  exact (Host.Outcome.next.inj ht).symm

/-- FREQ, BUILD and CODES in turn lead where their bodies lead, up to the status of a completed command. -/
theorem exec_freq_build_codes {s1 s2 s3 u1 u2 u3 : State} (h1 : freqBody s = .ok u1)
    (h2 : buildBody u1 = .ok u2) (h3 : codesBody u2 = .ok u3) (e1 : exec .freq s = .next s1)
    (e2 : exec .build s1 = .next s2) (e3 : exec .codes s2 = .next s3) : s3 = completeCommand false u3 := by
  obtain rfl := Host.Outcome.next.inj ((exec_of_ok (i := .freq) h1).symm.trans e1)
  obtain rfl := exec_completeCommand (i := .build) (buildBody_completeCommand u1 _) h2 e2
  exact exec_completeCommand (i := .codes) (codesBody_completeCommand u2 _) h3 e3

/-- A command whose body raises ends with `ERR`. -/
theorem err_of_raise {i : Instr} {t : State} {k : ErrorKind} {st : BitVec 4} {n : Nat}
    (h : bodyOf i s = raise k st n) (ht : exec i s = .next t) : t.status.err = true := by
  obtain rfl := Host.Outcome.next.inj ((exec_of_raise h).symm.trans ht)
  rfl

/-- ENC with an entry for every symbol: it encodes, or ends at the first code that does not fit. -/
theorem encBody_ok_or_capacity (hl : s.sinLen.toNat ≤ s.cfg.nMax)
    (hsym : ∀ a ∈ s.inputSymbols, (s.codeRecAt a).len ≠ 0) :
    (∃ v, encBody s = .ok v) ∨
      ∃ j < s.sinLen.toNat, encBody s = raise .capacity 4 j ∧
        ((s.inputSymbols.take j).flatMap s.codeOf).length ≤ s.cfg.bMax ∧
        s.cfg.bMax < ((s.inputSymbols.take (j + 1)).flatMap s.codeOf).length := by
  obtain ⟨bs, h⟩ | ⟨k, i, -, h⟩ := encScan_cases (ct := s.codeRecAt) (cap := s.cfg.bMax) 0 0 s.inputSymbols
  · exact .inl ⟨_, by rw [encBody, if_neg (by omega), h]⟩
  · obtain ⟨rfl, -, j, hj, hi, hfits, hcap⟩ := encScan_raise hsym (Nat.zero_le _) h
    rw [Nat.zero_add] at hi hfits hcap
    rw [inputSymbols_length] at hj
    refine .inr ⟨j, hj, ?_, hfits, hcap⟩
    rw [encBody_of_scan_raise hl h, raise, raise, hi]

/-- An input longer than `N_MAX` ends FREQ and ENC with `BadParamError` (R80, R95). -/
theorem err_of_input_too_long {i : Instr} (hi : i = .freq ∨ i = .enc) {t : State}
    (h : s.cfg.nMax < s.sinLen.toNat) (ht : exec i s = .next t) : t.status.err = true := by
  obtain rfl | rfl := hi
  · exact err_of_raise (k := .badParam) (st := 1) (n := 4) (by rw [bodyOf, freqBody, if_pos h]) ht
  · exact err_of_raise (k := .badParam) (st := 4) (n := 4) (by rw [bodyOf, encBody, if_pos h]) ht

/-- Settles O43: on an input of legal length HENC and the chain end in the body of ENC on one state
(`hencBody_chain`); a longer input ends FREQ and ENC alike in an error. -/
theorem hencIsTheChain : Obligations.HencIsTheChain := by
  unfold Obligations.HencIsTheChain
  intro s s1 s2 s3 s4 hinv hne e1 e2 e3 e4
  rcases Nat.lt_or_ge s.cfg.nMax s.sinLen.toNat with hlong | hl
  · have hsrc := ((exec_kept e1).1.trans (exec_kept e2).1).trans (exec_kept e3).1
    obtain ⟨hcfg, -, hlen, -⟩ := hsrc
    have herr1 := err_of_input_too_long (.inl rfl) hlong e1
    have herr4 := err_of_input_too_long (.inr rfl) (by rwa [hcfg, hlen]) e4
    exact ⟨fun h => absurd (h.symm.trans herr4) Bool.false_ne_true,
      fun h => absurd (h.symm.trans herr1) Bool.false_ne_true⟩
  obtain ⟨u1, u2, u3, h1, h2, h3, hbody, -, -, hsrc, -, -, hpres⟩ :=
    hencBody_chain ((inv_iff s).1 hinv).1 hl hne
  obtain rfl := exec_freq_build_codes h1 h2 h3 e1 e2 e3
  have hin := inputSymbols_of_sourcesKept hsrc
  obtain ⟨hcfg, -, hlen, -⟩ := hsrc
  obtain ⟨v, hv⟩ | ⟨j, hj, hraise, hfits, hcap⟩ :=
    encBody_ok_or_capacity (s := u3) (by rwa [hlen, hcfg]) fun a ha => (hpres a).2 (hin ▸ ha)
  · have hempty : primarySourceEmpty .henc s = primarySourceEmpty .enc u3 :=
      congrArg (· == 0) hlen.symm
    obtain rfl := exec_completeCommand (i := .enc) (encBody_completeCommand u3 _) hv e4
    rw [exec_of_ok (i := .henc) (hbody.trans hv), hempty]
    exact ⟨fun _ => rfl, fun _ h => absurd h Bool.false_ne_true⟩
  · have henc : encBody (completeCommand false u3) = raise .capacity 4 j := by
      rw [encBody_completeCommand, hraise]
      rfl
    have herr4 := err_of_raise (i := .enc) henc e4
    obtain rfl := Host.Outcome.next.inj ((exec_of_raise (i := .enc) henc).symm.trans e4)
    obtain ⟨hexec, haborted⟩ := exec_aborted (i := .henc) (hbody.trans hraise)
    rw [hcfg, hin] at hfits hcap
    rw [hlen] at hj
    exact ⟨fun h => absurd (h.symm.trans herr4) Bool.false_ne_true,
      fun _ _ => ⟨_, hexec, haborted, rfl, rfl, j, hj, rfl, hfits, hcap⟩⟩

/-! ### PACK, then UNPACK (R101) -/

/-- UNPACK of a frame that passes the checks of R105. -/
theorem exec_unpack (hmax : s.byteLen.toNat ≤ s.cfg.byMax) (hne : s.byteLen.toNat ≠ 0)
    (h7 : (s.byteAt 0).toNat ≤ 7) (hpad : (s.byteAt 0).toNat ≤ 8 * (s.byteLen.toNat - 1)) :
    exec .unpack s = .next (completeCommand false
      (writeBits (unpackBits s.byteAt (8 * (s.byteLen.toNat - 1) - (s.byteAt 0).toNat)) s)) := by
  refine exec_of_ok (i := .unpack) ?_
  rw [bodyOf, unpackBody, if_neg (by omega), if_neg hne, if_neg (by omega), if_neg (by omega)]

/-- Settles O46: the frame is that of `packFramesBits`, which passes the checks of UNPACK, and its payload
bits below the filler are the sequence. -/
theorem packGuarantees : Obligations.PackGuarantees := by
  unfold Obligations.PackGuarantees
  intro s hw hm
  obtain ⟨t, hexec, -, hheader, hlen, hbit⟩ := packFramesBits s hw hm
  obtain ⟨hcfg, -⟩ := (exec_kept hexec).1
  obtain ⟨-, -, -, h8, -, -, hmax⟩ := hw
  have hcap : t.byteLen.toNat ≤ t.cfg.byMax := by
    rw [hcfg, Params.byMax]
    omega
  have hm' : 8 * (t.byteLen.toNat - 1) - (t.byteAt 0).toNat = s.bitLen.toNat := by omega
  have hunpack := exec_unpack hcap (by omega) (by omega) (by omega)
  rw [hm'] at hunpack
  refine ⟨t, hexec, hlen, by omega, by omega, hm', _, hunpack, ⟨rfl, rfl⟩, ?_⟩
  rw [completeCommand_bitSequence, bitSequence_writeBits (by rw [unpackBits_length]; omega)]
  refine List.map_congr_left fun i hi => ?_
  have hi' := List.mem_range.1 hi
  rw [hbit i (by omega), decide_eq_true hi', Bool.true_and]

end Sys2Proof.Machine
end

section
/-! UNPACK (spec/43_huffman_bitstream_decoder.md R105, R106): the bits it takes out of a frame, the frames it
rejects, and PACK as its inverse up to the filler bits. -/

namespace Sys2Proof.Machine

variable {s t : State}

/-! ### UNPACK (R105) -/

/-- Bit `i` of the payload, most significant bit of each byte first (R41); `BYTES[0]` is the header. -/
abbrev State.payloadBit (s : State) (i : Nat) : Bool := (s.byteAt (1 + i / 8)).getLsbD (7 - i % 8)

theorem bitAt_writeBits {bs : List Bool} {i : Nat} {b : Bool} (h : bs[i]? = some b) :
    (writeBits bs s).bitAt i = b := by
  rw [State.bitAt, writeBits_bits, get?_rewrite, h]
  rfl

@[simp] theorem completeCommand_bitAt (e : Bool) (i : Nat) : (completeCommand e s).bitAt i = s.bitAt i := rfl

theorem unpackBits_getElem? {m i : Nat} (hi : i < m) : (unpackBits s.byteAt m)[i]? = some (s.payloadBit i) := by
  simp [unpackBits, hi]

/-- The payload of a frame within `BYTES` fits `BITS`. -/
theorem payload_fits (hw : s.cfg.wf) (h : s.byteLen.toNat ≤ s.cfg.byMax) :
    8 * (s.byteLen.toNat - 1) ≤ s.cfg.bMax := by
  rw [Params.byMax] at h
  omega

theorem bitLen_writeBits_unpackBits {m : Nat} (h : m < 2 ^ 32) :
    (writeBits (unpackBits s.byteAt m) s).bitLen.toNat = m := by
  rw [writeBits_bitLen, unpackBits_length, toNat_ofNat_word h]

/-- Settles O48: the bits UNPACK writes are `unpackBits`, and their number fits the register. -/
theorem unpackExpandsPayload : Obligations.UnpackExpandsPayload := by
  unfold Obligations.UnpackExpandsPayload
  intro s hw hmax hne h7 hpad
  have hfits := payload_fits hw hmax
  obtain ⟨-, -, -, -, -, -, hb⟩ := hw
  have hlen : s.byteLen.toNat ≠ 0 := fun h => hne (BitVec.eq_of_toNat_eq h)
  have hbits := bitLen_writeBits_unpackBits (s := s)
    (m := 8 * (s.byteLen.toNat - 1) - (s.byteAt 0).toNat) (by omega)
  refine ⟨_, exec_unpack hmax hlen h7 hpad, ⟨rfl, rfl⟩, hbits, fun i hi => ?_⟩
  rw [completeCommand_bitLen, hbits] at hi
  rw [completeCommand_bitAt, bitAt_writeBits (unpackBits_getElem? hi)]

/-- What UNPACK leaves where a check of the frame fails (R146). -/
theorem exec_unpack_aborted {k : ErrorKind} {st : BitVec 4} {n : Nat} (h : unpackBody s = raise k st n) :
    ∃ t, exec .unpack s = .next t ∧ Aborted s t k.code st (BitVec.ofNat 32 n) ∧ t.bitLen = 0 := by
  obtain ⟨hexec, haborted⟩ := exec_aborted (i := .unpack) h
  exact ⟨_, hexec, haborted, raiseError_emptied [.bitSeq] _ s .bitSeq (by decide)⟩

/-- Settles O49: in each clause the checks before the one named pass, and that one fails. -/
theorem unpackRejectsBadFrames : Obligations.UnpackRejectsBadFrames := by
  unfold Obligations.UnpackRejectsBadFrames
  intro s hmax
  have hlen (hne : s.byteLen ≠ 0) : s.byteLen.toNat ≠ 0 := fun h => hne (BitVec.eq_of_toNat_eq h)
  refine ⟨fun h0 => ?_, fun hne h7 => ?_, fun hne h7 hpad => ?_⟩
  · exact exec_unpack_aborted (k := .badFrame) (st := 7) (n := 0)
      (by rw [unpackBody, if_neg (by omega), if_pos (by rw [h0]; rfl)])
  · exact exec_unpack_aborted (k := .badFrame) (st := 7) (n := 1)
      (by rw [unpackBody, if_neg (by omega), if_neg (hlen hne), if_pos h7])
  · exact exec_unpack_aborted (k := .badFrame) (st := 7) (n := 2)
      (by rw [unpackBody, if_neg (by omega), if_neg (hlen hne), if_neg (by omega), if_pos hpad])

/-! ### UNPACK and PACK undo each other (R106) -/

/-- A next state without error is that of a body that ended without error. -/
theorem exec_next_ok {i : Instr} (h : exec i s = .next t) (herr : t.status.err = false) :
    ∃ u, bodyOf i s = .ok u ∧ t = completeCommand (primarySourceEmpty i s) u := by
  obtain hok | ⟨e, -, rfl⟩ := exec_next h
  · exact hok
  · exact absurd herr.symm Bool.false_ne_true

/-- The bits of a byte by their place in it (R41). -/
theorem byte_eq_of_bits {a b : Byte} (h : ∀ k < 8, a.getLsbD (7 - k) = b.getLsbD (7 - k)) : a = b :=
  BitVec.eq_of_getLsbD_eq fun i hi => by
    have hbit := h (7 - i) (by omega)
    rwa [show 7 - (7 - i) = i by omega] at hbit

/-- Two frames of one length and one header are equal when their payloads are, bit by bit. -/
theorem byteSequence_eq_iff (hlen : t.byteLen.toNat = s.byteLen.toNat) (hheader : t.byteAt 0 = s.byteAt 0) :
    t.byteSequence = s.byteSequence ↔
      ∀ i < 8 * (s.byteLen.toNat - 1), t.payloadBit i = s.payloadBit i := by
  rw [State.byteSequence, State.byteSequence, hlen, List.map_inj_left]
  refine ⟨fun h i hi => ?_, fun h k hk => ?_⟩
  · rw [State.payloadBit, h _ (List.mem_range.2 (by omega))]
  · obtain _ | k := k
    · exact hheader
    · have hk' := List.mem_range.1 hk
      refine byte_eq_of_bits fun j hj => ?_
      have hbit := h (8 * k + j) (by omega)
      rwa [State.payloadBit, State.payloadBit, show 1 + (8 * k + j) / 8 = k + 1 by omega,
        show (8 * k + j) % 8 = j by omega] at hbit

/-- Settles O47: PACK of what UNPACK took out has the frame's length, its header and its bits below the
filler, and filler bits 0. -/
theorem packUnpackRoundTrip : Obligations.PackUnpackRoundTrip := by
  unfold Obligations.PackUnpackRoundTrip
  refine ⟨fun s hw hm => ?_, fun s t hw hexec herr => ?_⟩
  · obtain ⟨t, hpack, -, -, -, -, u, hunpack, -, hbits⟩ := packGuarantees s hw hm
    exact ⟨t, u, hpack, hunpack, hbits⟩
  obtain ⟨_, hbody, -⟩ := exec_next_ok hexec herr
  obtain ⟨hmax, hne, h7, hpad, -⟩ := unpackBody_cases hbody
  have hfits := payload_fits hw hmax
  obtain ⟨t', hexec', -, hm, hbit⟩ :=
    unpackExpandsPayload s hw hmax (fun h => hne (congrArg BitVec.toNat h)) h7 hpad
  obtain rfl := Host.Outcome.next.inj (hexec'.symm.trans hexec)
  obtain ⟨hcfg, -⟩ := (exec_kept hexec).1
  obtain ⟨u, hpack, -, hheader, hlen, hpayload⟩ := packFramesBits t' (by rwa [hcfg]) (by rw [hcfg]; omega)
  have hlen' : u.byteLen.toNat = s.byteLen.toNat := by omega
  refine ⟨u, hpack, (byteSequence_eq_iff hlen' (BitVec.eq_of_toNat_eq (by omega))).trans ?_⟩
  rw [hlen'] at hpayload
  refine ⟨fun h i hi hi' => ?_, fun h i hi => ?_⟩
  · calc s.payloadBit i = u.payloadBit i := (h i hi').symm
      _ = (decide (i < t'.bitLen.toNat) && t'.bitAt i) := hpayload i hi'
      _ = false := by rw [decide_eq_false (by omega), Bool.false_and]
  · rw [State.payloadBit, hpayload i hi]
    rcases Nat.lt_or_ge i t'.bitLen.toNat with hlt | hge
    · rw [decide_eq_true hlt, Bool.true_and, hbit i hlt]
    · rw [decide_eq_false (by omega), Bool.false_and, State.payloadBit, h i hge hi]

end Sys2Proof.Machine
end

section
/-! HDEC (spec/43_huffman_bitstream_decoder.md R108 to R111): what it does after a concatenation of codes,
and with it the round trip of HENC (R112). -/

namespace Sys2Proof.Machine

variable {s : State} {S : List Nat}

/-! ### After a concatenation of codes (R108) -/

/-- The symbols whose codes the bits begin with are emitted, and the scan goes on after their codes. -/
theorem hdecScan_bitSequence {tail : List Bool} (hcap : S.length ≤ s.cfg.nMax)
    (hS : ∀ a ∈ S, FirstMatch s.cfg.alphabet s.codeOf a) (hbits : s.bitSequence = S.flatMap s.codeOf ++ tail) :
    hdecScan s.codeRecAt s.cfg.alphabet s.cfg.nMax 0 0 [] [] s.bitSequence =
      hdecScan s.codeRecAt s.cfg.alphabet s.cfg.nMax (S.flatMap s.codeOf).length 0 [] S tail := by
  have hscan := hdecScan_flatMap (ct := s.codeRecAt) (cap := s.cfg.nMax) S hS 0 0 [] tail
    (by rwa [List.length_nil, Nat.zero_add])
  rw [Nat.zero_add, List.nil_append] at hscan
  rw [hbits]
  exact hscan

/-- Settles O50: after the codes of `S` no bit is left, and the accumulator is empty. -/
theorem hdecDecodesCodes : Obligations.HdecDecodesCodes := by
  unfold Obligations.HdecDecodesCodes
  intro s S hw hm hcap hS hbits
  obtain ⟨-, -, -, -, -, hn, -⟩ := hw
  have hscan := hdecScan_bitSequence hcap hS (hbits.trans (List.append_nil _).symm)
  have hbody : bodyOf .hdec s = .ok (writeSymbols S s) := by
    rw [bodyOf, hdecBody, if_neg (by omega), hscan]
    rfl
  exact ⟨_, exec_of_ok hbody, ⟨rfl, rfl⟩, outputSymbols_writeSymbols (hcap.trans_lt hn)⟩

/-! ### The errors (R108, R109) -/

/-- What HDEC leaves where its scan ends in an error (R146). -/
theorem exec_hdec_aborted (hm : s.bitLen.toNat ≤ s.cfg.bMax) {k : ErrorKind} {st : BitVec 4} {n : Nat}
    (h : hdecScan s.codeRecAt s.cfg.alphabet s.cfg.nMax 0 0 [] [] s.bitSequence = raise k st n) :
    ∃ t, exec .hdec s = .next t ∧ Aborted s t k.code st (BitVec.ofNat 32 n) ∧ t.soutLen = 0 := by
  have hbody : bodyOf .hdec s = raise k st n := by
    rw [bodyOf, hdecBody, if_neg (by omega), h]
    rfl
  obtain ⟨hexec, haborted⟩ := exec_aborted hbody
  exact ⟨_, hexec, haborted, raiseError_emptied [.symbolSeq] _ s .symbolSeq (by decide)⟩

/-- Bits that begin with no entry end the scan as one unfinished candidate (R109). -/
theorem hdecScan_unfinished {ct : Nat → CodeRec} {count cap : Nat} {acc : List Bool} (hne : acc ≠ [])
    (hno : ∀ a < count, (ct a).code ≠ [] → ¬ (ct a).code <+: acc) (i st : Nat) (out : List Nat) :
    hdecScan ct count cap i st [] out acc =
      if canBeCompleted ct count acc then raise .corruptStream 5 i else raise .alphabetMismatch 5 i := by
  have hgrow := hdecScan_grow (ct := ct) (count := count) (cap := cap) i st [] out acc [] fun k hk a ha e => by
    rw [List.nil_append] at e
    refine hno a ha (fun h => ?_) (e ▸ List.take_prefix _ _)
    rw [h] at e
    exact absurd (congrArg List.length e) (by rw [List.length_take, List.length_nil]; omega)
  rw [List.append_nil, List.nil_append, if_pos ⟨rfl, hne⟩] at hgrow
  rw [hgrow, hdecScan, if_neg hne]

/-- Settles O51: the candidate is all that follows the codes of `S`; an entry it is a prefix of is longer,
since it begins with no entry. -/
theorem hdecUnfinishedCandidate : Obligations.HdecUnfinishedCandidate := by
  unfold Obligations.HdecUnfinishedCandidate
  intro s S acc hm hcap hS hbits hne hno
  have hscan := (hdecScan_bitSequence hcap hS hbits).trans (hdecScan_unfinished hne hno _ _ _)
  refine ⟨fun ⟨a, ha, hpre⟩ => ?_, fun hnone => ?_⟩
  · have hlt : acc.length < (s.codeRecAt a).len := by
      refine Nat.lt_of_le_of_ne (code_length (s.codeRecAt a) ▸ hpre.length_le) fun hlen => ?_
      have heq : acc = s.codeOf a := hpre.eq_of_length (hlen.trans (code_length _).symm)
      exact hno a ha (heq ▸ hne) (heq ▸ List.prefix_rfl)
    rw [if_pos (canBeCompleted_iff.2 ⟨a, ha, hlt, hpre⟩)] at hscan
    exact exec_hdec_aborted hm hscan
  · rw [if_neg fun h => by
      obtain ⟨a, ha, -, hpre⟩ := canBeCompleted_iff.1 h
      exact hnone a ha hpre] at hscan
    exact exec_hdec_aborted hm hscan

/-- Settles O52: the codes of `S` fill `SOUT`, so at the end of the next code there is no room. -/
theorem hdecCapacity : Obligations.HdecCapacity := by
  unfold Obligations.HdecCapacity
  intro s S a tail hm hfull hfirst hbits
  have hS : ∀ b ∈ S, FirstMatch s.cfg.alphabet s.codeOf b := fun b hb => hfirst b (List.mem_cons_of_mem a hb)
  have hcode := hdecScan_code (ct := s.codeRecAt) (cap := s.cfg.nMax) (hfirst a List.mem_cons_self)
    (S.flatMap s.codeOf).length 0 S tail
  rw [if_pos hfull] at hcode
  rw [List.append_assoc] at hbits
  exact exec_hdec_aborted hm ((hdecScan_bitSequence hfull.le hS hbits).trans hcode)

/-! ### HENC, then HDEC (R112) -/

/-- `BITS` holds the codes of `S`, each symbol the first match of its code: what HDEC decodes to `S`. -/
structure Encodes (s : State) (S : List Nat) : Prop where
  wf : s.cfg.wf
  fits : s.bitLen.toNat ≤ s.cfg.bMax
  room : S.length ≤ s.cfg.nMax
  firstMatch : ∀ a ∈ S, FirstMatch s.cfg.alphabet s.codeOf a
  bits : s.bitSequence = S.flatMap s.codeOf

theorem Encodes.hdec (h : Encodes s S) :
    ∃ u, exec .hdec s = .next u ∧ u.status.err = false ∧ u.outputSymbols = S := by
  obtain ⟨u, hexec, ⟨hstatus, -⟩, hout⟩ := hdecDecodesCodes s S h.wf h.fits h.room h.firstMatch h.bits
  exact ⟨u, hexec, congrArg Status.err hstatus, hout⟩

/-- A state with the same parameters, table and bit sequence holds the same codes. -/
theorem Encodes.congr {t : State} (h : Encodes s S) (hcfg : t.cfg = s.cfg) (hcode : t.codeOf = s.codeOf)
    (hbits : t.bitSequence = s.bitSequence) : Encodes t S where
  wf := hcfg ▸ h.wf
  fits := by rw [← bitSequence_length, hbits, bitSequence_length, hcfg]; exact h.fits
  room := hcfg ▸ h.room
  firstMatch := by rw [hcfg, hcode]; exact h.firstMatch
  bits := by rw [hbits, hcode]; exact h.bits

/-- A command that does not write `CT` leaves the parameters and every code. -/
theorem exec_codes_kept {i : Instr} {t : State} (h : exec i s = .next t) (hi : Entity.codeTable ∉ destinations i) :
    t.cfg = s.cfg ∧ t.codeOf = s.codeOf := by
  obtain ⟨⟨hcfg, -⟩, hkept⟩ := exec_kept h
  obtain ⟨-, hrec⟩ := hkept .codeTable hi
  exact ⟨hcfg, funext fun a => congrArg CodeRec.code (hrec a)⟩

/-- The symbols of the input belong to the alphabet (R17). -/
theorem inputSymbols_lt (h : s.dataOk) {a : Nat} (ha : a ∈ s.inputSymbols) : a < s.cfg.alphabet := by
  obtain ⟨-, ⟨-, -, -, -, -, -, -, -, hfill, -⟩, hcontents, -⟩ := h
  obtain ⟨i, -, rfl⟩ := List.mem_map.1 ha
  exact sinAt_lt hcontents i hfill

/-- ENC without error has written the codes of the input (R95). -/
theorem encBody_encodes {u : State} (hd : s.dataOk) (hconf : WfCodeTable s.cfg.alphabet s.codeOf)
    (h : encBody s = .ok u) : Encodes u s.inputSymbols := by
  obtain ⟨hl, bs, hscan, rfl⟩ := encBody_cases h
  obtain ⟨rfl, hsym, hfits⟩ := encScan_eq_ok hscan
  obtain ⟨-, -, -, -, -, -, hmax⟩ := hd.1
  rw [Nat.zero_add, Nat.max_eq_right (Nat.zero_le _)] at hfits
  have hlt := hfits.trans_lt hmax
  exact {
    wf := hd.1
    fits := by rwa [writeBits_bitLen, toNat_ofNat_word hlt]
    room := by rwa [inputSymbols_length]
    firstMatch := fun a ha => firstMatch_of_wfCodeTable hconf (inputSymbols_lt hd ha)
      fun hnil => hsym a ha ((code_length _).symm.trans (congrArg List.length hnil))
    bits := bitSequence_writeBits hlt }

/-- With no symbol there is no bit to decode. -/
theorem encodes_nil (hw : s.cfg.wf) (h : s.bitLen = 0) : Encodes s [] where
  wf := hw
  fits := by rw [h]; exact Nat.zero_le _
  room := Nat.zero_le _
  firstMatch := fun _ ha => absurd ha List.not_mem_nil
  bits := by rw [State.bitSequence, h]; rfl

/-- HENC without error has written the codes of the input: of no symbol, or by the ENC of the chain (R98). -/
theorem henc_encodes {t : State} (hinv : s.Inv) (hexec : exec .henc s = .next t) (herr : t.status.err = false) :
    Encodes t s.inputSymbols := by
  have hd := ((inv_iff s).1 hinv).1
  by_cases hne : s.sinLen = 0
  · obtain ⟨t', hexec', -, -, -, -, -, hbits⟩ := hencOfEmptyInput s hne
    obtain rfl := Host.Outcome.next.inj (hexec'.symm.trans hexec)
    obtain ⟨⟨hcfg, -⟩, -⟩ := exec_kept hexec
    rw [State.inputSymbols, hne]
    exact encodes_nil (hcfg ▸ hd.1) hbits
  · obtain ⟨u, hbody, rfl⟩ := exec_next_ok hexec herr
    obtain ⟨_, hfreq, -⟩ := hencBody_cases hbody
    obtain ⟨hl, -⟩ := freqBody_cases hfreq
    obtain ⟨_, _, s3, -, -, -, hchain, hd3, -, hsrc, -, hconf, -⟩ := hencBody_chain hd hl hne
    have hcodes := encBody_encodes hd3 hconf (hchain.symm.trans hbody)
    rw [inputSymbols_of_sourcesKept hsrc] at hcodes
    exact hcodes.congr rfl rfl rfl

/-- Settles O53: HDEC decodes the codes HENC has written; PACK and UNPACK give back the bit sequence and
leave the table. -/
theorem huffmanRoundTrip : Obligations.HuffmanRoundTrip := by
  unfold Obligations.HuffmanRoundTrip
  intro s t hinv hexec herr
  have hcodes := henc_encodes hinv hexec herr
  refine ⟨hcodes.hdec, ?_⟩
  obtain ⟨p, hpack, -, -, -, -, q, hunpack, -, hbits⟩ := packGuarantees t hcodes.wf hcodes.fits
  obtain ⟨hcfg, hcode⟩ := exec_codes_kept hpack (by decide)
  obtain ⟨hcfg', hcode'⟩ := exec_codes_kept hunpack (by decide)
  obtain ⟨u, hdec, herr', hout⟩ := (hcodes.congr (hcfg'.trans hcfg) (hcode'.trans hcode) hbits).hdec
  exact ⟨p, q, u, hpack, hunpack, hdec, herr', hout⟩

end Sys2Proof.Machine
end

section
/-! LZC (spec/44_lz77_matcher.md R115 to R121): the match length in both forms, the tags as those of the
greedy rule, what the rule alone says of them, and the round trip with LZD. -/

namespace Sys2Proof.Machine

variable {S : List Nat} {W i : Nat}

/-! ### The match length (R117, R120) -/

theorem le_matchLength_iff {c L : Nat} (hL : i + L ≤ S.length) :
    L ≤ matchLength S i c ↔ ∀ k < L, WrapsAt S i c k := by
  obtain ⟨-, hwraps, -⟩ := matchLength_spec c (show i ≤ S.length by omega)
  exact ⟨fun h k hk => hwraps k (hk.trans_le h), matchLength_largest hL⟩

/-- The overlapping compare gives the modulo form: from symbol `i - c` on it reads the lookahead, which
repeats the candidate (R120). -/
theorem overlap_wrapsAt {c : Nat} (hc : c < i) (L : Nat) (h : ∀ k < L, S[i + k]? = S[c + k]?) :
    ∀ k < L, WrapsAt S i c k := by
  intro k
  induction k using Nat.strong_induction_on with
  | _ k ih =>
    intro hk
    rcases Nat.lt_or_ge k (i - c) with hlt | hge
    · rw [WrapsAt, Nat.mod_eq_of_lt hlt, h k hk]
    · calc S[i + k]? = S[i + (k - (i - c))]? := by rw [h k hk]; congr 1; omega
        _ = S[c + (k - (i - c)) % (i - c)]? := ih (k - (i - c)) (by omega) (by omega)
        _ = S[c + k % (i - c)]? := by rw [← Nat.mod_eq_sub_mod hge]

/-- Settles O55: the match length is the longest run in the modulo form, and the two compares agree. -/
theorem matchLengthIsCommonRun : Obligations.MatchLengthIsCommonRun := by
  unfold Obligations.MatchLengthIsCommonRun
  intro S i c L hc hL
  obtain ⟨hbound, -⟩ := matchLength_spec (S := S) c (show i ≤ S.length by omega)
  exact ⟨hbound, le_matchLength_iff hL,
    (le_matchLength_iff hL).trans ⟨wrapsAt_overlap hc L, overlap_wrapsAt hc L⟩⟩

/-! ### The tags of the greedy rule (R116 to R119) -/

theorem wrapsAt_of_distance {D k : Nat} (hD : D ≤ i) :
    WrapsAt S i (i - D) k ↔ S[i + k]? = S[i - D + k % D]? := by
  rw [WrapsAt, Nat.sub_sub_self hD]

theorem RunsFor.le_matchLength {D L : Nat} (hD : D ≤ i) (h : RunsFor S i D L) :
    L ≤ matchLength S i (i - D) :=
  (le_matchLength_iff h.1).2 fun k hk => (wrapsAt_of_distance hD).2 (h.2 k hk)

/-- The search finds the match that R118 chooses. -/
theorem bestTag_bestMatch (hi : i ≤ S.length) :
    BestTag S W i (bestMatch S W i).1 (bestMatch S W i).2 := by
  obtain ⟨hlongest, hnearest, -, hzero⟩ := bestMatch_spec S W i
  refine ⟨fun hpos => ?_, hzero, fun D hD hDW L hrun => ?_⟩
  · obtain hnone | ⟨-, h1, hDi, hDW, hend, hwraps⟩ := bestMatch_cases S W i hi
    · exact absurd hpos (by simp [hnone])
    · exact ⟨h1, le_min hDi hDW, hend, fun k hk => (wrapsAt_of_distance hDi).1 (hwraps k hk)⟩
  · have hcand : (matchLength S i (i - D), D) ∈
        (List.range' (i - W) (i - (i - W))).map fun c => (matchLength S i c, i - c) :=
      List.mem_map.2 ⟨i - D, List.mem_range'_1.2 (by omega), by rw [Nat.sub_sub_self (by omega)]⟩
    have hle := hlongest _ hcand
    have hL := hrun.le_matchLength (by omega)
    exact ⟨hL.trans hle, fun heq hpos => hnearest _ hcand (le_antisymm hle (heq ▸ hL)) hpos⟩

@[simp] theorem tagOfMatch_len (S : List Nat) (i : Nat) (best : Nat × Nat) :
    (tagOfMatch S i best).len = best.1 := by
  unfold tagOfMatch
  split <;> rfl

@[simp] theorem tagOfMatch_dist (S : List Nat) (i : Nat) (best : Nat × Nat) :
    (tagOfMatch S i best).dist = best.2 := by
  unfold tagOfMatch
  split <;> rfl

theorem tagOfMatch_literal {best : Nat × Nat} (h : i + best.1 < S.length) :
    (tagOfMatch S i best).hasLit = true ∧ S[i + best.1]? = some (tagOfMatch S i best).lit := by
  simp [tagOfMatch, List.getElem?_eq_getElem h]

theorem tagOfMatch_no_literal {best : Nat × Nat} (h : S.length ≤ i + best.1) :
    (tagOfMatch S i best).hasLit = false ∧ (tagOfMatch S i best).lit = 0 := by
  simp [tagOfMatch, List.getElem?_eq_none h]

theorem lzcLoop_greedyFrom {fuel : Nat} (hf : S.length ≤ i + fuel) :
    GreedyFrom S W i (lzcLoop S W fuel i) := by
  induction fuel generalizing i with
  | zero => exact hf
  | succ fuel ih =>
    rw [lzcLoop]
    split
    · next hi =>
      simp only [GreedyFrom, tagOfMatch_len, tagOfMatch_dist]
      exact ⟨hi, bestTag_bestMatch hi.le, tagOfMatch_literal, tagOfMatch_no_literal, ih (by omega)⟩
    · next hi => exact Nat.not_lt.1 hi

theorem lzcTags_greedyFrom (S : List Nat) (W : Nat) : GreedyFrom S W 0 (lzcTags S W) :=
  lzcLoop_greedyFrom (Nat.zero_add _).ge

/-! ### LZC -/

section Lzc

variable {s : State}

theorem bodyOf_lzc (hl : s.sinLen.toNat ≤ s.cfg.nMax) (hwin : s.win ≠ 0) :
    bodyOf .lzc s = .ok (writeTags (lzcTags s.inputSymbols s.win.toNat) s) := by
  rw [bodyOf, lzcBody, if_neg (by omega), if_neg hwin]

/-- There are at most as many tags as symbols (R115). -/
theorem lzcTags_length_le (hl : s.sinLen.toNat ≤ s.cfg.nMax) :
    (lzcTags s.inputSymbols s.win.toNat).length ≤ s.cfg.nMax := by
  have h := lzcLoop_length (S := s.inputSymbols) (W := s.win.toNat) s.inputSymbols.length 0
  rw [Nat.sub_zero] at h
  exact h.trans ((inputSymbols_length s).trans_le hl)

/-- LZC completes, and `TAGS` holds the tags of its loop. -/
theorem exec_lzc (hw : s.cfg.wf) (hl : s.sinLen.toNat ≤ s.cfg.nMax) (hwin : s.win ≠ 0) :
    ∃ t, exec .lzc s = .next t ∧ Completed s t (s.sinLen == 0) ∧ t.cfg = s.cfg ∧
      t.tagSequence = lzcTags s.inputSymbols s.win.toNat := by
  obtain ⟨-, -, -, -, -, hn, -⟩ := hw
  exact ⟨_, exec_of_ok (bodyOf_lzc hl hwin), ⟨rfl, rfl⟩, rfl,
    tagSequence_writeTags ((lzcTags_length_le hl).trans_lt hn)⟩

/-- Settles O54: the loop of LZC follows the greedy rule from position 0 on. -/
theorem lzcEmitsGreedyTags : Obligations.LzcEmitsGreedyTags := by
  unfold Obligations.LzcEmitsGreedyTags
  intro s hw hl hwin
  obtain ⟨t, hexec, hdone, -, htags⟩ := exec_lzc hw hl hwin
  exact ⟨t, hexec, hdone, htags ▸ lzcTags_greedyFrom _ _⟩

end Lzc

/-! ### What the greedy rule says of the tags (R121) -/

section Greedy

variable {t : TagRec} {ts before rest : List TagRec}

@[simp] theorem produced_nil : produced [] = 0 := rfl

@[simp] theorem produced_cons (t : TagRec) (ts : List TagRec) :
    produced (t :: ts) = t.len + t.hasLit.toNat + produced ts := by
  simp [produced]

theorem BestTag.end_le {L D : Nat} (h : BestTag S W i L D) (hi : i ≤ S.length) : i + L ≤ S.length := by
  obtain ⟨hmatch, -⟩ := h
  rcases Nat.eq_zero_or_pos L with rfl | hpos
  · exact hi
  · obtain ⟨-, -, hend, -⟩ := hmatch hpos
    exact hend

/-- The distance is 0 without a match, and lies within the window and the symbols before it with one. -/
theorem BestTag.dist_spec {L D : Nat} (h : BestTag S W i L D) : (D = 0 ↔ L = 0) ∧ D ≤ W ∧ D ≤ i := by
  obtain ⟨hmatch, hzero, -⟩ := h
  rcases Nat.eq_zero_or_pos L with hL | hpos
  · have := hzero hL
    omega
  · obtain ⟨h1, hDW, -⟩ := hmatch hpos
    omega

/-- The tags from position `i` on stand for the symbols from there on (R121 item 1). -/
theorem GreedyFrom.produced_eq (h : GreedyFrom S W i ts) : produced ts = S.length - i := by
  induction ts generalizing i with
  | nil => exact (Nat.sub_eq_zero_of_le h).symm
  | cons t ts ih =>
    obtain ⟨hi, hbest, hlit, hend, hrest⟩ := h
    have hle := hbest.end_le hi.le
    rw [produced_cons, ih hrest]
    rcases Nat.lt_or_ge (i + t.len) S.length with hin | hout
    · rw [(hlit hin).1, Bool.toNat_true]
      omega
    · rw [(hend hout).1, Bool.toNat_false]
      omega

/-- A tag that is not the last has a literal (R121 item 2). -/
theorem GreedyFrom.hasLit (h : GreedyFrom S W i (t :: rest)) (hne : rest ≠ []) : t.hasLit = true := by
  obtain ⟨-, -, hlit, -, hrest⟩ := h
  obtain ⟨u, us, rfl⟩ := List.exists_cons_of_ne_nil hne
  obtain ⟨hnext, -⟩ := hrest
  exact (hlit (by omega)).1

/-- A tag without a match has a literal (R121 item 3). -/
theorem GreedyFrom.hasLit_of_len (h : GreedyFrom S W i (t :: rest)) (h0 : t.len = 0) : t.hasLit = true := by
  obtain ⟨hi, -, hlit, -⟩ := h
  exact (hlit (by omega)).1

/-- A tag stands at the position after the symbols that the tags before it stand for. -/
theorem GreedyFrom.append (h : GreedyFrom S W i (before ++ t :: rest)) :
    GreedyFrom S W (i + produced before) (t :: rest) := by
  induction before generalizing i with
  | nil => exact h
  | cons u us ih =>
    have hu : u.hasLit = true := GreedyFrom.hasLit h (by simp)
    obtain ⟨-, -, -, -, hrest⟩ := h
    have hnext := ih hrest
    rwa [show i + u.len + 1 + produced us = i + produced (u :: us) by
      rw [produced_cons, hu, Bool.toNat_true]; omega] at hnext

/-- Tag `j` stands after the symbols of the `j` tags before it. -/
theorem GreedyFrom.at_index {j : Nat} (h : GreedyFrom S W 0 ts) (hj : j < ts.length) :
    GreedyFrom S W (produced (ts.take j)) (ts[j] :: ts.drop (j + 1)) := by
  rw [← List.take_append_drop j ts, List.drop_eq_getElem_cons hj] at h
  simpa using h.append

/-- The first tag is a pure literal: the search region is empty (R121 item 5). -/
theorem GreedyFrom.first (h : GreedyFrom S W 0 (t :: rest)) :
    ∃ a, S[0]? = some a ∧ t = { dist := 0, len := 0, hasLit := true, lit := a } := by
  obtain ⟨dist, len, hasLit, lit⟩ := t
  obtain ⟨hi, hbest, hlit, -⟩ := h
  obtain ⟨hiff, -, hdist⟩ := hbest.dist_spec
  obtain rfl : dist = 0 := Nat.le_zero.1 hdist
  obtain rfl : len = 0 := hiff.1 rfl
  obtain ⟨rfl, hsym⟩ : hasLit = true ∧ S[0]? = some lit := hlit hi
  exact ⟨lit, hsym, rfl⟩

end Greedy

section Guarantees

variable {s t : State}

theorem tagSequence_getElem {j : Nat} (hj : j < t.tagSequence.length) : t.tagSequence[j] = t.tagAt j := by
  simp [State.tagSequence]

theorem inputSymbols_getElem? {j : Nat} (hj : j < s.sinLen.toNat) :
    s.inputSymbols[j]? = some (s.sinAt j) := by
  simp [State.inputSymbols, hj]

/-- Settles O56: each item follows from the greedy rule at the position of the tag. -/
theorem lzcTagGuarantees : Obligations.LzcTagGuarantees := by
  unfold Obligations.LzcTagGuarantees
  intro s t hw hl hwin hexec
  obtain ⟨t', hexec', -, hgreedy⟩ := lzcEmitsGreedyTags s hw hl hwin
  obtain rfl := Host.Outcome.next.inj (hexec'.symm.trans hexec)
  have hat {j : Nat} (hj : j < t'.tagSequence.length) := tagSequence_getElem hj ▸ hgreedy.at_index hj
  have hsum : produced t'.tagSequence = s.sinLen.toNat := by
    rw [hgreedy.produced_eq, inputSymbols_length, Nat.sub_zero]
  refine ⟨hsum, fun j hj => ?_, fun j hj => ?_, fun hne => ?_⟩
  · exact (hat (by omega)).hasLit (List.ne_nil_of_length_pos (by rw [List.length_drop]; omega))
  · obtain ⟨-, hbest, -⟩ := hat hj
    obtain ⟨hiff, hwindow, hbefore⟩ := hbest.dist_spec
    exact ⟨hiff, (hat hj).hasLit_of_len, hwindow, hbefore⟩
  · have hpos : 0 < s.sinLen.toNat := Nat.pos_of_ne_zero fun h => hne (BitVec.eq_of_toNat_eq h)
    have hj : 0 < t'.tagSequence.length := List.length_pos_of_ne_nil fun h => by
      rw [h, produced_nil] at hsum
      omega
    obtain ⟨a, hsym, htag⟩ := (hat hj).first
    rw [inputSymbols_getElem? hpos] at hsym
    rw [htag, Option.some.inj hsym]

/-! ### LZC, then LZD (R121 item 7) -/

/-- LZD completes where its scan does. -/
theorem exec_lzd {out : List Nat} (hl : t.tagLen.toNat ≤ t.cfg.tMax)
    (hscan : lzdScan t.cfg.nMax 0 [] t.tagSequence = .ok out) :
    exec .lzd t = .next (completeCommand (t.tagLen == 0) (writeSymbols out t)) :=
  exec_of_ok (by rw [bodyOf, lzdBody, if_neg (by omega), hscan])

/-- Settles O60: the replay of the tags is the input. -/
theorem lz77RoundTrip : Obligations.Lz77RoundTrip := by
  unfold Obligations.Lz77RoundTrip
  intro s hw hl hwin
  obtain ⟨t, hlzc, -, hcfg, htags⟩ := exec_lzc hw hl hwin
  have hcount : t.tagLen.toNat ≤ t.cfg.tMax := by
    rw [← tagSequence_length, htags, hcfg]
    exact lzcTags_length_le hl
  have hfit : s.inputSymbols.length ≤ s.cfg.nMax := by rwa [inputSymbols_length]
  have hscan : lzdScan t.cfg.nMax 0 [] t.tagSequence = .ok s.inputSymbols := by
    rw [htags, hcfg]
    exact lzdScan_lzcLoop hfit _ 0 0 (by omega) (Nat.zero_le _)
  exact ⟨t, _, hlzc, exec_lzd hcount hscan, rfl,
    outputSymbols_writeSymbols (by rw [inputSymbols_length]; exact s.sinLen.isLt)⟩

end Guarantees

end Sys2Proof.Machine
end

section
/-! LZD (spec/45_lz77_replayer.md R125 to R128): what it does with one tag, after tags that are well formed
where they stand and fit, and so where it completes and where it ends in an error. -/

namespace Sys2Proof.Machine

variable {cap j : Nat} {out : List Nat} {t : TagRec} {ts rest : List TagRec} {s : State}

/-! ### One tag (R125 to R128) -/

@[simp] theorem literal_length (t : TagRec) : t.literal.length = t.hasLit.toNat := by
  unfold TagRec.literal
  cases t.hasLit <;> rfl

theorem lzdScan_of_malformed (h : t.malformed out.length) :
    lzdScan cap j out (t :: rest) = raise .malformedTag 9 j := by
  rw [lzdScan]
  rcases h with hdist | hzero
  · rw [if_pos hdist]
  · rw [if_pos hzero, ite_self]

/-- A tag that is not malformed is tested for its room alone. -/
theorem lzdScan_of_wellFormed (h : ¬ t.malformed out.length) :
    lzdScan cap j out (t :: rest) =
      if cap < out.length + t.len + t.hasLit.toNat then raise .capacity 9 j
      else lzdScan cap (j + 1) (copyBehind t.dist t.len out ++ t.literal) rest := by
  obtain ⟨hdist, hzero⟩ := not_or.1 h
  rw [lzdScan, if_neg hdist, if_neg hzero, literal_length]

/-- The copy of a tag that is not malformed is the one of `Replayed`: nothing for length 0, else the closed
form of R127. -/
theorem copyBehind_of_wellFormed (h : ¬ t.malformed out.length) :
    (copyBehind t.dist t.len out).length = out.length + t.len ∧
      (∀ k < out.length, (copyBehind t.dist t.len out)[k]? = out[k]?) ∧
      ∀ c < t.len, (copyBehind t.dist t.len out)[out.length + c]? = out[out.length - t.dist + c % t.dist]? := by
  obtain ⟨hdist, hzero⟩ := not_or.1 h
  rcases Nat.eq_zero_or_pos t.len with h0 | hpos
  · simp [h0]
  · have hd : 1 ≤ t.dist := by omega
    have ho : t.dist ≤ out.length := by omega
    obtain ⟨hkept, -⟩ := copyBehind_spec t.len hd ho
    exact ⟨copyBehind_length t.len hd ho, hkept, copyBehind_closed t.len hd ho⟩

theorem replayed_singleton (h : ¬ t.malformed out.length) :
    Replayed out [t] (copyBehind t.dist t.len out ++ t.literal) := by
  obtain ⟨hlen, hkept, hcopied⟩ := copyBehind_of_wellFormed h
  exact ⟨_, hlen, hkept, hcopied, rfl⟩

theorem Replayed.append {mid result : List Nat} (h : Replayed out ts mid) (hrest : Replayed mid rest result) :
    Replayed out (ts ++ rest) result := by
  induction ts generalizing out with
  | nil =>
    obtain rfl : mid = out := h
    exact hrest
  | cons t ts ih =>
    obtain ⟨copied, hlen, hkept, hcopied, hnext⟩ := h
    exact ⟨copied, hlen, hkept, hcopied, ih hnext⟩

/-! ### After tags that are well formed and fit (R125) -/

theorem produced_append (ts us : List TagRec) : produced (ts ++ us) = produced ts + produced us := by
  simp [produced]

/-- The last of the tags stands after the output of the others. -/
theorem tagsOk_concat (h : TagsOk cap (ts ++ [t])) :
    TagsOk cap ts ∧ ¬ t.malformed (produced ts) ∧ produced ts + t.len + t.hasLit.toNat ≤ cap := by
  refine ⟨fun j hj u hu => ?_, ?_⟩
  · have hprefix := h j (by simp; omega) u (by rwa [List.getElem?_append_left hj])
    rwa [List.take_append_of_le_length hj.le] at hprefix
  · have hlast := h ts.length (by simp) t List.getElem?_concat_length
    rwa [List.take_left] at hlast

theorem produced_le_of_tagsOk (h : TagsOk cap ts) : produced ts ≤ cap := by
  obtain rfl | ⟨before, t, rfl⟩ := List.eq_nil_or_concat' ts
  · exact Nat.zero_le _
  · obtain ⟨-, -, hfits⟩ := tagsOk_concat h
    rw [produced_append, produced_cons, produced_nil]
    omega

/-- Such tags are replayed, and the scan goes on with the tag after them. -/
theorem lzdScan_tagsOk (h : TagsOk cap ts) (rest : List TagRec) :
    ∃ out, out.length = produced ts ∧ Replayed [] ts out ∧
      lzdScan cap 0 [] (ts ++ rest) = lzdScan cap ts.length out rest := by
  induction ts using List.reverseRecOn generalizing rest with
  | nil => exact ⟨[], rfl, rfl, rfl⟩
  | append_singleton ts t ih =>
    obtain ⟨hbefore, hwell, hfits⟩ := tagsOk_concat h
    obtain ⟨out, hlen, hreplayed, hscan⟩ := ih hbefore (t :: rest)
    rw [← hlen] at hwell hfits
    obtain ⟨hcopy, -⟩ := copyBehind_of_wellFormed hwell
    refine ⟨copyBehind t.dist t.len out ++ t.literal, ?_, hreplayed.append (replayed_singleton hwell), ?_⟩
    · rw [List.length_append, hcopy, literal_length, produced_append, produced_cons, produced_nil]
      omega
    · rw [List.append_assoc, List.singleton_append, hscan, lzdScan_of_wellFormed hwell, if_neg (by omega),
        List.length_append, List.length_singleton]

/-! ### LZD -/

/-- Settles O57: the scan passes every tag and ends with the replayed output. -/
theorem lzdReplaysTags : Obligations.LzdReplaysTags := by
  unfold Obligations.LzdReplaysTags
  intro s hw hl htags
  obtain ⟨out, hlen, hreplayed, hscan⟩ := lzdScan_tagsOk htags []
  rw [List.append_nil] at hscan
  obtain ⟨-, -, -, -, -, hn, -⟩ := hw
  have hlt : out.length < 2 ^ 32 := hlen ▸ (produced_le_of_tagsOk htags).trans_lt hn
  refine ⟨_, exec_lzd hl hscan, ⟨rfl, rfl⟩, ?_, ?_⟩
  · rw [completeCommand_soutLen, writeSymbols_soutLen, toNat_ofNat_word hlt, hlen]
  · exact (outputSymbols_writeSymbols hlt).symm ▸ hreplayed

/-- What LZD leaves where its scan ends in an error (R146). -/
theorem exec_lzd_aborted (hl : s.tagLen.toNat ≤ s.cfg.tMax) {k : ErrorKind} {st : BitVec 4} {n : Nat}
    (h : lzdScan s.cfg.nMax 0 [] s.tagSequence = raise k st n) :
    ∃ u, exec .lzd s = .next u ∧ Aborted s u k.code st (BitVec.ofNat 32 n) ∧ u.soutLen = 0 := by
  have hbody : bodyOf .lzd s = raise k st n := by
    rw [bodyOf, lzdBody, if_neg (by omega), h]
    rfl
  obtain ⟨hexec, haborted⟩ := exec_aborted hbody
  exact ⟨_, hexec, haborted, raiseError_emptied [.symbolSeq] _ s .symbolSeq (by decide)⟩

/-- Settles O58: the tags before are passed over, and the malformed tag ends the scan. -/
theorem lzdRejectsMalformedTags : Obligations.LzdRejectsMalformedTags := by
  unfold Obligations.LzdRejectsMalformedTags
  intro s before after t hl htags hbefore hbad
  obtain ⟨out, hlen, -, hscan⟩ := lzdScan_tagsOk hbefore (t :: after)
  rw [← htags, lzdScan_of_malformed (hlen ▸ hbad)] at hscan
  exact exec_lzd_aborted hl hscan

/-- Settles O59: the tags before are passed over, and the output of the next one finds no room. -/
theorem lzdCapacity : Obligations.LzdCapacity := by
  unfold Obligations.LzdCapacity
  intro s before after t hl htags hbefore hwell hfull
  obtain ⟨out, hlen, -, hscan⟩ := lzdScan_tagsOk hbefore (t :: after)
  rw [← hlen] at hwell hfull
  rw [← htags, lzdScan_of_wellFormed hwell, if_pos hfull] at hscan
  exact exec_lzd_aborted hl hscan

end Sys2Proof.Machine
end

section
/-! Errors (spec/60_exceptions.md): the destinations an abort empties, the errors each command reports,
the checks of the length registers and of the window. -/

namespace Sys2Proof.Machine

variable {s t : State}

/-- A command that ends with `ERR` has been aborted by an error of its body. -/
theorem exec_next_err {i : Instr} (h : exec i s = .next t) (herr : t.status.err = true) :
    ∃ e, bodyOf i s = .error (.raised e) ∧ t = raiseError (destinations i) e s := by
  obtain ⟨u, -, rfl⟩ | hraised := exec_next h
  · exact absurd herr Bool.false_ne_true
  · exact hraised

/-- Settles O27: an error ends a command in the abort of R146, which empties its destinations. -/
theorem abortEmptiesDestinations : Obligations.AbortEmptiesDestinations := by
  unfold Obligations.AbortEmptiesDestinations
  intro i s t hexec herr
  obtain ⟨e, -, rfl⟩ := exec_next_err hexec herr
  exact raiseError_emptied _ e s

/-! ### The errors of each command (R142) -/

/-- HENC starts with the check of FREQ and reports FREQ's stage. -/
theorem hencBody_of_input_too_long (h : s.cfg.nMax < s.sinLen.toNat) : hencBody s = raise .badParam 1 4 := by
  rw [hencBody, freqBody, if_pos h]
  rfl

/-- In a state of the block the BUILD and CODES of HENC raise nothing, as they start from a table and a
tree that are not empty, and each symbol of the input has a code (R98). -/
theorem hencBody_raises_of_dataOk (h : s.dataOk) : Raises [(.badParam, 1), (.capacity, 4)] (hencBody s) := by
  rcases Nat.lt_or_ge s.cfg.nMax s.sinLen.toNat with hlong | hl
  · rw [hencBody_of_input_too_long hlong]
    exact raises_raise (by decide) _
  by_cases hne : s.sinLen = 0
  · rw [hencBody_eq hl, if_pos (presentSymbols_eq_nil fun a _ => countAt_freq_of_empty hne a)]
    exact raises_ok _
  obtain ⟨-, -, s3, -, -, -, hbody, -, -, hsrc, -, -, hpres⟩ := hencBody_chain h hl hne
  have hin := inputSymbols_of_sourcesKept hsrc
  obtain ⟨hcfg, -, hlen, -⟩ := hsrc
  rw [hbody]
  obtain ⟨v, hv⟩ | ⟨j, -, hraise, -⟩ :=
    encBody_ok_or_capacity (s := s3) (by rwa [hlen, hcfg]) fun a ha => (hpres a).2 (hin ▸ ha)
  · rw [hv]
    exact raises_ok v
  · rw [hraise]
    exact raises_raise (by decide) j

/-- From what a body raises to the numbers that `REG.STATUS` reports (R140, R141). -/
theorem Raises.reported {α : Type} {ps : List (ErrorKind × BitVec 4)} {reported : List (Nat × Nat)} {b : Body α}
    {e : CmdError} (h : Raises ps b) (hp : ∀ p ∈ ps, (p.1.code.toNat, p.2.toNat) ∈ reported)
    (he : b = .error (.raised e)) : (e.kind.code.toNat, e.stage.toNat) ∈ reported :=
  hp _ (h e he)

/-- What a body raises in a state of the block is listed in R142 for its command. -/
theorem body_error_listed (hd : s.dataOk) {i : Instr} {e : CmdError} (h : bodyOf i s = .error (.raised e)) :
    (e.kind.code.toNat, e.stage.toNat) ∈ errorsOf i := by
  cases i
  case freq => exact (freqBody_raises s).reported (by decide) h
  case build => exact (buildBody_raises s).reported (by decide) h
  case codes => exact (codesBody_raises s).reported (by decide) h
  case enc => exact (encBody_raises s).reported (by decide) h
  case henc => exact (hencBody_raises_of_dataOk hd).reported (by decide) h
  case pack => exact (packBody_raises s).reported (by decide) h
  case unpack => exact (unpackBody_raises s).reported (by decide) h
  case hdec => exact (hdecBody_raises s).reported (by decide) h
  case lzc => exact (lzcBody_raises s).reported (by decide) h
  case lzd => exact (lzdBody_raises s).reported (by decide) h
  all_goals
    exact (raises_raise (ps := [(.illegalCommand, 0)]) (by decide) _).reported (reported := [(8, 0)]) (by decide) h

/-- Settles O28: an abort reports the kind and the stage that the body raised. -/
theorem onlyListedErrorsOccur : Obligations.OnlyListedErrorsOccur := by
  unfold Obligations.OnlyListedErrorsOccur
  intro i s t hinv hexec herr
  obtain ⟨e, he, rfl⟩ := exec_next_err hexec herr
  exact body_error_listed ((inv_iff s).1 hinv).1 he

/-! ### The parameter checks (R143) -/

theorem exec_aborted_of_raise {i : Instr} {k : ErrorKind} {st : BitVec 4} {n : Nat}
    (h : bodyOf i s = raise k st n) : ∃ t, exec i s = .next t ∧ Aborted s t k.code st (BitVec.ofNat 32 n) :=
  ⟨_, exec_aborted h⟩

/-- BUILD and CODES report `EmptyInputError` or nothing. -/
theorem errCode_ne_badParam_of_build_or_codes {i : Instr} (hi : i ∈ [Instr.build, .codes])
    (h : exec i s = .next t) : t.status.errCode ≠ 6 := by
  obtain ⟨u, -, rfl⟩ | ⟨e, he, rfl⟩ := exec_next h
  · exact show (0 : BitVec 4) ≠ 6 by decide
  · have hkind : e.kind = .emptyInput := by
      obtain rfl | rfl : i = .build ∨ i = .codes := by simpa using hi
      · exact congrArg Prod.fst (List.mem_singleton.1 (buildBody_raises s e he))
      · exact congrArg Prod.fst (List.mem_singleton.1 (codesBody_raises s e he))
    rw [raiseError_status, Status.aborted, hkind]
    exact show (1 : BitVec 4) ≠ 6 by decide

/-- Settles O29: the check of a length register is the first thing a body does, and the check of
`REG.WIN` the second thing that LZC does. -/
theorem parameterChecks : Obligations.ParameterChecks := by
  unfold Obligations.ParameterChecks
  intro s
  refine ⟨fun h => ?_, fun h => ?_, fun h => ?_, fun h => ?_, fun hl h => ?_,
    fun i hi t hexec => errCode_ne_badParam_of_build_or_codes hi hexec⟩
  · have hfreq : freqBody s = raise .badParam 1 4 := if_pos h
    have henc : encBody s = raise .badParam 4 4 := if_pos h
    have hlzc : lzcBody s = raise .badParam 8 4 := if_pos h
    exact ⟨exec_aborted_of_raise (i := .freq) hfreq, exec_aborted_of_raise (i := .enc) henc,
      exec_aborted_of_raise (i := .henc) (hencBody_of_input_too_long h), exec_aborted_of_raise (i := .lzc) hlzc⟩
  · have hpack : packBody s = raise .badParam 6 6 := if_pos h
    have hhdec : hdecBody s = raise .badParam 5 6 := if_pos h
    exact ⟨exec_aborted_of_raise (i := .pack) hpack, exec_aborted_of_raise (i := .hdec) hhdec⟩
  · have hunpack : unpackBody s = raise .badParam 7 7 := if_pos h
    exact exec_aborted_of_raise (i := .unpack) hunpack
  · have hlzd : lzdBody s = raise .badParam 9 8 := if_pos h
    exact exec_aborted_of_raise (i := .lzd) hlzd
  · have hlzc : lzcBody s = raise .badParam 8 3 := by rw [lzcBody, if_neg (by omega), if_pos h]
    exact exec_aborted_of_raise (i := .lzc) hlzc

end Sys2Proof.Machine
end

section
/-! The `Reset` event (spec/70_reset_and_hazards.md R160). -/

namespace Sys2Proof.Machine

variable {s : State}

@[simp] theorem countAt_resetBlock (a : Nat) : (resetBlock s).countAt a = 0 := by
  simp [State.countAt]

/-- Only the bits of an entry of `CT` are unspecified after a reset (R37). -/
@[simp] theorem codeRecAt_resetBlock_len (a : Nat) : ((resetBlock s).codeRecAt a).len = 0 := by
  simp [State.codeRecAt]

/-- `Reset` is taken whatever the block is doing. -/
theorem step_reset {rest : List Event} (h : s.inputs = .reset :: rest) :
    step s = .next (resetBlock { s with inputs := rest }) :=
  step_of_event h (by decide)

/-- A reset forgets the word of the running command. -/
theorem resetBlock_of_cmdLatch (w : Word) : resetBlock { s with cmdLatch := w } = resetBlock s := rfl

/-- Settles O13: the step is `resetBlock`, which looks neither at the status nor at the latch. -/
theorem resetEvent : Obligations.ResetEvent := by
  unfold Obligations.ResetEvent
  intro s rest h
  have hstatus : Status.cleared.word = 0x00000000#32 := by decide
  have hlatch (w : Word) : step { s with cmdLatch := w } = .next (resetBlock { s with inputs := rest }) := by
    rw [step_reset (s := { s with cmdLatch := w }) h]
    exact congrArg _ (resetBlock_of_cmdLatch (s := { s with inputs := rest }) w)
  refine ⟨_, step_reset h, rfl, rfl, hstatus, rfl, rfl, rfl, rfl, rfl, rfl, rfl, rfl, rfl,
    countAt_resetBlock, codeRecAt_resetBlock_len, fun i => ?buffers, hlatch⟩
  case buffers => simp

end Sys2Proof.Machine
end
